-- ==== Sys2Proof/Word.lean ====
section
/-! DEFINITION. The word types of the block (10_state.md R24 to R31, R34): every width is the one the spec names. -/

namespace Sys2Proof

/-- One payload or memory byte (R62, R64). -/
abbrev Byte := BitVec 8

/-- One output element, a halfword (R63, R187). -/
abbrev Half := BitVec 16

/-- A register word or a bus address (R34, R60). -/
abbrev Word := BitVec 32

/-- A code, zero-extended to 12 bits, a dictionary index or a dictionary field (R25, R92). -/
abbrev Code := BitVec 12

/-- The not-yet-consumed payload bits (R24). -/
abbrev CacheWord := BitVec 19

/-- A register offset within the register block (R34, R99). -/
abbrev Offset := BitVec 8

end Sys2Proof
end

