-- ==== Sys2Proof/Config.lean ====
section
/-! DEFINITION. What is fixed for the machine (00_scope.md R8), and the free values: constants without a body, of which
nothing in Lean can prove a value. -/

namespace Sys2Proof.Config

/-- MAX, the dictionary capacity: indices 0..4095 (R8, R23). -/
def maxEntries : Nat := 4096

/-- WMAX, the largest code width (R8). -/
def maxWidth : Nat := 12

/-- The largest minimum code size START accepts (R9, R204). -/
def maxMincode : Nat := 11

/-- The capacity of the resolve stack (R29, R151). -/
def stackCapacity : Nat := 4096

/-- The number of byte addresses of the bus memory space (R60). -/
def busSize : Nat := 2 ^ 32

/-- The size in bytes of the register block (R34). -/
def blockSize : Nat := 64

/-- What a byte of bus memory that nothing has written reads as. DESIGN CHOICE (log 5): unsafe. -/
def unwrittenByte : Byte := 0

/-- FREE VALUE (R53, U1, log 6): the prefix field of a dictionary entry that nothing has written since the reset of era
`era`. -/
opaque dictPre (era index : Nat) : Code

/-- FREE VALUE (R53, U1, log 6): the suffix field of such an entry. -/
opaque dictSuf (era index : Nat) : Code

/-- FREE VALUE (R76, U2, log 8): what the host reads from the output buffer while a job runs. -/
opaque busyRead (draw : Nat) : Byte

end Sys2Proof.Config
end

