-- ==== Sys2Proof/Syntax.lean ====
section
/-! DEFINITION. The instructions, one constructor per row of spec/opcode_table.json, and the encoded forms they are read
from: codes of the payload (30_encoding.md R90), host register writes and reads (R99). -/

namespace Sys2Proof

/-- The seven code classes of R95. -/
inductive CodeClass where
  | invalid | endCode | clear | first | kwkwk | literal | dict
  deriving DecidableEq, Repr

/-- One constructor per row of the opcode table. A code class carries its code where its value is not fixed by the
context. A host write carries its whole data word, a read its offset. An internal operation carries the operands its
rule names. -/
inductive Instr where
  -- code classes, format CODE_w
  | invalid (code : Code)
  | endCode
  | clear
  | first (code : Code)
  | kwkwk (code : Code)
  | literal (code : Code)
  | dict (code : Code)
  -- host writes, format HOST_WR32
  | start (data : Word)
  | abort (data : Word)
  | ctrlBoth (data : Word)
  | ack (data : Word)
  | wrIrqEn (data : Word)
  | wrConfig (data : Word)
  | wrSrcAddr (data : Word)
  | wrSrcLen (data : Word)
  | wrDstAddr (data : Word)
  | wrDim (data : Word)
  | wrIgnored (offset : Offset) (data : Word)
  -- host read, format HOST_RD32
  | rd (offset : Offset)
  -- internal operations of the engine, not host-encoded
  | brInit
  | brResetWidth
  | brWiden
  | brMaxval
  | brRead
  | dictInit
  | decodeStep
  | resolve (code : Code)
  | alloc
  | grow
  | tail (code : Code) (seq : List Code)
  | emit (value : Code)
  | padStep
  deriving DecidableEq, Repr

/-- The internal operations: rows of format INTERNAL, which no encoding selects. -/
def Instr.isInternal : Instr → Bool
  | .brInit | .brResetWidth | .brWiden | .brMaxval | .brRead | .dictInit | .decodeStep | .resolve _ | .alloc | .grow
  | .tail _ _ | .emit _ | .padStep => true
  | .invalid _ | .endCode | .clear | .first _ | .kwkwk _ | .literal _ | .dict _ | .start _ | .abort _ | .ctrlBoth _
  | .ack _ | .wrIrqEn _ | .wrConfig _ | .wrSrcAddr _ | .wrSrcLen _ | .wrDstAddr _ | .wrDim _ | .wrIgnored _ _
  | .rd _ => false

/-- What the class and the length of the next code depend on besides the code (R93, R95): the values before the code. -/
structure CodeCtx where
  /-- The minimum code size `m` (R22). -/
  mincode : Nat
  nextKey : Nat
  prevNone : Bool
  width : Nat
  deriving DecidableEq, Repr

/-- `CLEAR = 2^m` (R23). -/
def CodeCtx.clear (c : CodeCtx) : Nat := 2 ^ c.mincode

/-- `END = CLEAR + 1` (R23). -/
def CodeCtx.endCode (c : CodeCtx) : Nat := c.clear + 1

/-- The words an instruction is read from: a code of `width` bits (R90), a register write or a register read (R99). -/
inductive Encoding where
  | code (width bits : Nat)
  | write (offset : Offset) (data : Word)
  | read (offset : Offset)
  deriving DecidableEq, Repr

/-- A host access at the register block: direction, size in bytes, bus address and, for a write, the data (R66, R99). -/
structure HostAccess where
  write : Bool
  size : Nat
  addr : Word
  data : Word
  deriving DecidableEq, Repr

/-- Why bits are no instruction. -/
inductive DecodeError where
  /-- A register access that is not an aligned 32-bit access within the block (R66). -/
  | regAccessOther
  /-- A code that is not of the current width (R90, R93). -/
  | codeWidth
  /-- A byte sequence that is the length of no format. -/
  | frameLength
  deriving DecidableEq, Repr

/-- The decoder's answer. -/
inductive Decoded where
  | ok (i : Instr)
  | rejected (e : DecodeError)
  deriving DecidableEq, Repr

def Decoded.toOption : Decoded → Option Instr
  | .ok i => some i
  | .rejected _ => none

/-! Register offsets (10_state.md R34). -/
namespace Reg

def ctrl : Offset := 0x00
def status : Offset := 0x04
def cause : Offset := 0x08
def config : Offset := 0x0C
def irqEn : Offset := 0x10
def srcAddr : Offset := 0x14
def srcLen : Offset := 0x18
def dstAddr : Offset := 0x1C
def dim : Offset := 0x20
def outCount : Offset := 0x24
def inCount : Offset := 0x28
def codeCount : Offset := 0x2C
def dbgDict : Offset := 0x30
def dbgPrev : Offset := 0x34
def dbgBits : Offset := 0x38
def reserved : Offset := 0x3C

/-- An offset of the block: a multiple of 4 below 0x40 (R34, R66). -/
def valid (o : Offset) : Bool := o.toNat % 4 == 0 && o.toNat < Config.blockSize

/-- The registers whose writes are ignored, busy or idle (R211). -/
def writeIgnored (o : Offset) : Bool :=
  o == cause || o == outCount || o == inCount || o == codeCount || o == dbgDict || o == dbgPrev || o == dbgBits
    || o == reserved

end Reg

end Sys2Proof
end

