-- ==== Sys2Proof/WellFormed.lean ====
section
/-! DEFINITION. Which instruction terms some encoding (or, for an internal operation, some rule) can produce. -/

namespace Sys2Proof

/-- A code fits the current width (R90). -/
def CodeCtx.fits (ctx : CodeCtx) (n : Nat) : Bool := ctx.width ≤ Config.maxWidth && n < 2 ^ ctx.width

/-- The well-formedness check. The class conditions are those of R95, each with the rows before it excluded; the host
rows are those of R100, R101 and R211 (for WR_IGNORED see also log 13); WIDEN is never invoked at width 12 (R122); a
resolved sequence has 1 to 4097 elements (R150, R292). -/
def Instr.wf (ctx : CodeCtx) : Instr → Bool
  | .invalid c => ctx.fits c.toNat && ctx.nextKey < c.toNat
  | .endCode => ctx.fits ctx.endCode && ctx.endCode ≤ ctx.nextKey
  | .clear => ctx.fits ctx.clear && ctx.clear ≤ ctx.nextKey
  | .first c => ctx.fits c.toNat && ctx.prevNone && c.toNat ≤ ctx.nextKey && c.toNat != ctx.endCode && c.toNat != ctx.clear
  | .kwkwk c => ctx.fits c.toNat && !ctx.prevNone && c.toNat == ctx.nextKey && c.toNat != ctx.endCode && c.toNat != ctx.clear
  | .literal c => ctx.fits c.toNat && !ctx.prevNone && c.toNat < ctx.nextKey && c.toNat < ctx.clear
  | .dict c => ctx.fits c.toNat && !ctx.prevNone && c.toNat < ctx.nextKey && ctx.clear + 2 ≤ c.toNat
  | .start d => d.getLsbD 0 && !d.getLsbD 1
  | .abort d => !d.getLsbD 0 && d.getLsbD 1
  | .ctrlBoth d => d.getLsbD 0 && d.getLsbD 1
  | .ack d => d.getLsbD 1
  | .wrIrqEn _ | .wrConfig _ | .wrSrcAddr _ | .wrSrcLen _ | .wrDstAddr _ | .wrDim _ => true
  | .wrIgnored o d =>
    Reg.writeIgnored o || (o == Reg.ctrl && !d.getLsbD 0 && !d.getLsbD 1) || (o == Reg.status && !d.getLsbD 1)
  | .rd o => Reg.valid o
  | .brInit | .brResetWidth | .brMaxval | .brRead | .dictInit | .decodeStep | .resolve _ | .alloc | .grow | .emit _
  | .padStep => true
  | .brWiden => ctx.width < Config.maxWidth
  | .tail _ seq => !seq.isEmpty && seq.length ≤ Config.stackCapacity + 1

end Sys2Proof
end

