-- ==== Sys2Proof/Decode.lean ====
section
/-! DEFINITION. The decoder: total, rejecting by name; after it the encoder, written from the same tables
(30_encoding.md R90 to R101). -/

namespace Sys2Proof

/-! ### Codes -/

/-- The class of a code: the conditions of R95 in its order, the first that holds. -/
def classify (ctx : CodeCtx) (code : Code) : CodeClass :=
  if ctx.nextKey < code.toNat then .invalid
  else if code.toNat = ctx.endCode then .endCode
  else if code.toNat = ctx.clear then .clear
  else if ctx.prevNone then .first
  else if code.toNat = ctx.nextKey then .kwkwk
  else if code.toNat < ctx.clear then .literal
  else .dict

/-- The instruction of a class and a code. -/
def CodeClass.instr (code : Code) : CodeClass → Instr
  | .invalid => .invalid code
  | .endCode => .endCode
  | .clear => .clear
  | .first => .first code
  | .kwkwk => .kwkwk code
  | .literal => .literal code
  | .dict => .dict code

/-- A code's value is zero-extended to 12 bits and classified (R92, R95). -/
def decodeCode (ctx : CodeCtx) (code : Code) : Instr := (classify ctx code).instr code

/-! ### Host accesses -/

/-- A register write (R99 to R101, R211). CTRL decodes by `data[1:0]` (R100). The two writes that have no effect and no
row of their own, CTRL with `data[1:0] = 00` (R209) and STATUS with `data[1] = 0` (R207), decode as WR_IGNORED
(DEDUCED, log 13). -/
def decodeWrite (o : Offset) (d : Word) : Decoded :=
  if o = Reg.ctrl then
    match d.getLsbD 1, d.getLsbD 0 with
    | false, false => .ok (.wrIgnored o d)
    | false, true => .ok (.start d)
    | true, false => .ok (.abort d)
    | true, true => .ok (.ctrlBoth d)
  else if o = Reg.status then
    if d.getLsbD 1 then .ok (.ack d) else .ok (.wrIgnored o d)
  else if o = Reg.irqEn then .ok (.wrIrqEn d)
  else if o = Reg.config then .ok (.wrConfig d)
  else if o = Reg.srcAddr then .ok (.wrSrcAddr d)
  else if o = Reg.srcLen then .ok (.wrSrcLen d)
  else if o = Reg.dstAddr then .ok (.wrDstAddr d)
  else if o = Reg.dim then .ok (.wrDim d)
  else if Reg.writeIgnored o then .ok (.wrIgnored o d)
  else .rejected .regAccessOther

/-- A register read (R200). -/
def decodeRead (o : Offset) : Decoded :=
  if Reg.valid o then .ok (.rd o) else .rejected .regAccessOther

/-- A host access at the register block based at `base`: an aligned 32-bit access within its 64 bytes, or refused (R66). -/
def decodeAccess (base : Word) (a : HostAccess) : Decoded :=
  if a.size = 4 ∧ base.toNat ≤ a.addr.toNat ∧ a.addr.toNat - base.toNat < Config.blockSize
      ∧ (a.addr.toNat - base.toNat) % 4 = 0 then
    let o : Offset := BitVec.ofNat 8 (a.addr.toNat - base.toNat)
    if a.write then decodeWrite o a.data else decodeRead o
  else .rejected .regAccessOther

/-- The decoder over encoded forms. A code must have the current width (R93). -/
def decode (ctx : CodeCtx) : Encoding → Decoded
  | .code w bits =>
    if w = ctx.width ∧ w ≤ Config.maxWidth ∧ bits < 2 ^ w then .ok (decodeCode ctx (BitVec.ofNat 12 bits))
    else .rejected .codeWidth
  | .write o d => decodeWrite o d
  | .read o => decodeRead o

/-! ### Bytes

The spec gives transactions, not byte sequences. The model lays one out as bytes, first byte lowest (DESIGN CHOICE,
log 2): a register read is its offset; a register write its offset and its data, little-endian; a code is two bytes,
little-endian, read in the context the opcode table names. -/

/-- The context the opcode table's code rows name: `m = 2` after CLEAR, `nextKey = 6`, `w = 3`. -/
def tableCtx : CodeCtx := ⟨2, 6, true, 3⟩

/-- The little-endian value of a byte sequence (R61). -/
def leNat : List Byte → Nat
  | [] => 0
  | b :: bs => b.toNat + 256 * leNat bs

/-- The first `n` bytes of a number, lowest first. -/
def leBytes : Nat → Nat → List Byte
  | 0, _ => []
  | n + 1, x => BitVec.ofNat 8 x :: leBytes n (x / 256)

/-- One transaction laid out as bytes; the length tells the format. -/
def parseFrame : List Byte → Option Encoding
  | [o] => some (.read o)
  | [b0, b1] => some (.code tableCtx.width (leNat [b0, b1]))
  | [o, d0, d1, d2, d3] => some (.write o (BitVec.ofNat 32 (leNat [d0, d1, d2, d3])))
  | _ => none

/-- The decoder over bytes. -/
def decodeBytes (bs : List Byte) : Decoded :=
  match parseFrame bs with
  | some e => decode tableCtx e
  | none => .rejected .frameLength

/-- The instruction the decoder reads from a table word of `nbits` bits, in whole bytes. -/
def decodeTableWord (nbits w : Nat) : Option Instr := (decodeBytes (leBytes (nbits / 8) w)).toOption

/-! ### The encoder -/

/-- The encoded form of an instruction; none for an internal operation, which nothing encodes. -/
def encode (ctx : CodeCtx) : Instr → Option Encoding
  | .invalid c | .first c | .kwkwk c | .literal c | .dict c => some (.code ctx.width c.toNat)
  | .endCode => some (.code ctx.width ctx.endCode)
  | .clear => some (.code ctx.width ctx.clear)
  | .start d | .abort d | .ctrlBoth d => some (.write Reg.ctrl d)
  | .ack d => some (.write Reg.status d)
  | .wrIrqEn d => some (.write Reg.irqEn d)
  | .wrConfig d => some (.write Reg.config d)
  | .wrSrcAddr d => some (.write Reg.srcAddr d)
  | .wrSrcLen d => some (.write Reg.srcLen d)
  | .wrDstAddr d => some (.write Reg.dstAddr d)
  | .wrDim d => some (.write Reg.dim d)
  | .wrIgnored o d => some (.write o d)
  | .rd o => some (.read o)
  | .brInit | .brResetWidth | .brWiden | .brMaxval | .brRead | .dictInit | .decodeStep | .resolve _ | .alloc | .grow
  | .tail _ _ | .emit _ | .padStep => none

/-- The bytes of an encoded form, laid out as `parseFrame` reads them. -/
def frame : Encoding → List Byte
  | .read o => [o]
  | .code _ bits => leBytes 2 bits
  | .write o d => o :: leBytes 4 d.toNat

/-- Codes packed end to end, least significant bit first, as the payload's bit stream (R91): the stream's bits as one
number, bit 0 first. -/
def packCodes : List (Nat × Nat) → Nat
  | [] => 0
  | (v, w) :: rest => v % 2 ^ w + 2 ^ w * packCodes rest

/-- The number of bits of a packed list of codes. -/
def packedBits : List (Nat × Nat) → Nat
  | [] => 0
  | (_, w) :: rest => w + packedBits rest

/-- The payload bytes of a packed list of codes, `ceil(Σw/8)` of them, the unused high bits zero (R91, R130). -/
def packBytes (codes : List (Nat × Nat)) : List Byte := leBytes ((packedBits codes + 7) / 8) (packCodes codes)

end Sys2Proof
end

