-- ==== Sys2Proof/Machine/State.lean ====
section
/-! DEFINITION. The state of the block, its platform and its bus memory (10_state.md R20 to R53), the reasons a step can
stop, and the state after reset (R53, R280). -/

namespace Sys2Proof.Machine

/-- The engine's control state (R21). -/
inductive Phase where
  | idle | decode | pad
  deriving DecidableEq, Repr

/-- The causes a job or a refused START ends with (60_exceptions.md R251); codes 11 to 15 are never produced. -/
inductive Cause where
  | none | pixelsDone | endCode | endOfData | corruptCode | corruptChain | aborted | busError | cfgMincode | cfgAlign
  | cfgRange
  deriving DecidableEq, Repr

/-- One dictionary entry: the fields `prefix[i]` and `suffix[i]` (R25). -/
structure DictEntry where
  pre : Code
  suf : Code
  deriving DecidableEq, Repr

/-- The dictionary's written entries, indices strictly rising (R25). -/
abbrev Dict := List (Nat × DictEntry)

/-- The bus memory's bytes that differ from `Config.unwrittenByte`, addresses strictly rising (R60). -/
abbrev Memory := List Host.Cell

/-- The kind of an engine access (R64, R65). -/
inductive AccessKind where
  | read | write
  deriving DecidableEq, Repr

/-- A range of engine accesses the bus does not complete: every access of this kind and size at an address from `lo` to
`hi` (R8, R64, R65). -/
structure Hole where
  lo : Nat
  hi : Nat
  size : Nat
  kind : AccessKind
  deriving DecidableEq, Repr

/-- The parameters the platform chooses (R8): BLOCK_BASE, IRQ_LINE and MEM_ADMITS, the last as the list of the accesses
that are not admitted (logs 3, 4). No step changes them. -/
structure Platform where
  blockBase : Word
  irqLine : Nat
  holes : List Hole
  deriving DecidableEq, Repr

/-- One scheduler choice (R291): an engine step, a host register access, a host access to one byte of bus memory (R76),
or reset (R280). -/
inductive Turn where
  | engine
  | host (a : HostAccess)
  | memStore (addr : Word) (value : Byte)
  | memLoad (addr : Word)
  | reset
  deriving DecidableEq, Repr

/-- An access the engine issued (R73, R83), completed or refused by the bus (R267). -/
inductive BusEvent where
  | read (addr : Nat)
  | write (addr : Nat) (value : Half)
  | readRefused (addr : Nat)
  | writeRefused (addr : Nat) (value : Half)
  deriving DecidableEq, Repr

/-- What an internal operation returned when it was run on its own (log 11). -/
inductive OpResult where
  | none
  /-- The code BR_READ returned (R125). -/
  | code (c : Code)
  /-- BR_READ met the end of the payload (R126). -/
  | endOfData
  /-- The value BR_MAXVAL returned (R123). -/
  | maxVal (n : Nat)
  deriving DecidableEq, Repr

/-- Why the machine stops with a fault. -/
inductive Fault where
  /-- The engine formed an address at or past 2^32, outside the bus memory space (R60). Raised by BR_READ and by every
  operation that emits or pads; START excludes it (R71, R204), so no run from reset meets it. Safe (log 17). -/
  | outsideBusSpace
  deriving DecidableEq, Repr

/-- Why the model refuses a turn. -/
inductive Refusal where
  /-- An instruction that has no meaning in this model: no arm of exec answers it. Safe. -/
  | notModelled (mnemonic : String)
  /-- A host register access that is not an aligned 32-bit access within the block (R66, REG_ACCESS_OTHER). Raised by
  the fetch of a host access. Safe. -/
  | regAccessOther
  /-- An accepted START or CTRL_BOTH whose payload and output buffers overlap (R77, U4). Safe (log 16). -/
  | overlappingBuffers
  /-- A host write to the payload or output buffer while a job runs (R76, R80, U3). Raised by a host memory turn. Safe. -/
  | busyBufferWrite
  deriving DecidableEq, Repr

/-- Everything the spec gives the machine, and at the end the model's own fields. -/
structure State where
  /-- R21 -/
  phase : Phase
  /-- R24: the bit cache; bit 0 is the next bit of the stream. -/
  cache : CacheWord
  /-- R24: the count of valid bits in `cache`. -/
  bitCount : BitVec 5
  /-- R24: the current code width. -/
  width : BitVec 4
  /-- R24, R45: the payload bytes pulled. -/
  inPos : Word
  /-- R25 -/
  dict : Dict
  /-- R26 -/
  nextKey : BitVec 13
  /-- R27 -/
  prevCode : Code
  /-- R27: `prevCode` is "none". -/
  prevNone : Bool
  /-- R28 -/
  lastCode : Code
  /-- R29: top first; empty between engine steps. -/
  resolveStack : List Code
  /-- R30, R44: `P`, the decoded indices written. -/
  outCount : Word
  /-- R30: the next arrival position to pad. -/
  padPos : Word
  /-- R30, R46: the codes read, modulo 2^32. -/
  codeCount : Word
  /-- R31, R37 -/
  cause : Cause
  /-- R31, R36: STATUS.DONE. -/
  done : Bool
  /-- R38: CONFIG.MINCODE, the minimum code size `m`. -/
  mincode : BitVec 8
  /-- R38: CONFIG.INTERLACE. -/
  interlace : Bool
  /-- R39: IRQ_EN.DONE_IE. -/
  doneIe : Bool
  /-- R40 -/
  srcAddr : Word
  /-- R41 -/
  srcLen : Word
  /-- R42 -/
  dstAddr : Word
  /-- R43: DIM.WIDTH, `W`. -/
  dimWidth : BitVec 16
  /-- R43: DIM.HEIGHT, `H`. -/
  dimHeight : BitVec 16
  /-- R60: the bus memory. -/
  memory : Memory
  /-- R8 -/
  platform : Platform
  /-- The model's own: the turns still to come, oldest first (log 1). -/
  schedule : List Turn
  /-- The model's own: the word the last host read returned (R200, log 10). -/
  readData : Word
  /-- The model's own: what the last internal operation run on its own returned (log 11). -/
  opResult : OpResult
  /-- The model's own: the engine's accesses of the current or last job, oldest first (log 12). -/
  busLog : List BusEvent
  /-- The model's own: the number of free values the host's reads have drawn (logs 8, 9). -/
  draws : Nat
  /-- The model's own: the era of free values unlisted dictionary entries are read with, a new one after each reset turn
  (logs 6, 9). -/
  dictEra : Nat
  deriving DecidableEq, Repr

/-- The state right after reset (R53, R280). Memory, platform, schedule and the model's own fields have no reset value in
the spec: logs 3, 4, 5, 9 to 12. -/
def State.reset : State where
  phase := .idle
  cache := 0
  bitCount := 0
  width := 0
  inPos := 0
  dict := []
  nextKey := 0
  prevCode := 0
  prevNone := true
  lastCode := 0
  resolveStack := []
  outCount := 0
  padPos := 0
  codeCount := 0
  cause := .none
  done := false
  mincode := 0
  interlace := false
  doneIe := false
  srcAddr := 0
  srcLen := 0
  dstAddr := 0
  dimWidth := 0
  dimHeight := 0
  memory := []
  platform := ⟨0, 0, []⟩
  schedule := []
  readData := 0
  opResult := .none
  busLog := []
  draws := 0
  dictEra := 0

end Sys2Proof.Machine
end

