-- ==== Sys2Proof/Machine/Memory.lean ====
section
/-! DEFINITION. Sparse data by key in one canonical form, and over it the bus memory (20_memory.md R60 to R65) and the
dictionary's storage (10_state.md R25). -/

namespace Sys2Proof.Machine

/-! ### Sparse lists: keys strictly rising -/

/-- The value listed at key `k`. -/
def Sparse.find? {α : Type} (k : Nat) : List (Nat × α) → Option α
  | [] => none
  | (j, v) :: rest => if j = k then some v else Sparse.find? k rest

/-- List `v` at key `k`, in the place of what was listed there. -/
def Sparse.insert {α : Type} (k : Nat) (v : α) : List (Nat × α) → List (Nat × α)
  | [] => [(k, v)]
  | (j, w) :: rest =>
    if k < j then (k, v) :: (j, w) :: rest
    else if k = j then (k, v) :: rest
    else (j, w) :: Sparse.insert k v rest

/-- List nothing at key `k`. -/
def Sparse.erase {α : Type} (k : Nat) : List (Nat × α) → List (Nat × α)
  | [] => []
  | (j, w) :: rest => if j = k then rest else (j, w) :: Sparse.erase k rest

/-- The keys are strictly rising. -/
abbrev Sparse.Rising {α : Type} (l : List (Nat × α)) : Prop := (l.map Prod.fst).Pairwise (· < ·)

/-! ### The bus memory -/

/-- The byte at an address: what is listed, else the unwritten byte. -/
def Memory.read (m : Memory) (a : Nat) : Byte := (Sparse.find? a m).getD Config.unwrittenByte

/-- Write one byte, keeping the canonical form. -/
def Memory.write (m : Memory) (a : Nat) (b : Byte) : Memory :=
  if b = Config.unwrittenByte then Sparse.erase a m else Sparse.insert a b m

/-- The low byte of a halfword (R63). -/
def lowByte (v : Half) : Byte := v.extractLsb' 0 8

/-- The high byte of a halfword (R63). -/
def highByte (v : Half) : Byte := v.extractLsb' 8 8

/-- Write one halfword, little-endian: bits 7:0 at `a`, bits 15:8 at `a+1` (R63). -/
def Memory.writeHalf (m : Memory) (a : Nat) (v : Half) : Memory := (m.write a (lowByte v)).write (a + 1) (highByte v)

/-- The halfword at an address, little-endian (R63, R236). -/
def Memory.readHalf (m : Memory) (a : Nat) : Half := m.read (a + 1) ++ m.read a

/-- The canonical form: addresses strictly rising and inside the bus space, and no entry equal to what an unlisted address
reads as. -/
abbrev Memory.wf (m : Memory) : Prop :=
  Sparse.Rising m ∧ ∀ c ∈ m, c.1 < Config.busSize ∧ c.2 ≠ Config.unwrittenByte

/-! ### The dictionary -/

/-- Entry `i`: what has been written, else the free value of U1 (log 6). -/
def Dict.read (era : Nat) (d : Dict) (i : Nat) : DictEntry :=
  (Sparse.find? i d).getD ⟨Config.dictPre era i, Config.dictSuf era i⟩

/-- Write entry `i`. -/
def Dict.write (d : Dict) (i : Nat) (e : DictEntry) : Dict := Sparse.insert i e d

/-- The seeded entries `0..n-1`: prefix 0, suffix the index (R141). -/
def Dict.literals (n : Nat) : Dict := (List.range n).map fun i => (i, ⟨0, BitVec.ofNat 12 i⟩)

/-- Seed the entries below `clear` and keep the others (R141). -/
def Dict.seed (d : Dict) (clear : Nat) : Dict := Dict.literals clear ++ d.filter fun c => clear ≤ c.1

/-- The dictionary's form: indices strictly rising and below 4096 (R25). -/
abbrev Dict.wf (d : Dict) : Prop := Sparse.Rising d ∧ ∀ c ∈ d, c.1 < Config.maxEntries

end Sys2Proof.Machine
end

