-- ==== Sys2Proof/Machine/Operands.lean ====
section
/-! DEFINITION. What the rules name but the block does not store: the derived constants (10_state.md R22, R23), the stream
position (R33), the buffers (20_memory.md R60), allocation (41_lzw_codes.md R149) and the output map (42_output.md R181
to R183). -/

namespace Sys2Proof.Machine

/-- `m` (R22). -/
def State.m (s : State) : Nat := s.mincode.toNat

/-- `CLEAR = 2^m` (R23). -/
def State.clear (s : State) : Nat := 2 ^ s.m

/-- `END = CLEAR + 1` (R23). -/
def State.endCode (s : State) : Nat := s.clear + 1

/-- `N = W × H`, the exact product (R23). -/
def State.pixelCount (s : State) : Nat := s.dimWidth.toNat * s.dimHeight.toNat

/-- `bitPos = 8 × inPos − bitCount`, the position of the next unconsumed bit (R33). -/
def State.bitPos (s : State) : Nat := 8 * s.inPos.toNat - s.bitCount.toNat

/-- What classifies the next code (R93, R95). -/
def State.codeCtx (s : State) : CodeCtx := ⟨s.m, s.nextKey.toNat, s.prevNone, s.width.toNat⟩

/-- Dictionary entry `i`. -/
def State.entry (s : State) (i : Nat) : DictEntry := Dict.read s.dictEra s.dict i

/-- Dictionary index `c` is allocated (R149). -/
def State.allocated (s : State) (c : Nat) : Bool :=
  c < s.clear || (s.clear + 2 ≤ c && c < s.nextKey.toNat)

/-- `maxValueForCurrentWidth() = 2^width − 1` (R123). -/
def State.maxVal (s : State) : Nat := 2 ^ s.width.toNat - 1

/-- `addr` lies in the payload buffer `[srcAddr, srcAddr + srcLen)` (R60). -/
def State.inPayload (s : State) (addr : Nat) : Bool :=
  s.srcAddr.toNat ≤ addr && addr < s.srcAddr.toNat + s.srcLen.toNat

/-- `addr` lies in the output buffer `[dstAddr, dstAddr + 2N)` (R60). -/
def State.inOutput (s : State) (addr : Nat) : Bool :=
  s.dstAddr.toNat ≤ addr && addr < s.dstAddr.toNat + 2 * s.pixelCount

/-- The two buffers share a byte (R77). -/
def State.buffersOverlap (s : State) : Bool :=
  0 < s.srcLen.toNat && 0 < s.pixelCount
    && s.srcAddr.toNat < s.dstAddr.toNat + 2 * s.pixelCount
    && s.dstAddr.toNat < s.srcAddr.toNat + s.srcLen.toNat

/-- The output row arrival row `k` of a frame of height `h` goes to (R183). -/
def deintRow (h k : Nat) : Nat :=
  let n1 := (h + 7) / 8
  let n2 := (h + 3) / 8
  let n3 := (h + 1) / 4
  if k < n1 then 8 * k
  else if k < n1 + n2 then 8 * (k - n1) + 4
  else if k < n1 + n2 + n3 then 4 * (k - n1 - n2) + 2
  else 2 * (k - n1 - n2 - n3) + 1

/-- The deinterlace map (R183). -/
def deint (w h j : Nat) : Nat := deintRow h (j / w) * w + j % w

/-- `dest(j)`, the output element arrival position `j` goes to (R181, R182). -/
def State.dest (s : State) (j : Nat) : Nat :=
  if s.interlace then deint s.dimWidth.toNat s.dimHeight.toNat j else j

/-- The byte address of the output element of arrival position `j`, an exact sum (R71, R181). -/
def State.destAddr (s : State) (j : Nat) : Nat := s.dstAddr.toNat + 2 * s.dest j

/-- MEM_ADMITS (R8, R64, R65; log 3). -/
def Platform.admits (p : Platform) (addr size : Nat) (kind : AccessKind) : Bool :=
  !p.holes.any fun h => h.lo ≤ addr && addr ≤ h.hi && h.size == size && h.kind == kind

end Sys2Proof.Machine
end

