-- ==== Sys2Proof/Machine/Flags.lean ====
section
/-! DEFINITION. The status flags, the interrupt output and the register words (10_state.md R34 to R51). The block has no
condition codes (R50). -/

namespace Sys2Proof.Machine

/-- The 4-bit cause code (60_exceptions.md R251). -/
def Cause.code : Cause → BitVec 4
  | .none => 0
  | .pixelsDone => 1
  | .endCode => 2
  | .endOfData => 3
  | .corruptCode => 4
  | .corruptChain => 5
  | .aborted => 6
  | .busError => 7
  | .cfgMincode => 8
  | .cfgAlign => 9
  | .cfgRange => 10

/-- Which causes are errors (R50). -/
def Cause.isError : Cause → Bool
  | .none | .pixelsDone | .endCode => false
  | .endOfData | .corruptCode | .corruptChain | .aborted | .busError | .cfgMincode | .cfgAlign | .cfgRange => true

/-- Which terminations pad the frame (42_output.md R186). -/
def Cause.pads : Cause → Bool
  | .pixelsDone | .endCode | .endOfData | .corruptCode | .corruptChain => true
  | .none | .aborted | .busError | .cfgMincode | .cfgAlign | .cfgRange => false

/-- STATUS.BUSY: 1 exactly when `phase != IDLE` (R21, R36). -/
def State.busy (s : State) : Bool := s.phase != .idle

/-- STATUS.ERR, a function of the cause (R36, R50). -/
def State.err (s : State) : Bool := s.cause.isError

/-- The interrupt output, a level (R51). -/
def State.irq (s : State) : Bool := s.doneIe && s.done

/-- `value(o)`: the register's fields as R35 to R49 give them, from bit 31 down; RES0 fields 0. -/
def State.regValue (s : State) (o : Offset) : Word :=
  if o = Reg.status then 0#29 ++ BitVec.ofBool s.err ++ BitVec.ofBool s.done ++ BitVec.ofBool s.busy
  else if o = Reg.cause then 0#28 ++ s.cause.code
  else if o = Reg.config then 0#23 ++ BitVec.ofBool s.interlace ++ s.mincode
  else if o = Reg.irqEn then 0#31 ++ BitVec.ofBool s.doneIe
  else if o = Reg.srcAddr then s.srcAddr
  else if o = Reg.srcLen then s.srcLen
  else if o = Reg.dstAddr then s.dstAddr
  else if o = Reg.dim then s.dimHeight ++ s.dimWidth
  else if o = Reg.outCount then s.outCount
  else if o = Reg.inCount then s.inPos
  else if o = Reg.codeCount then s.codeCount
  else if o = Reg.dbgDict then 0#12 ++ s.width ++ 0#3 ++ s.nextKey
  else if o = Reg.dbgPrev then BitVec.ofBool s.prevNone ++ 0#3 ++ s.lastCode ++ 0#4 ++ s.prevCode
  else if o = Reg.dbgBits then 0#3 ++ s.bitCount ++ 0#5 ++ s.cache
  else 0

end Sys2Proof.Machine
end

