-- ==== Sys2Proof/Machine/Ops.lean ====
section
/-! DEFINITION. The shared operations: how a rule's steps are sequenced, ending a job (60_exceptions.md R255, R256: the
block's only exception), ABORT's ending (43_host_commands.md R206), reset (70_reset_and_hazards.md R280), and the memory
master port (20_memory.md R64, R65). -/

namespace Sys2Proof.Machine

/-! ### Sequencing -/

/-- What a part of an engine step does: it goes on with a value, or the step has ended (R255), or it faults. -/
inductive Eng (α : Type) where
  | go (a : α) (s : State)
  | ended (s : State)
  | fault (f : Fault)
  deriving Repr

/-- Go on with `k` unless the step has ended. -/
def Eng.andThen {α β : Type} (x : Eng α) (k : α → State → Eng β) : Eng β :=
  match x with
  | .go a s => k a s
  | .ended s => .ended s
  | .fault f => .fault f

/-- The outcome of a whole step: having ended early is a next state like any other. -/
def Eng.outcome (x : Eng Unit) : Host.Outcome State Fault Refusal :=
  match x with
  | .go _ s => .next s
  | .ended s => .next s
  | .fault f => .fault f

/-! ### The end of a job -/

/-- `complete()` (R256). -/
def complete (s : State) : State := { s with phase := .idle, done := true }

/-- `terminate(c)` (R255): a padding cause enters PAD, any other completes the job. -/
def terminate (c : Cause) (s : State) : State :=
  if c.pads then { s with cause := c, phase := .pad, padPos := s.outCount }
  else complete { s with cause := c }

/-- ABORT's pseudocode (R206, R266). -/
def abortJob (s : State) : State :=
  if s.phase = .idle then s else { s with phase := .idle, cause := .aborted, done := true }

/-! ### Reset -/

/-- Reset (R280): every state element of the block gets the value of R53. The dictionary's contents become unspecified: the
written entries are dropped and a new era of free values begins, so that nothing can be proved to carry over from before the
reset (DESIGN CHOICE, log 6). Bus memory and platform are not the block's and stay (R281), as do the turns still to come, the
word the host last read and the count of draws (log 20). -/
def resetBlock (s : State) : State :=
  { State.reset with
    memory := s.memory
    platform := s.platform
    schedule := s.schedule
    readData := s.readData
    draws := s.draws
    dictEra := s.dictEra + 1 }

/-! ### The memory master port -/

/-- `MemRead(a, 1)` (R64): a byte, or a bus error when MEM_ADMITS is false, which ends the job (R267). -/
def memRead (a : Nat) (s : State) : Eng Byte :=
  if a < Config.busSize then
    if s.platform.admits a 1 .read then .go (s.memory.read a) { s with busLog := s.busLog ++ [.read a] }
    else .ended (terminate .busError { s with busLog := s.busLog ++ [.readRefused a] })
  else .fault .outsideBusSpace

/-- `MemWrite(a, 2, v)` (R65), or a bus error when MEM_ADMITS is false, which ends the job (R267). R65 lets a refused write
have changed memory or not; R191 and U6 say that an element not written keeps its contents, so here it has not (DEDUCED,
log 7). -/
def memWrite (a : Nat) (v : Half) (s : State) : Eng Unit :=
  if a + 1 < Config.busSize then
    if s.platform.admits a 2 .write then
      .go () { s with memory := s.memory.writeHalf a v, busLog := s.busLog ++ [.write a v] }
    else .ended (terminate .busError { s with busLog := s.busLog ++ [.writeRefused a v] })
  else .fault .outsideBusSpace

end Sys2Proof.Machine
end

