-- ==== Sys2Proof/Machine/BitReader.lean ====
section
/-! DEFINITION. The bit-unpacker (40_bitreader.md R120 to R130): its operations as shared functions, and the meanings of
the rows BR_INIT, BR_RESETWIDTH, BR_WIDEN, BR_MAXVAL and BR_READ. -/

namespace Sys2Proof.Machine

/-- INIT (R120). -/
def bitInit (s : State) : State :=
  { s with cache := 0, bitCount := 0, inPos := 0, width := BitVec.ofNat 4 (s.m + 1), codeCount := 0 }

/-- RESETWIDTH (R121); the cache is not touched (R128). -/
def resetWidth (s : State) : State := { s with width := BitVec.ofNat 4 (s.m + 1) }

/-- WIDEN (R122); the cache is not touched (R128). -/
def widen (s : State) : State := { s with width := s.width + 1 }

/-- One pass of the fill loop's body after the byte has been read: OR it in above the valid bits (R124). -/
def pushByte (b : Byte) (s : State) : State :=
  { s with
    cache := s.cache ||| (b.setWidth 19 <<< s.bitCount.toNat)
    bitCount := s.bitCount + 8
    inPos := s.inPos + 1 }

/-- The fill loop (R124, R127): `true` when `bitCount >= width`, `false` for EndOfData (R126). -/
def fillLoop : Nat → State → Eng Bool
  | 0, s => .go true s
  | fuel + 1, s =>
    if s.bitCount.toNat < s.width.toNat then
      if s.srcLen.toNat ≤ s.inPos.toNat then .go false s
      else (memRead (s.srcAddr.toNat + s.inPos.toNat) s).andThen fun b s => fillLoop fuel (pushByte b s)
    else .go true s

/-- The loop runs at most twice: each pass adds 8 bits and a width has 4 bits, so is at most 15. -/
def fill (s : State) : Eng Bool := fillLoop 2 s

/-- The low `width` bits of the cache, `cache & (2^width − 1)` (R125). -/
def lowCode (s : State) : Code := (s.cache &&& BitVec.ofNat 19 (2 ^ s.width.toNat - 1)).setWidth 12

/-- Drop the low `width` bits and count the code (R125). -/
def dropCode (s : State) : State :=
  { s with
    cache := s.cache >>> s.width.toNat
    bitCount := s.bitCount - s.width.setWidth 5
    codeCount := s.codeCount + 1 }

/-- READ (R124 to R127): the next code of the current width, or none for EndOfData. -/
def readCode (s : State) : Eng (Option Code) :=
  (fill s).andThen fun enough s => if enough then .go (some (lowCode s)) (dropCode s) else .go none s

/-! ### The rows -/

/-- BR_INIT (R120). -/
def execBrInit (s : State) : Host.Outcome State Fault Refusal := .next (bitInit s)

/-- BR_RESETWIDTH (R121). -/
def execBrResetWidth (s : State) : Host.Outcome State Fault Refusal := .next (resetWidth s)

/-- BR_WIDEN (R122). -/
def execBrWiden (s : State) : Host.Outcome State Fault Refusal := .next (widen s)

/-- BR_MAXVAL (R123): returns `2^width − 1` and writes no state of the block (log 11). -/
def execBrMaxval (s : State) : Host.Outcome State Fault Refusal := .next { s with opResult := .maxVal s.maxVal }

/-- BR_READ (R124 to R127), its result in `opResult` (log 11). A bus error ends the job (R127, R267). -/
def execBrRead (s : State) : Host.Outcome State Fault Refusal :=
  match readCode s with
  | .go (some c) s => .next { s with opResult := .code c }
  | .go none s => .next { s with opResult := .endOfData }
  | .ended s => .next s
  | .fault f => .fault f

end Sys2Proof.Machine
end

