-- ==== Sys2Proof/Machine/Output.lean ====
section
/-! DEFINITION. The output writer (42_output.md R180 to R191): the rows EMIT and PAD_STEP. -/

namespace Sys2Proof.Machine

/-- `emit(v)` (R180, R187, R189): write the index at its place, or discard it when `P >= N`. -/
def emit (v : Code) (s : State) : Eng Unit :=
  if s.outCount.toNat < s.pixelCount then
    (memWrite (s.destAddr s.outCount.toNat) (v.setWidth 16) s).andThen fun _ s =>
      .go () { s with outCount := s.outCount + 1 }
  else .go () s

/-- Emit a sequence in order (R157). -/
def emitAll : List Code → State → Eng Unit
  | [], s => .go () s
  | v :: vs, s => (emit v s).andThen fun _ s => emitAll vs s

/-- PAD_STEP's pseudocode (R185): complete, or write one padding index 0. -/
def padStep (s : State) : Eng Unit :=
  if s.pixelCount ≤ s.padPos.toNat then .go () (complete s)
  else (memWrite (s.destAddr s.padPos.toNat) 0 s).andThen fun _ s => .go () { s with padPos := s.padPos + 1 }

/-! ### The rows -/

/-- EMIT (R180). -/
def execEmit (v : Code) (s : State) : Host.Outcome State Fault Refusal := (emit v s).outcome

/-- PAD_STEP (R185). -/
def execPadStep (s : State) : Host.Outcome State Fault Refusal := (padStep s).outcome

end Sys2Proof.Machine
end

