-- ==== Sys2Proof/Machine/Dictionary.lean ====
section
/-! DEFINITION. The dictionary engine's internal operations (41_lzw_codes.md R140, R141, R149 to R151, R155 to R157): the
rows DICT_INIT, RESOLVE, ALLOC, GROW and TAIL. -/

namespace Sys2Proof.Machine

/-- The dictionary-engine INIT (R140). -/
def dictInit (s : State) : State :=
  { s with nextKey := BitVec.ofNat 13 (s.clear + 2), prevNone := true, prevCode := 0, lastCode := 0, outCount := 0 }

/-- The dictionary seeding (R141). -/
def dictSeed (s : State) : State := { s with dict := Dict.seed s.dict s.clear }

/-- The walk of `resolve` (R150, R151) with the values pushed so far, top first, and the room left on the stack. None is
CORRUPT_CHAIN: (a) an index that is not allocated, (b) no room for the push. Read from the top, the finished stack is the
sequence left to right. -/
def resolveWalk (s : State) : Nat → Code → List Code → Option (List Code)
  | 0, _, _ => none
  | room + 1, c, stack =>
    if s.allocated c.toNat then
      if c.toNat ≤ s.clear then some ((s.entry c.toNat).suf :: stack)
      else resolveWalk s room (s.entry c.toNat).pre ((s.entry c.toNat).suf :: stack)
    else none

/-- `resolve(c0)`: the sequence of dictionary entry `c0`, or none for CORRUPT_CHAIN (R150, R151). -/
def resolve (c : Code) (s : State) : Option (List Code) := resolveWalk s Config.stackCapacity c []

/-- ALLOC (R155): nothing when the dictionary is full. -/
def alloc (s : State) : State :=
  if s.nextKey.toNat < Config.maxEntries then
    { s with dict := Dict.write s.dict s.nextKey.toNat ⟨s.prevCode, s.lastCode⟩, nextKey := s.nextKey + 1 }
  else s

/-- GROW (R156). -/
def grow (s : State) : State :=
  if s.maxVal < s.nextKey.toNat ∧ s.width.toNat < Config.maxWidth then widen s else s

/-- Step 6: ALLOC and, only right after an allocation, GROW (R155 to R157). -/
def allocGrow (s : State) : State :=
  if s.nextKey.toNat < Config.maxEntries then grow (alloc s) else s

/-- TAIL (R157), in the document's step order. A sequence is never empty (R150); were it, `lastCode` would stay. -/
def tail (code : Code) (seq : List Code) (s : State) : Eng Unit :=
  (emitAll seq (allocGrow { s with lastCode := seq.headD s.lastCode })).andThen fun _ s =>
    .go () { s with prevCode := code }

/-! ### The rows -/

/-- DICT_INIT (R140); the seeding is a step of its own (R141, R205, log 14). -/
def execDictInit (s : State) : Host.Outcome State Fault Refusal := .next (dictInit s)

/-- RESOLVE (R150, R151): the sequence is left on the resolve stack, its first element on top (R29, log 11); a failed walk
ends the decode with CORRUPT_CHAIN. -/
def execResolve (c : Code) (s : State) : Host.Outcome State Fault Refusal :=
  match resolve c s with
  | some seq => .next { s with resolveStack := seq }
  | none => .next (terminate .corruptChain s)

/-- ALLOC (R155). -/
def execAlloc (s : State) : Host.Outcome State Fault Refusal := .next (alloc s)

/-- GROW (R156). -/
def execGrow (s : State) : Host.Outcome State Fault Refusal := .next (grow s)

/-- TAIL (R157). -/
def execTail (code : Code) (seq : List Code) (s : State) : Host.Outcome State Fault Refusal := (tail code seq s).outcome

end Sys2Proof.Machine
end

