-- ==== Sys2Proof/Machine/Codes.lean ====
section
/-! DEFINITION. The code operations (41_lzw_codes.md R142 to R148, R152 to R154): the rows INVALID, END, CLEAR, FIRST, KWKWK,
LITERAL, DICT, and DECODE_STEP, which reads a code and runs its class. A code's meaning starts from the state after READ. -/

namespace Sys2Proof.Machine

/-- INVALID (R145). -/
def execInvalid (_code : Code) (s : State) : Host.Outcome State Fault Refusal := .next (terminate .corruptCode s)

/-- END (R146). -/
def execEndCode (s : State) : Host.Outcome State Fault Refusal := .next (terminate .endCode s)

/-- CLEAR (R147). -/
def execClear (s : State) : Host.Outcome State Fault Refusal :=
  .next { resetWidth s with nextKey := BitVec.ofNat 13 (s.clear + 2), prevNone := true }

/-- FIRST (R148). -/
def execFirst (code : Code) (s : State) : Host.Outcome State Fault Refusal :=
  ((emit code s).andThen fun _ s => .go () { s with prevCode := code, lastCode := code, prevNone := false }).outcome

/-- The sequence of a code, then TAIL; a failed walk ends the decode with CORRUPT_CHAIN (R142, R151, R157). -/
def tailOf (code : Code) (seq : Option (List Code)) (s : State) : Eng Unit :=
  match seq with
  | some seq => tail code seq s
  | none => .ended (terminate .corruptChain s)

/-- LITERAL (R152). -/
def execLiteral (code : Code) (s : State) : Host.Outcome State Fault Refusal :=
  (tailOf code (resolve code s) s).outcome

/-- DICT (R153). -/
def execDict (code : Code) (s : State) : Host.Outcome State Fault Refusal :=
  (tailOf code (resolve code s) s).outcome

/-- KWKWK (R154): the previous code's sequence followed by `lastCode`, the value before this code. -/
def execKwkwk (code : Code) (s : State) : Host.Outcome State Fault Refusal :=
  (tailOf code ((resolve s.prevCode s).map (· ++ [s.lastCode])) s).outcome

/-- Run a code by its class (R95, R142). -/
def runClass (c : CodeClass) (code : Code) (s : State) : Host.Outcome State Fault Refusal :=
  match c with
  | .invalid => execInvalid code s
  | .endCode => execEndCode s
  | .clear => execClear s
  | .first => execFirst code s
  | .kwkwk => execKwkwk code s
  | .literal => execLiteral code s
  | .dict => execDict code s

/-- DECODE_STEP (R142 to R144): the pixel-count check, the code read, the class dispatch. -/
def execDecodeStep (s : State) : Host.Outcome State Fault Refusal :=
  if s.pixelCount ≤ s.outCount.toNat then .next (terminate .pixelsDone s)
  else
    match readCode s with
    | .go (some code) s => runClass (classify s.codeCtx code) code s
    | .go none s => .next (terminate .endOfData s)
    | .ended s => .next s
    | .fault f => .fault f

end Sys2Proof.Machine
end

