-- ==== Sys2Proof/Machine/HostCommands.lean ====
section
/-! DEFINITION. The host commands (43_host_commands.md R200 to R217): the rows START, ABORT, CTRL_BOTH, ACK, the register
writes and RD. Bits of a write's data in RES0 fields are ignored (R201). -/

namespace Sys2Proof.Machine

/-! ### START -/

/-- `config_check()` (R204): exact arithmetic, the first failing check gives the cause. -/
def configCheck (s : State) : Option Cause :=
  if Config.maxMincode < s.mincode.toNat then some .cfgMincode
  else if s.dstAddr.getLsbD 0 then some .cfgAlign
  else if Config.busSize < s.srcAddr.toNat + s.srcLen.toNat ∨ Config.busSize < s.dstAddr.toNat + 2 * s.pixelCount then
    some .cfgRange
  else none

/-- JOB_INIT (R205), in order. The engine's access record starts anew with the job (log 12). -/
def jobInit (s : State) : State := { dictSeed (dictInit (bitInit s)) with padPos := 0, busLog := [] }

/-- START's pseudocode (R203). A job whose buffers overlap is refused by the model (R77, log 16). -/
def startJob (s : State) : Host.Outcome State Fault Refusal :=
  if s.phase = .idle then
    let s := { s with done := false, cause := .none, outCount := 0, inPos := 0, codeCount := 0 }
    match configCheck s with
    | some c => .next { s with cause := c, done := true }
    | none => if s.buffersOverlap then .refused .overlappingBuffers else .next { jobInit s with phase := .decode }
  else .next s

/-! ### The rows -/

/-- START (R203). -/
def execStart (_data : Word) (s : State) : Host.Outcome State Fault Refusal := startJob s

/-- ABORT (R206). -/
def execAbort (_data : Word) (s : State) : Host.Outcome State Fault Refusal := .next (abortJob s)

/-- CTRL with both bits (R209): START when idle, ABORT when busy. -/
def execCtrlBoth (_data : Word) (s : State) : Host.Outcome State Fault Refusal :=
  if s.phase = .idle then startJob s else .next (abortJob s)

/-- ACK (R207): W1C on `data[1]`. -/
def execAck (data : Word) (s : State) : Host.Outcome State Fault Refusal :=
  .next (if data.getLsbD 1 then { s with done := false } else s)

/-- WR IRQ_EN (R208), busy or idle. -/
def execWrIrqEn (data : Word) (s : State) : Host.Outcome State Fault Refusal :=
  .next { s with doneIe := data.getLsbD 0 }

/-- A configuration write stores while idle and is ignored while busy (R202). -/
def whenIdle (store : State → State) (s : State) : State := if s.phase = .idle then store s else s

/-- WR CONFIG (R212). -/
def execWrConfig (data : Word) (s : State) : Host.Outcome State Fault Refusal :=
  .next (whenIdle (fun s => { s with mincode := data.extractLsb' 0 8, interlace := data.getLsbD 8 }) s)

/-- WR SRC_ADDR (R213). -/
def execWrSrcAddr (data : Word) (s : State) : Host.Outcome State Fault Refusal :=
  .next (whenIdle (fun s => { s with srcAddr := data }) s)

/-- WR SRC_LEN (R214). -/
def execWrSrcLen (data : Word) (s : State) : Host.Outcome State Fault Refusal :=
  .next (whenIdle (fun s => { s with srcLen := data }) s)

/-- WR DST_ADDR (R215), bit 0 included. -/
def execWrDstAddr (data : Word) (s : State) : Host.Outcome State Fault Refusal :=
  .next (whenIdle (fun s => { s with dstAddr := data }) s)

/-- WR DIM (R216). -/
def execWrDim (data : Word) (s : State) : Host.Outcome State Fault Refusal :=
  .next (whenIdle (fun s => { s with dimWidth := data.extractLsb' 0 16, dimHeight := data.extractLsb' 16 16 }) s)

/-- A write that is ignored, busy or idle (R211; log 13). -/
def execWrIgnored (_offset : Offset) (_data : Word) (s : State) : Host.Outcome State Fault Refusal := .next s

/-- RD (R200): the value goes to the host (log 10); no state of the block is written. -/
def execRd (offset : Offset) (s : State) : Host.Outcome State Fault Refusal :=
  .next { s with readData := s.regValue offset }

end Sys2Proof.Machine
end

