-- ==== Sys2Proof/Machine/Dispatch.lean ====
section
/-! DEFINITION. One arm per row of spec/opcode_table.json. -/

namespace Sys2Proof.Machine

/-- The meaning of an instruction. -/
def exec (i : Instr) (s : State) : Host.Outcome State Fault Refusal :=
  match i with
  -- code classes
  | .invalid code => Sys2Proof.Machine.execInvalid code s
  | .endCode => Sys2Proof.Machine.execEndCode s
  | .clear => Sys2Proof.Machine.execClear s
  | .first code => Sys2Proof.Machine.execFirst code s
  | .kwkwk code => Sys2Proof.Machine.execKwkwk code s
  | .literal code => Sys2Proof.Machine.execLiteral code s
  | .dict code => Sys2Proof.Machine.execDict code s
  -- host commands
  | .start data => Sys2Proof.Machine.execStart data s
  | .abort data => Sys2Proof.Machine.execAbort data s
  | .ctrlBoth data => Sys2Proof.Machine.execCtrlBoth data s
  | .ack data => Sys2Proof.Machine.execAck data s
  | .wrIrqEn data => Sys2Proof.Machine.execWrIrqEn data s
  | .wrConfig data => Sys2Proof.Machine.execWrConfig data s
  | .wrSrcAddr data => Sys2Proof.Machine.execWrSrcAddr data s
  | .wrSrcLen data => Sys2Proof.Machine.execWrSrcLen data s
  | .wrDstAddr data => Sys2Proof.Machine.execWrDstAddr data s
  | .wrDim data => Sys2Proof.Machine.execWrDim data s
  | .wrIgnored offset data => Sys2Proof.Machine.execWrIgnored offset data s
  | .rd offset => Sys2Proof.Machine.execRd offset s
  -- internal operations
  | .brInit => Sys2Proof.Machine.execBrInit s
  | .brResetWidth => Sys2Proof.Machine.execBrResetWidth s
  | .brWiden => Sys2Proof.Machine.execBrWiden s
  | .brMaxval => Sys2Proof.Machine.execBrMaxval s
  | .brRead => Sys2Proof.Machine.execBrRead s
  | .dictInit => Sys2Proof.Machine.execDictInit s
  | .decodeStep => Sys2Proof.Machine.execDecodeStep s
  | .resolve code => Sys2Proof.Machine.execResolve code s
  | .alloc => Sys2Proof.Machine.execAlloc s
  | .grow => Sys2Proof.Machine.execGrow s
  | .tail code seq => Sys2Proof.Machine.execTail code seq s
  | .emit value => Sys2Proof.Machine.execEmit value s
  | .padStep => Sys2Proof.Machine.execPadStep s

end Sys2Proof.Machine
end

