-- ==== Sys2Proof/Machine/Schedule.lean ====
section
/-! DEFINITION. The scheduler (70_reset_and_hazards.md R280, R291 to R293): which turn a step takes, how a turn is fetched
and decoded, the host's accesses to bus memory (20_memory.md R76, R80), and how one encoded instruction is placed where the
next step runs it. -/

namespace Sys2Proof.Machine

/-- The engine's step in a phase (R292): none in IDLE. -/
def engineInstr : Phase → Option Instr
  | .idle => none
  | .decode => some .decodeStep
  | .pad => some .padStep

/-- An engine turn; in IDLE nothing happens (R265, R292). -/
def engineTurn (s : State) : Host.Outcome State Fault Refusal :=
  match engineInstr s.phase with
  | some i => exec i s
  | none => .next s

/-- A host register access: decoded, then run; any other access is refused (R66, R99). -/
def hostTurn (a : HostAccess) (s : State) : Host.Outcome State Fault Refusal :=
  match decodeAccess s.platform.blockBase a with
  | .ok i => exec i s
  | .rejected _ => .refused .regAccessOther

/-- The host writes one byte of bus memory; while a job runs, a write to either buffer is refused (R76, R80, U3). -/
def memStoreTurn (a : Word) (b : Byte) (s : State) : Host.Outcome State Fault Refusal :=
  if s.busy && (s.inPayload a.toNat || s.inOutput a.toNat) then .refused .busyBufferWrite
  else .next { s with memory := s.memory.write a.toNat b }

/-- The host reads one byte of bus memory; while a job runs, a read of the output buffer has any value (R76, U2, log 8). -/
def memLoadTurn (a : Word) (s : State) : Host.Outcome State Fault Refusal :=
  if s.busy && s.inOutput a.toNat then
    .next { s with readData := (Config.busyRead s.draws).setWidth 32, draws := s.draws + 1 }
  else .next { s with readData := (s.memory.read a.toNat).setWidth 32 }

/-- One scheduler choice, an atomic transition (R20). -/
def takeTurn (t : Turn) (s : State) : Host.Outcome State Fault Refusal :=
  match t with
  | .engine => engineTurn s
  | .host a => hostTurn a s
  | .memStore a b => memStoreTurn a b s
  | .memLoad a => memLoadTurn a s
  | .reset => .next (resetBlock s)

/-- The next transition: the oldest turn of the schedule, or the engine's when none is left (R293, log 1). -/
def nextTransition (s : State) : Host.Outcome State Fault Refusal :=
  match s.schedule with
  | [] => engineTurn s
  | t :: rest => takeTurn t { s with schedule := rest }

/-! ### Placing an instruction (log 2) -/

/-- A host access at a register of the block is put at the head of the schedule. -/
def placeAccess (write : Bool) (offset : Nat) (data : Word) (s : State) : State :=
  { s with schedule := .host ⟨write, 4, s.platform.blockBase + BitVec.ofNat 32 offset, data⟩ :: s.schedule }

/-- A running job in the context the opcode table names (`m = 2` after CLEAR), whose payload is the given two bytes and
whose frame is one pixel, with the engine's turn next. -/
def placeCode (bits : Nat) (s : State) : State :=
  { jobInit { s with mincode := 2, interlace := false, srcAddr := 0x2000, srcLen := 2, dstAddr := 0x1000,
                     dimWidth := 1, dimHeight := 1 } with
    phase := .decode
    cause := .none
    done := false
    memory := (s.memory.write 0x2000 (BitVec.ofNat 8 bits)).write 0x2001 (BitVec.ofNat 8 (bits / 256))
    schedule := .engine :: s.schedule }

/-- A table word of `nbits` bits laid out as `parseFrame` reads it, placed where the next step runs it. -/
def placeWord (nbits w : Nat) (s : State) : State :=
  match nbits / 8 with
  | 1 => placeAccess false (w % 256) 0 s
  | 2 => placeCode w s
  | 5 => placeAccess true (w % 256) (BitVec.ofNat 32 (w / 256)) s
  | _ => s

end Sys2Proof.Machine
end

