-- ==== Sys2Proof/Safety.lean ====
section
/-! DEFINITION. What the claims are stated in: the payload as a bit stream (20_memory.md R62), the engine's accesses in order
(R73, R83), the invariants between transitions (10_state.md R52 and the rules they rest on), and sequences of reads
(40_bitreader.md R130). -/

namespace Sys2Proof.Machine

/-! ### The payload as a bit stream -/

/-- Stream bit `8k + j` is bit `j` of payload byte `B[k]`, the byte at `srcAddr + k` (R62). -/
def State.streamBit (s : State) (i : Nat) : Bool := (s.memory.read (s.srcAddr.toNat + i / 8)).getLsbD (i % 8)

/-- The value of the `w` stream bits from position `pos`, the earliest bit least significant (R62). -/
def State.streamValue (s : State) (pos : Nat) : Nat → Nat
  | 0 => 0
  | w + 1 => (s.streamBit pos).toNat + 2 * s.streamValue (pos + 1) w

/-- Read codes of the given widths one after the other (R130). -/
def readSeq : List Nat → State → Option (List Code)
  | [], _ => some []
  | w :: ws, s =>
    match readCode { s with width := BitVec.ofNat 4 w } with
    | .go (some c) t => (readSeq ws t).map (c :: ·)
    | .go none _ | .ended _ | .fault _ => none

/-! ### The engine's accesses -/

/-- The payload addresses a completed engine read went to, oldest first. -/
def State.readsMade (s : State) : List Nat :=
  s.busLog.filterMap fun e =>
    match e with
    | .read a => some a
    | .write _ _ | .readRefused _ | .writeRefused _ _ => none

/-- The completed engine writes, oldest first. -/
def State.writesMade (s : State) : List (Nat × Half) :=
  s.busLog.filterMap fun e =>
    match e with
    | .write a v => some (a, v)
    | .read _ | .readRefused _ | .writeRefused _ _ => none

/-- How many arrival positions have been written: decoded ones (R180) and, in PAD, padded ones (R185). -/
def State.arrived (s : State) : Nat := if s.phase = .pad then s.padPos.toNat else s.outCount.toNat

/-! ### What a sequence of codes leaves -/

/-- The payload lies in the bus space and every byte of it can be read (R64, R71). -/
structure State.Readable (s : State) : Prop where
  sourceFits : s.srcAddr.toNat + s.srcLen.toNat ≤ Config.busSize
  admitted : ∀ k, k < s.srcLen.toNat → s.platform.admits (s.srcAddr.toNat + k) 1 .read = true

/-- The output lies in the bus space and every element of it can be written (R65, R71). -/
structure State.Writable (s : State) : Prop where
  outputFits : s.dstAddr.toNat + 2 * s.pixelCount ≤ Config.busSize
  admitted : ∀ j, j < s.pixelCount → s.platform.admits (s.destAddr j) 2 .write = true

/-- Byte `a` belongs to none of the output elements of the arrival positions `lo..hi-1` below `N`. -/
def State.outside (s : State) (lo hi a : Nat) : Prop :=
  ∀ j, lo ≤ j → j < hi → j < s.pixelCount → a ≠ s.destAddr j ∧ a ≠ s.destAddr j + 1

/-- What emitting `seq` leaves (R180, R187, R189): the elements below `N` in order at their places, `P` advanced up to
`N`, every other byte of memory as before. -/
structure State.Emitted (s t : State) (seq : List Code) : Prop where
  count : t.outCount.toNat = min s.pixelCount (s.outCount.toNat + seq.length)
  elements : ∀ k v, seq[k]? = some v → s.outCount.toNat + k < s.pixelCount →
    t.memory.readHalf (s.destAddr (s.outCount.toNat + k)) = v.setWidth 16
  otherBytes : ∀ a, s.outside s.outCount.toNat (s.outCount.toNat + seq.length) a → t.memory.read a = s.memory.read a

/-- What step 6 leaves (R155, R156), with `first` the first index of the current sequence. -/
structure State.SteppedSix (s t : State) (first : Code) : Prop where
  nextKey : t.nextKey.toNat = if s.nextKey.toNat < Config.maxEntries then s.nextKey.toNat + 1 else s.nextKey.toNat
  newEntry : s.nextKey.toNat < Config.maxEntries → t.entry s.nextKey.toNat = ⟨s.prevCode, first⟩
  otherEntries : ∀ i, s.nextKey.toNat < Config.maxEntries → i ≠ s.nextKey.toNat → t.entry i = s.entry i
  fullEntries : ∀ i, Config.maxEntries ≤ s.nextKey.toNat → t.entry i = s.entry i
  width : t.width.toNat =
    if s.nextKey.toNat < Config.maxEntries ∧ 2 ^ s.width.toNat ≤ s.nextKey.toNat + 1 ∧ s.width.toNat < Config.maxWidth
    then s.width.toNat + 1 else s.width.toNat

/-- What TAIL leaves (R157), every field named that may differ. -/
structure State.Tailed (s t : State) (code first : Code) (rest : List Code) : Prop where
  frame : t = { s with
    lastCode := first, prevCode := code, dict := t.dict, nextKey := t.nextKey, width := t.width, memory := t.memory,
    busLog := t.busLog, outCount := t.outCount }
  six : s.SteppedSix t first
  output : s.Emitted t (first :: rest)

/-- The bus takes the output elements of the arrival positions `P..P+k-1` and refuses that of `P+k`, which is below `N`
(R65, R71). -/
structure State.RefusesAfter (s : State) (k : Nat) : Prop where
  outputFits : s.dstAddr.toNat + 2 * s.pixelCount ≤ Config.busSize
  room : s.outCount.toNat + k < s.pixelCount
  admitted : ∀ j, s.outCount.toNat ≤ j → j < s.outCount.toNat + k → s.platform.admits (s.destAddr j) 2 .write = true
  refused : s.platform.admits (s.destAddr (s.outCount.toNat + k)) 2 .write = false

/-- What TAIL leaves when a write of its sequence is refused (R157, R191, R253, R267): step 6 stands, the elements before the
refused one are written and counted, `prevCode` stays and the job has ended. -/
structure State.CutShort (s t : State) (first : Code) (written : List Code) : Prop where
  frame : t = { s with
    phase := .idle, cause := .busError, done := true, lastCode := first, dict := t.dict, nextKey := t.nextKey,
    width := t.width, memory := t.memory, busLog := t.busLog, outCount := t.outCount }
  six : s.SteppedSix t first
  output : s.Emitted t written

/-! ### Chains of the dictionary -/

/-- Following prefix links from index `c`, past the literals, one comes to index `d` (R150, R160). -/
inductive State.Reaches (s : State) : Code → Code → Prop where
  | here (c : Code) : s.Reaches c c
  | link {c d : Code} : s.clear + 2 ≤ c.toNat → s.Reaches (s.entry c.toNat).pre d → s.Reaches c d

/-! ### Invariants -/

/-- The configuration START accepts (R204) and the model does not refuse (R77). -/
structure State.ConfigOk (s : State) : Prop where
  mincode : s.m ≤ Config.maxMincode
  aligned : s.dstAddr.toNat % 2 = 0
  sourceFits : s.srcAddr.toNat + s.srcLen.toNat ≤ Config.busSize
  outputFits : s.dstAddr.toNat + 2 * s.pixelCount ≤ Config.busSize
  disjoint : s.buffersOverlap = false

/-- The bit-unpacker's invariant (R24, R52 items 1 and 3 to 5, R128): the cache holds the stream bits from `bitPos` on. -/
structure State.UnpackerInv (s : State) : Prop where
  widthLow : s.m + 1 ≤ s.width.toNat
  widthHigh : s.width.toNat ≤ Config.maxWidth
  cacheBound : s.cache.toNat < 2 ^ s.bitCount.toNat
  bitsLow : s.cause ≠ .endOfData → s.bitCount.toNat ≤ 7
  bitsAtEnd : s.cause = .endOfData → s.bitCount.toNat < s.width.toNat
  pulled : s.inPos.toNat ≤ s.srcLen.toNat
  pulledEnough : s.bitCount.toNat ≤ 8 * s.inPos.toNat
  cacheIsStream : ∀ t, t < s.bitCount.toNat → s.cache.getLsbD t = s.streamBit (s.bitPos + t)

/-- The dictionary engine's invariant (R52 items 2 and 7, R141, R149, R155, R156, R160, R161). -/
structure State.DictInv (s : State) : Prop where
  nextKeyLow : s.clear + 2 ≤ s.nextKey.toNat
  nextKeyHigh : s.nextKey.toNat ≤ Config.maxEntries
  seeded : ∀ i, i < s.clear → s.entry i = ⟨0, BitVec.ofNat 12 i⟩
  linkLow : ∀ i, s.clear + 2 ≤ i → i < s.nextKey.toNat → (s.entry i).pre.toNat ≤ i
  linkSelf : ∀ i, s.clear + 2 ≤ i → i < s.nextKey.toNat → (s.entry i).pre.toNat = i → i = s.clear + 2
  linkKind : ∀ i, s.clear + 2 ≤ i → i < s.nextKey.toNat →
    (s.entry i).pre.toNat < s.clear ∨ s.clear + 2 ≤ (s.entry i).pre.toNat
  sufLow : ∀ i, s.clear + 2 ≤ i → i < s.nextKey.toNat → (s.entry i).suf.toNat < s.clear
  prev : s.prevNone = false → s.prevCode.toNat < s.clear
    ∨ (s.clear + 2 ≤ s.prevCode.toNat ∧ s.prevCode.toNat < s.nextKey.toNat)
    ∨ (s.prevCode.toNat = s.clear + 2 ∧ s.nextKey.toNat = s.clear + 2)
  last : s.prevNone = false → s.lastCode.toNat < s.clear
    ∨ (s.prevCode.toNat = s.clear + 2 ∧ s.nextKey.toNat = s.clear + 2)
  fresh : s.prevNone = true → s.nextKey.toNat = s.clear + 2
  widthKey : s.width.toNat = Config.maxWidth ∨ s.nextKey.toNat < 2 ^ s.width.toNat
    ∨ (s.m ≤ 1 ∧ s.nextKey.toNat = s.clear + 2) ∨ (s.m = 0 ∧ s.nextKey.toNat = 4 ∧ s.width.toNat = 2)

/-- The output writer's invariant (R52 item 6, R82, R161, R180, R185, R190): the engine has read the payload bytes
`0..inPos-1` in order and written the arrival positions in order, each at its place, and every element written still
stands in memory; the padded ones are 0. -/
structure State.OutputInv (s : State) : Prop where
  countBound : s.outCount.toNat ≤ s.pixelCount
  padLow : s.phase = .pad → s.outCount.toNat ≤ s.padPos.toNat
  padHigh : s.phase = .pad → s.padPos.toNat ≤ s.pixelCount
  reads : s.readsMade = (List.range s.inPos.toNat).map (s.srcAddr.toNat + ·)
  writes : s.writesMade.map Prod.fst = (List.range s.arrived).map s.destAddr
  landed : ∀ j, j < s.arrived → (s.writesMade[j]?).map Prod.snd = some (s.memory.readHalf (s.destAddr j))
  values : ∀ j, j < s.outCount.toNat →
    (s.memory.readHalf (s.destAddr j)).toNat < s.clear ∨ (s.memory.readHalf (s.destAddr j)).toNat = s.clear + 2
  zeros : ∀ j, s.outCount.toNat ≤ j → j < s.arrived → s.memory.readHalf (s.destAddr j) = 0

/-- What holds between transitions while a job runs. -/
structure State.JobInv (s : State) : Prop where
  config : s.ConfigOk
  unpacker : s.UnpackerInv
  dictionary : s.DictInv
  output : s.OutputInv
  notDone : s.done = false
  decodeCause : s.phase = .decode → s.cause = .none
  padCause : s.phase = .pad → s.cause.pads = true

/-- What holds between any two transitions: memory and dictionary in canonical form, the resolve stack empty (R29), and
the job's invariant while one runs. -/
structure State.Inv (s : State) : Prop where
  memory : s.memory.wf
  dictForm : s.dict.wf
  stack : s.resolveStack = []
  job : s.phase ≠ .idle → s.JobInv

/-! ### Runs -/

/-- `n` engine turns one after the other (R292). -/
def engineRun : Nat → State → Host.Outcome State Fault Refusal
  | 0, s => .next s
  | n + 1, s =>
    match engineTurn s with
    | .next t => engineRun n t
    | .fault f => .fault f
    | .refused r => .refused r

/-- What the host can learn of a job, and the memory: all but the dictionary's unallocated entries and the fields the job
does not use (R162). -/
def State.jobView (s : State) : Phase × Cause × Bool × Word × Word × Word × Memory :=
  (s.phase, s.cause, s.done, s.outCount, s.inPos, s.codeCount, s.memory)

/-! ### Safe runs -/

/-- A step that does not fault: it goes on, or the model refuses a turn the spec excludes. -/
def State.safe (s : State) : Prop := ∀ f, step s ≠ .fault f

/-- The job has ended. -/
def State.jobOver (s : State) : Prop := s.phase = .idle ∧ s.done = true

end Sys2Proof.Machine
end

