-- ==== Sys2Proof/Certificates/Slice0/Obligations.lean ====
section
/-! DEFINITION. The statements for the provers, one per entry of OBLIGATIONS.json. -/

open Sys2Proof Sys2Proof.Machine

/-! ### Encoding (30_encoding.md) -/

/-- R90 to R101: decoding the encoding of a well-formed instruction gives it back; an internal operation has none. -/
def Obligations.DecodeUndoesEncode : Prop :=
  ∀ (ctx : CodeCtx) (i : Instr), i.wf ctx = true →
    (i.isInternal = true → encode ctx i = none) ∧
    (i.isInternal = false → ∃ e, encode ctx i = some e ∧ decode ctx e = .ok i)

/-- R90 to R101, the other direction: what the decoder reads is well formed and encodes back to the words it was read
from. -/
def Obligations.EncodeUndoesDecode : Prop :=
  ∀ (ctx : CodeCtx) (e : Encoding) (i : Instr), decode ctx e = .ok i → i.wf ctx = true ∧ encode ctx i = some e

/-- R95: every code selects exactly one of the seven classes, by the conditions of the table. That `nextKey` is at least
`CLEAR + 2` is R26. -/
def Obligations.CodesSelectOneClass : Prop :=
  ∀ (ctx : CodeCtx) (c : Code), ctx.clear + 2 ≤ ctx.nextKey →
    (decodeCode ctx c = .invalid c ↔ ctx.nextKey < c.toNat) ∧
    (decodeCode ctx c = .endCode ↔ c.toNat = ctx.endCode) ∧
    (decodeCode ctx c = .clear ↔ c.toNat = ctx.clear) ∧
    (decodeCode ctx c = .first c ↔
      ctx.prevNone = true ∧ c.toNat ≤ ctx.nextKey ∧ c.toNat ≠ ctx.endCode ∧ c.toNat ≠ ctx.clear) ∧
    (decodeCode ctx c = .kwkwk c ↔ ctx.prevNone = false ∧ c.toNat = ctx.nextKey) ∧
    (decodeCode ctx c = .literal c ↔ ctx.prevNone = false ∧ c.toNat < ctx.clear) ∧
    (decodeCode ctx c = .dict c ↔ ctx.prevNone = false ∧ ctx.clear + 2 ≤ c.toNat ∧ c.toNat < ctx.nextKey) ∧
    decodeCode ctx c ∈ [Instr.invalid c, .endCode, .clear, .first c, .kwkwk c, .literal c, .dict c]

/-- R96, R98, R158: in a running job a FIRST code is a literal or `CLEAR + 2`; once the dictionary is full the width is 12
and no code is INVALID or KWKWK. -/
def Obligations.ClassesInARunningJob : Prop :=
  ∀ (s : State) (c : Code), s.Inv → s.phase ≠ .idle →
    (decodeCode s.codeCtx c = .first c → c.toNat < s.clear ∨ c.toNat = s.clear + 2) ∧
    (s.nextKey.toNat = 4096 →
      s.width.toNat = 12 ∧ decodeCode s.codeCtx c ≠ .invalid c ∧ decodeCode s.codeCtx c ≠ .kwkwk c)

/-- R91 and R99 to R101 on words written out from the spec: the codes of the bytes 5C 01 at `m = 2`, four host writes and a
read. The byte frames of the host words, and the context the codes are read in, are the model's layout (log 2). -/
def Obligations.SpecWordsDecode : Prop :=
  leNat [0x5C, 0x01] = packCodes [(4, 3), (3, 3), (5, 3)] ∧
  decode tableCtx (.code 3 4) = .ok .clear ∧
  decode tableCtx (.code 3 3) = .ok (.first 3) ∧
  decode tableCtx (.code 3 5) = .ok .endCode ∧
  decode tableCtx (.code 3 7) = .ok (.invalid 7) ∧
  decodeBytes [0x00, 0x01, 0x00, 0x00, 0x00] = .ok (.start 0x1) ∧
  decodeBytes [0x00, 0x02, 0x00, 0x00, 0x00] = .ok (.abort 0x2) ∧
  decodeBytes [0x04, 0x02, 0x00, 0x00, 0x00] = .ok (.ack 0x2) ∧
  decodeBytes [0x0C, 0x08, 0x01, 0x00, 0x00] = .ok (.wrConfig 0x108) ∧
  decodeBytes [0x34] = .ok (.rd 0x34)

/-- R66, R99, R200: a host access to the register block is refused unless it is a 32-bit access at a multiple of 4 within the 64
bytes; such an access always decodes, a read to RD of its offset. That an address outside the 64 bytes is refused wherever it lies,
with no size of the platform's decode window, is the model's (log 23). -/
def Obligations.OnlyAlignedWordAccessesDecode : Prop :=
  ∀ (s : State) (a : HostAccess),
    let off := a.addr.toNat - s.platform.blockBase.toNat
    ((a.size = 4 ∧ s.platform.blockBase.toNat ≤ a.addr.toNat ∧ off < 64 ∧ off % 4 = 0) →
      ∃ i, decodeAccess s.platform.blockBase a = .ok i ∧ (a.write = false → i = .rd (BitVec.ofNat 8 off))) ∧
    (¬ (a.size = 4 ∧ s.platform.blockBase.toNat ≤ a.addr.toNat ∧ off < 64 ∧ off % 4 = 0) →
      hostTurn a s = .refused .regAccessOther)

/-! ### Host commands (43_host_commands.md) -/

/-- R202, R212 to R216: a configuration write stores its fields while idle and changes nothing while busy. -/
def Obligations.ConfigurationWritesStoreOnlyWhenIdle : Prop :=
  ∀ (s : State) (d : Word),
    (s.phase = .idle →
      exec (.wrConfig d) s = .next { s with mincode := d.extractLsb' 0 8, interlace := d.getLsbD 8 } ∧
      exec (.wrSrcAddr d) s = .next { s with srcAddr := d } ∧
      exec (.wrSrcLen d) s = .next { s with srcLen := d } ∧
      exec (.wrDstAddr d) s = .next { s with dstAddr := d } ∧
      exec (.wrDim d) s = .next { s with dimWidth := d.extractLsb' 0 16, dimHeight := d.extractLsb' 16 16 }) ∧
    (s.phase ≠ .idle →
      exec (.wrConfig d) s = .next s ∧ exec (.wrSrcAddr d) s = .next s ∧ exec (.wrSrcLen d) s = .next s ∧
      exec (.wrDstAddr d) s = .next s ∧ exec (.wrDim d) s = .next s)

/-- R211: a write to CAUSE, OUT_COUNT, IN_COUNT, CODE_COUNT, DBG_DICT, DBG_PREV, DBG_BITS or offset 0x3C changes nothing,
busy or idle. -/
def Obligations.ReadOnlyRegisterWritesAreIgnored : Prop :=
  ∀ (s : State) (o : Offset) (d : Word),
    o ∈ [(0x08 : Offset), 0x24, 0x28, 0x2C, 0x30, 0x34, 0x38, 0x3C] →
    decodeWrite o d = .ok (.wrIgnored o d) ∧ exec (.wrIgnored o d) s = .next s

/-- R208, R51: WR IRQ_EN writes DONE_IE at any time, and `irq` is DONE_IE and DONE. -/
def Obligations.InterruptEnableAndOutput : Prop :=
  ∀ (s : State) (d : Word),
    exec (.wrIrqEn d) s = .next { s with doneIe := d.getLsbD 0 } ∧
    (s.irq = true ↔ s.doneIe = true ∧ s.done = true)

/-- R207: ACK clears DONE and nothing else, so in a running job, where DONE is 0, it has no effect. A STATUS write without
bit 1 changes nothing; the model decodes it as WR_IGNORED (log 13). -/
def Obligations.AckClearsDone : Prop :=
  ∀ (s : State) (d : Word),
    (d.getLsbD 1 = true → decodeWrite 0x04 d = .ok (.ack d) ∧ exec (.ack d) s = .next { s with done := false }) ∧
    (s.Inv → s.phase ≠ .idle → exec (.ack d) s = .next s) ∧
    (d.getLsbD 1 = false →
      exec (.ack d) s = .next s ∧ decodeWrite 0x04 d = .ok (.wrIgnored 0x04 d) ∧ exec (.wrIgnored 0x04 d) s = .next s)

/-- R206, R294: ABORT ends a running job with cause ABORTED and does nothing while idle. -/
def Obligations.AbortEndsARunningJob : Prop :=
  ∀ (s : State) (d : Word),
    (s.phase ≠ .idle → exec (.abort d) s = .next { s with phase := .idle, cause := .aborted, done := true }) ∧
    (s.phase = .idle → exec (.abort d) s = .next s)

/-- R209, R100: a CTRL write decodes by its two low bits. `11` acts as START while idle and as ABORT while busy; `01` is
ignored while busy and `10` while idle; `00` has no effect, and the model decodes it as WR_IGNORED (log 13). -/
def Obligations.CtrlWriteByItsTwoBits : Prop :=
  ∀ (s : State) (d : Word),
    (d.getLsbD 0 = true → d.getLsbD 1 = true → decodeWrite 0x00 d = .ok (.ctrlBoth d)) ∧
    (d.getLsbD 0 = true → d.getLsbD 1 = false → decodeWrite 0x00 d = .ok (.start d)) ∧
    (d.getLsbD 0 = false → d.getLsbD 1 = true → decodeWrite 0x00 d = .ok (.abort d)) ∧
    (d.getLsbD 0 = false → d.getLsbD 1 = false →
      decodeWrite 0x00 d = .ok (.wrIgnored 0x00 d) ∧ exec (.wrIgnored 0x00 d) s = .next s) ∧
    (s.phase = .idle → exec (.ctrlBoth d) s = exec (.start d) s ∧ exec (.abort d) s = .next s) ∧
    (s.phase ≠ .idle →
      exec (.ctrlBoth d) s = exec (.abort d) s ∧
      exec (.abort d) s = .next { s with phase := .idle, cause := .aborted, done := true } ∧
      exec (.start d) s = .next s)

/-- R203, R204, R252: a START that fails a check completes at once with the first failing check's cause; it zeroes the
three counts and sets DONE, and changes nothing else. -/
def Obligations.StartRefusedByTheFirstFailingCheck : Prop :=
  ∀ (s : State) (d : Word), s.phase = .idle →
    let refused := fun c : Cause =>
      Host.Outcome.next { s with done := true, cause := c, outCount := 0, inPos := 0, codeCount := 0 }
    let badMincode := 11 < s.mincode.toNat
    let badAlign := s.dstAddr.toNat % 2 = 1
    let badRange := 2 ^ 32 < s.srcAddr.toNat + s.srcLen.toNat ∨ 2 ^ 32 < s.dstAddr.toNat + 2 * s.pixelCount
    (badMincode → exec (.start d) s = refused .cfgMincode) ∧
    (¬ badMincode → badAlign → exec (.start d) s = refused .cfgAlign) ∧
    (¬ badMincode → ¬ badAlign → badRange → exec (.start d) s = refused .cfgRange)

/-- R203, R205, R120, R140, R141: a START whose checks pass starts the job: every field JOB_INIT sets, the dictionary
seeded below `CLEAR` and kept above, everything else as before. Both START and CTRL_BOTH while idle. That the buffers do
not overlap is R77; `busLog` is the model's own (log 12). -/
def Obligations.AcceptedStartInitialisesTheJob : Prop :=
  ∀ (s : State) (d : Word), s.phase = .idle → s.mincode.toNat ≤ 11 → s.dstAddr.toNat % 2 = 0 →
    s.srcAddr.toNat + s.srcLen.toNat ≤ 2 ^ 32 → s.dstAddr.toNat + 2 * s.pixelCount ≤ 2 ^ 32 →
    s.buffersOverlap = false →
    ∃ t, exec (.start d) s = .next t ∧ exec (.ctrlBoth d) s = .next t ∧
      t = { s with
        phase := .decode, cause := .none, done := false, cache := 0, bitCount := 0, inPos := 0, width := t.width,
        codeCount := 0, nextKey := t.nextKey, prevNone := true, prevCode := 0, lastCode := 0, outCount := 0, padPos := 0,
        dict := t.dict, busLog := [] } ∧
      t.width.toNat = s.m + 1 ∧ t.nextKey.toNat = s.clear + 2 ∧
      (∀ i, i < s.clear → t.entry i = ⟨0, BitVec.ofNat 12 i⟩) ∧
      (∀ i, s.clear ≤ i → t.entry i = s.entry i)

/-- R77: a START whose checks pass but whose payload and output buffers share a byte is refused by the model; the rule
asks for this refusal (log 16). -/
def Obligations.OverlappingBuffersAreRefused : Prop :=
  ∀ (s : State) (d : Word) (a : Nat), s.phase = .idle → s.mincode.toNat ≤ 11 → s.dstAddr.toNat % 2 = 0 →
    s.srcAddr.toNat + s.srcLen.toNat ≤ 2 ^ 32 → s.dstAddr.toNat + 2 * s.pixelCount ≤ 2 ^ 32 →
    s.srcAddr.toNat ≤ a → a < s.srcAddr.toNat + s.srcLen.toNat →
    s.dstAddr.toNat ≤ a → a < s.dstAddr.toNat + 2 * s.pixelCount →
    exec (.start d) s = .refused .overlappingBuffers

/-- R200, R35 to R49: a read of every register returns its fields, RES0 bits 0, and changes no state of the block; the word
goes to the model's read latch (log 10). -/
def Obligations.RegisterReadsReturnTheirFields : Prop :=
  ∀ (s : State), ∃ v : Offset → Word,
    (∀ o, exec (.rd o) s = .next { s with readData := v o }) ∧
    v 0x00 = 0 ∧
    (v 0x04).toNat = (if s.phase = .idle then 0 else 1) + 2 * s.done.toNat + 4 * s.err.toNat ∧
    (v 0x08).toNat = s.cause.code.toNat ∧
    (v 0x0C).toNat = s.mincode.toNat + 256 * s.interlace.toNat ∧
    (v 0x10).toNat = s.doneIe.toNat ∧
    v 0x14 = s.srcAddr ∧ v 0x18 = s.srcLen ∧ v 0x1C = s.dstAddr ∧
    (v 0x20).toNat = s.dimWidth.toNat + 65536 * s.dimHeight.toNat ∧
    v 0x24 = s.outCount ∧ v 0x28 = s.inPos ∧ v 0x2C = s.codeCount ∧
    (v 0x30).toNat = s.nextKey.toNat + 65536 * s.width.toNat ∧
    (v 0x34).toNat = s.prevCode.toNat + 65536 * s.lastCode.toNat + 2 ^ 31 * s.prevNone.toNat ∧
    (v 0x38).toNat = s.cache.toNat + 2 ^ 24 * s.bitCount.toNat ∧
    v 0x3C = 0

/-- R50, R251: STATUS.ERR is a function of the cause, and the cause codes are those of the table. -/
def Obligations.ErrorFlagFollowsTheCause : Prop :=
  ∀ (s : State),
    (s.err = true ↔ 3 ≤ s.cause.code.toNat) ∧
    (s.err = true ↔ s.cause ∈ [Cause.endOfData, .corruptCode, .corruptChain, .aborted, .busError, .cfgMincode, .cfgAlign,
      .cfgRange]) ∧
    [Cause.none, .pixelsDone, .endCode, .endOfData, .corruptCode, .corruptChain, .aborted, .busError, .cfgMincode,
      .cfgAlign, .cfgRange].map (fun c => c.code.toNat) = List.range 11

/-! ### The bit-unpacker (40_bitreader.md) -/

/-- R120 to R123, R128: INIT, RESETWIDTH, WIDEN and MAXVAL: the fields each writes and the value MAXVAL returns, in the
model's result latch (log 11). For `m` accepted at START, and WIDEN below width 12, as the rules say they are invoked. -/
def Obligations.UnpackerWidthOperations : Prop :=
  ∀ (s : State), s.m ≤ 11 →
    (∃ w, w.toNat = s.m + 1 ∧
      exec .brInit s = .next { s with cache := 0, bitCount := 0, inPos := 0, width := w, codeCount := 0 } ∧
      exec .brResetWidth s = .next { s with width := w }) ∧
    (s.width.toNat < 12 → ∃ w, w.toNat = s.width.toNat + 1 ∧ exec .brWiden s = .next { s with width := w }) ∧
    exec .brMaxval s = .next { s with opResult := .maxVal (2 ^ s.width.toNat - 1) }

/-- R62, R124, R125, R33: when the payload still holds a whole code and can be read, READ returns the value of the `width`
stream bits at the stream position, advances it by `width`, counts the code, and changes nothing but the unpacker (and the
model's record and latch, logs 11 and 12). `UnpackerInv` is R52's. -/
def Obligations.ReadReturnsTheNextStreamBits : Prop :=
  ∀ (s : State), s.UnpackerInv → s.cause ≠ .endOfData → s.Readable →
    s.bitPos + s.width.toNat ≤ 8 * s.srcLen.toNat →
    ∃ t c, exec .brRead s = .next t ∧ t.opResult = .code c ∧
      c.toNat = s.streamValue s.bitPos s.width.toNat ∧
      t.bitPos = s.bitPos + s.width.toNat ∧
      t.bitCount.toNat ≤ 7 ∧ t.inPos.toNat = max s.inPos.toNat ((s.bitPos + s.width.toNat + 7) / 8) ∧
      t.UnpackerInv ∧
      t = { s with
        cache := t.cache, bitCount := t.bitCount, inPos := t.inPos, codeCount := s.codeCount + 1, busLog := t.busLog,
        opResult := t.opResult }

/-- R126, R33: when the payload does not hold a whole code, READ meets EndOfData: every byte has been pulled, the bits
pulled stay, and no code is counted. -/
def Obligations.ReadMeetsTheEndOfThePayload : Prop :=
  ∀ (s : State), s.UnpackerInv → s.cause ≠ .endOfData → s.Readable →
    8 * s.srcLen.toNat < s.bitPos + s.width.toNat →
    ∃ t, exec .brRead s = .next t ∧ t.opResult = .endOfData ∧
      t.inPos = s.srcLen ∧ t.bitPos = s.bitPos ∧ t.bitCount.toNat < s.width.toNat ∧
      (∀ k, k < t.bitCount.toNat → t.cache.getLsbD k = s.streamBit (s.bitPos + k)) ∧
      t = { s with
        cache := t.cache, bitCount := t.bitCount, inPos := t.inPos, busLog := t.busLog, opResult := t.opResult }

/-- R127, R64, R253, R267: when a byte READ needs is not admitted, after `k` bytes of the same READ that were pulled (0 or 1,
as the width is at most 15), the job ends with BUS_ERROR, whether READ runs alone or in a DECODE step. The bytes before it
stay pulled, the refused one is not in the cache and not counted, and everything else stays. -/
def Obligations.ReadOfARefusedByteEndsTheJob : Prop :=
  ∀ (s : State) (k : Nat), s.bitCount.toNat + 8 * k < s.width.toNat → s.inPos.toNat + k < s.srcLen.toNat →
    s.srcAddr.toNat + s.srcLen.toNat ≤ 2 ^ 32 →
    (∀ i, i < k → s.platform.admits (s.srcAddr.toNat + s.inPos.toNat + i) 1 .read = true) →
    s.platform.admits (s.srcAddr.toNat + s.inPos.toNat + k) 1 .read = false →
    ∃ t, exec .brRead s = .next t ∧ (s.outCount.toNat < s.pixelCount → exec .decodeStep s = .next t) ∧
      t.inPos.toNat = s.inPos.toNat + k ∧ t.bitCount.toNat = s.bitCount.toNat + 8 * k ∧
      (k = 0 → t.cache = s.cache) ∧
      (s.cache.toNat < 2 ^ s.bitCount.toNat →
        t.cache.toNat = s.cache.toNat + 2 ^ s.bitCount.toNat * s.streamValue (8 * s.inPos.toNat) (8 * k)) ∧
      t = { s with
        phase := .idle, cause := .busError, done := true, cache := t.cache, bitCount := t.bitCount, inPos := t.inPos,
        busLog := t.busLog }

/-- R130: codes packed end to end (R91) are read back by READ at the same widths in the same order, whatever fills the unused
high bits of the last byte. -/
def Obligations.PackedCodesReadBack : Prop :=
  ∀ (s : State) (codes : List (Nat × Nat)),
    (∀ c ∈ codes, 1 ≤ c.2 ∧ c.2 ≤ 12 ∧ c.1 < 2 ^ c.2) →
    s.cache = 0 → s.bitCount = 0 → s.inPos = 0 → s.Readable →
    s.srcLen.toNat = (packedBits codes + 7) / 8 →
    (∀ i, i < packedBits codes → s.streamBit i = (packCodes codes).testBit i) →
    readSeq (codes.map Prod.snd) s = some (codes.map fun c => BitVec.ofNat 12 c.1)

/-! ### The dictionary engine (41_lzw_codes.md) -/

/-- R140: the dictionary-engine INIT, and nothing else. -/
def Obligations.DictionaryInit : Prop :=
  ∀ (s : State), s.m ≤ 11 →
    ∃ k, k.toNat = s.clear + 2 ∧
      exec .dictInit s = .next { s with nextKey := k, prevNone := true, prevCode := 0, lastCode := 0, outCount := 0 }

/-- R25, R149, R150, R160: every allocated index whose chain does not come to an entry `CLEAR + 2` that links to itself
resolves: a literal to itself, any other entry to its prefix's sequence followed by its suffix; only the resolve stack, where
the model leaves the result (log 11), changes. `DictInv` is R52's item 7 with R141 and R160. -/
def Obligations.AllocatedIndicesResolve : Prop :=
  ∀ (s : State), s.m ≤ 11 → s.DictInv →
    ∃ seqOf : Code → List Code, ∀ c, s.allocated c.toNat = true →
      (∀ d, s.Reaches c d → d.toNat = s.clear + 2 → (s.entry d.toNat).pre ≠ d) →
      exec (.resolve c) s = .next { s with resolveStack := seqOf c } ∧
      (c.toNat < s.clear → seqOf c = [c]) ∧
      (s.clear ≤ c.toNat → seqOf c = seqOf (s.entry c.toNat).pre ++ [(s.entry c.toNat).suf])

/-- R149, R151, R160: resolving an index whose chain comes to an index that is not allocated, or to an entry that links to
itself, ends the decode with CORRUPT_CHAIN and changes nothing else. -/
def Obligations.CorruptChainsEndTheDecode : Prop :=
  ∀ (s : State) (c d : Code), s.Reaches c d →
    (¬ (d.toNat < s.clear ∨ (s.clear + 2 ≤ d.toNat ∧ d.toNat < s.nextKey.toNat)) ∨
      (s.clear + 2 ≤ d.toNat ∧ (s.entry d.toNat).pre = d)) →
    exec (.resolve c) s = .next { s with cause := .corruptChain, phase := .pad, padPos := s.outCount }

/-- R155, R156: ALLOC writes the next entry and counts it, unless the dictionary is full; GROW widens by one when `nextKey`
exceeds `2^width - 1` and `width` is below 12. Nothing else changes. -/
def Obligations.AllocationAndGrowth : Prop :=
  ∀ (s : State),
    (s.nextKey.toNat < 4096 →
      ∃ t, exec .alloc s = .next t ∧ t = { s with dict := t.dict, nextKey := t.nextKey } ∧
        t.nextKey.toNat = s.nextKey.toNat + 1 ∧ t.entry s.nextKey.toNat = ⟨s.prevCode, s.lastCode⟩ ∧
        ∀ i, i ≠ s.nextKey.toNat → t.entry i = s.entry i) ∧
    (4096 ≤ s.nextKey.toNat → exec .alloc s = .next s) ∧
    (2 ^ s.width.toNat - 1 < s.nextKey.toNat → s.width.toNat < 12 →
      ∃ w, w.toNat = s.width.toNat + 1 ∧ exec .grow s = .next { s with width := w }) ∧
    (s.nextKey.toNat ≤ 2 ^ s.width.toNat - 1 ∨ 12 ≤ s.width.toNat → exec .grow s = .next s)

/-- R157: TAIL of a non-empty sequence: `lastCode`, then step 6, then the elements, then `prevCode`; the frame is `Tailed`.
For a memory in its canonical form and an output that can be written. -/
def Obligations.TailAllocatesThenEmits : Prop :=
  ∀ (s : State) (code first : Code) (rest : List Code),
    s.memory.wf → s.outCount.toNat ≤ s.pixelCount → s.Writable →
    ∃ t, exec (.tail code (first :: rest)) s = .next t ∧ s.Tailed t code first rest

/-- R152 to R154: LITERAL, DICT and KWKWK complete with TAIL of the code's sequence: `[code]`; the resolved sequence; the
previous code's followed by the `lastCode` before this code. `resolve` gives the sequence (its meaning is stated in
AllocatedIndicesResolve). -/
def Obligations.ResolvedCodesEmitTheirSequence : Prop :=
  ∀ (s : State) (code first : Code) (rest : List Code),
    s.memory.wf → s.outCount.toNat ≤ s.pixelCount → s.Writable →
    (code.toNat < s.clear → (s.entry code.toNat).suf = code →
      ∃ t, exec (.literal code) s = .next t ∧ s.Tailed t code code []) ∧
    (resolve code s = some (first :: rest) → ∃ t, exec (.dict code) s = .next t ∧ s.Tailed t code first rest) ∧
    (resolve s.prevCode s = some (first :: rest) →
      ∃ t, exec (.kwkwk code) s = .next t ∧ s.Tailed t code first (rest ++ [s.lastCode]))

/-- R151, R253: when the resolution of a code fails, LITERAL, DICT and KWKWK end the decode with CORRUPT_CHAIN; no element
is emitted and the dictionary, `width`, `prevCode` and `lastCode` stay. -/
def Obligations.FailedResolutionEndsTheDecode : Prop :=
  ∀ (s : State) (code : Code),
    let chain := Host.Outcome.next { s with cause := .corruptChain, phase := .pad, padPos := s.outCount }
    (resolve code s = none → exec (.literal code) s = chain ∧ exec (.dict code) s = chain) ∧
    (resolve s.prevCode s = none → exec (.kwkwk code) s = chain)

/-- R148: FIRST emits its code, sets `prevCode` and `lastCode` to it and clears `prevNone`; no other byte of memory and no
other field changes. Because `P < N` on entry (R143), the emit always writes. -/
def Obligations.FirstEmitsItsCode : Prop :=
  ∀ (s : State) (code : Code),
    s.memory.wf → s.outCount.toNat < s.pixelCount → s.Writable →
    ∃ t, exec (.first code) s = .next t ∧ s.Emitted t [code] ∧
      t = { s with
        prevCode := code, lastCode := code, prevNone := false, memory := t.memory, busLog := t.busLog,
        outCount := s.outCount + 1 }

/-- R147: CLEAR resets the width, `nextKey` and `prevNone`, and changes nothing else. -/
def Obligations.ClearResetsTheEpoch : Prop :=
  ∀ (s : State), s.m ≤ 11 →
    ∃ w k, w.toNat = s.m + 1 ∧ k.toNat = s.clear + 2 ∧
      exec .clear s = .next { s with width := w, nextKey := k, prevNone := true }

/-- R145, R146, R255: an INVALID code ends the decode with CORRUPT_CODE, END with END_CODE; padding starts at `P` and nothing
else changes. -/
def Obligations.InvalidAndEndStartPadding : Prop :=
  ∀ (s : State) (code : Code),
    exec (.invalid code) s = .next { s with cause := .corruptCode, phase := .pad, padPos := s.outCount } ∧
    exec .endCode s = .next { s with cause := .endCode, phase := .pad, padPos := s.outCount }

/-- R143, R254: with `N` indices written, the DECODE step ends with PIXELS_DONE and reads nothing. -/
def Obligations.DecodeStepStopsAtThePixelCount : Prop :=
  ∀ (s : State), s.pixelCount ≤ s.outCount.toNat →
    exec .decodeStep s = .next { s with cause := .pixelsDone, phase := .pad, padPos := s.outCount }

/-- R142, R144, R125: in a running decode with pixels missing and a whole readable code left, the DECODE step reads the next
stream bits and runs, at the state READ leaves, the instruction they decode to, which answers a next state. READ's result
latch is the model's (log 11). -/
def Obligations.DecodeStepRunsTheNextCode : Prop :=
  ∀ (s : State), s.Inv → s.phase = .decode → s.outCount.toNat < s.pixelCount → s.Readable →
    s.bitPos + s.width.toNat ≤ 8 * s.srcLen.toNat →
    ∃ r c t, c.toNat = s.streamValue s.bitPos s.width.toNat ∧
      exec .brRead s = .next { r with opResult := .code c } ∧
      r.bitPos = s.bitPos + s.width.toNat ∧ r.UnpackerInv ∧
      r = { s with
        cache := r.cache, bitCount := r.bitCount, inPos := r.inPos, codeCount := s.codeCount + 1, busLog := r.busLog } ∧
      exec .decodeStep s = exec (decodeCode s.codeCtx c) r ∧
      exec .decodeStep s = .next t

/-- R144, R126: in a running decode with pixels missing and no whole code left, the DECODE step ends with END_OF_DATA and
padding starts. -/
def Obligations.DecodeStepEndsWithoutData : Prop :=
  ∀ (s : State), s.Inv → s.phase = .decode → s.outCount.toNat < s.pixelCount → s.Readable →
    8 * s.srcLen.toNat < s.bitPos + s.width.toNat →
    ∃ t, exec .decodeStep s = .next t ∧ t.inPos = s.srcLen ∧ t.bitCount.toNat < s.width.toNat ∧
      t = { s with
        cache := t.cache, bitCount := t.bitCount, inPos := t.inPos, busLog := t.busLog,
        cause := .endOfData, phase := .pad, padPos := s.outCount }

/-! ### Output (42_output.md) -/

/-- R180, R187, R189, R63: EMIT writes the index, zero-extended, little-endian, at the place of arrival position `P`, and
counts it; with `N` written it does nothing. No other byte of memory changes. -/
def Obligations.EmitWritesOneElement : Prop :=
  ∀ (s : State) (v : Code), s.memory.wf →
    (s.outCount.toNat < s.pixelCount → s.Writable →
      ∃ t, exec (.emit v) s = .next t ∧
        t.memory.read (s.destAddr s.outCount.toNat) = v.extractLsb' 0 8 ∧
        t.memory.read (s.destAddr s.outCount.toNat + 1) = (v.extractLsb' 8 4).setWidth 8 ∧
        (∀ a, a ≠ s.destAddr s.outCount.toNat → a ≠ s.destAddr s.outCount.toNat + 1 →
          t.memory.read a = s.memory.read a) ∧
        t = { s with memory := t.memory, busLog := t.busLog, outCount := s.outCount + 1 }) ∧
    (s.pixelCount ≤ s.outCount.toNat → exec (.emit v) s = .next s)

/-- R185: a PAD step completes the job when `padPos` has reached `N`, and otherwise writes 0 at the place of `padPos`. No
other byte of memory changes. -/
def Obligations.PadStepWritesZeroOrCompletes : Prop :=
  ∀ (s : State), s.memory.wf →
    (s.padPos.toNat < s.pixelCount → s.Writable →
      ∃ t, exec .padStep s = .next t ∧
        t.memory.readHalf (s.destAddr s.padPos.toNat) = 0 ∧
        (∀ a, a ≠ s.destAddr s.padPos.toNat → a ≠ s.destAddr s.padPos.toNat + 1 →
          t.memory.read a = s.memory.read a) ∧
        t = { s with memory := t.memory, busLog := t.busLog, padPos := s.padPos + 1 }) ∧
    (s.pixelCount ≤ s.padPos.toNat → exec .padStep s = .next { s with phase := .idle, done := true })

/-- R65, R157, R191, R253, R267: an output write the bus refuses ends the job with BUS_ERROR. The element is not counted and
its bytes stay (log 7); `padPos` and `prevCode` stay. TAIL, LITERAL, DICT and KWKWK may be refused at any element `k` of their
sequence: the elements before it are written and counted, and step 6 stands. -/
def Obligations.RefusedOutputWriteEndsTheJob : Prop :=
  ∀ (s : State), s.memory.wf →
    (∀ v : Code, s.RefusesAfter 0 →
      ∃ t, exec (.emit v) s = .next t ∧ exec (.first v) s = .next t ∧
        t = { s with phase := .idle, cause := .busError, done := true, busLog := t.busLog }) ∧
    (∀ (code first : Code) (rest : List Code) (k : Nat), k < (first :: rest).length → s.RefusesAfter k →
      let cut := fun t : State => s.CutShort t first ((first :: rest).take k)
      (∃ t, exec (.tail code (first :: rest)) s = .next t ∧ cut t) ∧
      (resolve code s = some (first :: rest) →
        ∃ t, exec (.literal code) s = .next t ∧ exec (.dict code) s = .next t ∧ cut t) ∧
      ((resolve s.prevCode s).map (· ++ [s.lastCode]) = some (first :: rest) →
        ∃ t, exec (.kwkwk code) s = .next t ∧ cut t)) ∧
    (s.dstAddr.toNat + 2 * s.pixelCount ≤ 2 ^ 32 → s.padPos.toNat < s.pixelCount →
      s.platform.admits (s.destAddr s.padPos.toNat) 2 .write = false →
      ∃ t, exec .padStep s = .next t ∧
        t = { s with phase := .idle, cause := .busError, done := true, busLog := t.busLog })

/-- R181 to R184: the output map is the identity when not interlaced and the deinterlace map when interlaced, whose rows go
to those of the four passes; it is a bijection of the arrival positions `0..N-1`, the row map is one of the rows, and the
worked case of R184 holds. -/
def Obligations.OutputMapIsABijection : Prop :=
  (∀ s : State,
    (s.interlace = false → ∀ j, s.dest j = j) ∧
    (s.interlace = true → ∀ j, j < s.pixelCount →
      s.dest j = deintRow s.dimHeight.toNat (j / s.dimWidth.toNat) * s.dimWidth.toNat + j % s.dimWidth.toNat) ∧
    (∀ j, s.destAddr j = s.dstAddr.toNat + 2 * s.dest j) ∧
    (∀ j, j < s.pixelCount → s.dest j < s.pixelCount) ∧
    (∀ i, i < s.pixelCount → ∃ j, j < s.pixelCount ∧ s.dest j = i ∧ ∀ k, k < s.pixelCount → s.dest k = i → k = j)) ∧
  (∀ h k : Nat,
    let n1 := (h + 7) / 8
    let n2 := (h + 3) / 8
    let n3 := (h + 1) / 4
    (k < n1 → deintRow h k = 8 * k) ∧
    (n1 ≤ k → k < n1 + n2 → deintRow h k = 8 * (k - n1) + 4) ∧
    (n1 + n2 ≤ k → k < n1 + n2 + n3 → deintRow h k = 4 * (k - n1 - n2) + 2) ∧
    (n1 + n2 + n3 ≤ k → deintRow h k = 2 * (k - n1 - n2 - n3) + 1) ∧
    n1 + n2 + n3 + h / 2 = h) ∧
  (∀ h r, r < h → ∃ k, k < h ∧ deintRow h k = r ∧ ∀ l, l < h → deintRow h l = r → l = k) ∧
  (List.range 8).map (deintRow 8) = [0, 4, 2, 6, 1, 3, 5, 7]

/-! ### The whole machine -/

/-- R20, R291, R292, R66: a step takes the oldest turn of the schedule, or the engine's: a host access runs the instruction
it decodes to; the engine runs DECODE_STEP or PAD_STEP, and does nothing while idle (R265). The schedule is the model's
(log 1). -/
def Obligations.StepRunsTheDecodedTurn : Prop :=
  (∀ (s : State) (a : HostAccess) (rest : List Turn) (i : Instr), s.schedule = .host a :: rest →
    decodeAccess s.platform.blockBase a = .ok i → step s = exec i { s with schedule := rest }) ∧
  (∀ (s : State) (rest : List Turn), s.schedule = .engine :: rest →
    (s.phase = .decode → step s = exec .decodeStep { s with schedule := rest }) ∧
    (s.phase = .pad → step s = exec .padStep { s with schedule := rest }) ∧
    (s.phase = .idle → step s = .next { s with schedule := rest })) ∧
  (∀ (s : State), s.schedule = [] →
    (s.phase = .decode → step s = exec .decodeStep s) ∧
    (s.phase = .pad → step s = exec .padStep s) ∧
    (s.phase = .idle → step s = .next s))

/-- R53, R280, R281: reset gives every state element its reset value, from any state; no interrupt is raised. That memory and
the platform stay, and the turns to come and the host's read latch, is the model's (log 20); that the written dictionary
entries are dropped and a new era of free values begins is its form of "unspecified" (log 6). -/
def Obligations.ResetSetsEveryElement : Prop :=
  ∀ (s : State) (rest : List Turn), s.schedule = .reset :: rest →
    ∃ t, step s = .next t ∧
      t.phase = .idle ∧ t.cause = .none ∧ t.done = false ∧ t.irq = false ∧ t.err = false ∧ t.busy = false ∧
      t.mincode = 0 ∧ t.interlace = false ∧ t.doneIe = false ∧
      t.srcAddr = 0 ∧ t.srcLen = 0 ∧ t.dstAddr = 0 ∧ t.dimWidth = 0 ∧ t.dimHeight = 0 ∧
      t.outCount = 0 ∧ t.inPos = 0 ∧ t.codeCount = 0 ∧ t.padPos = 0 ∧
      t.nextKey = 0 ∧ t.width = 0 ∧ t.prevCode = 0 ∧ t.lastCode = 0 ∧ t.cache = 0 ∧ t.bitCount = 0 ∧
      t.prevNone = true ∧ t.resolveStack = [] ∧
      (∀ o, Reg.valid o = true → t.regValue o = if o = 0x34 then 0x80000000 else 0) ∧
      t.dict = [] ∧ t.dictEra ≠ s.dictEra ∧
      t.memory = s.memory ∧ t.platform = s.platform ∧ t.schedule = rest ∧ t.readData = s.readData

/-- R69, R76, R80: the host's accesses to bus memory (log 18): a write changes the one byte, and during a job a write to
either buffer is refused; a read returns the byte and changes no memory, and during a job a read of the output buffer may
return any byte (log 8). -/
def Obligations.HostMemoryAccesses : Prop :=
  ∀ (s : State) (a : Word) (b : Byte), s.memory.wf →
    (s.phase ≠ .idle → s.inPayload a.toNat = true ∨ s.inOutput a.toNat = true →
      memStoreTurn a b s = .refused .busyBufferWrite) ∧
    (s.phase = .idle ∨ (s.inPayload a.toNat = false ∧ s.inOutput a.toNat = false) →
      ∃ t, memStoreTurn a b s = .next t ∧ t = { s with memory := t.memory } ∧
        t.memory.read a.toNat = b ∧ ∀ x, x ≠ a.toNat → t.memory.read x = s.memory.read x) ∧
    (∃ t, memLoadTurn a s = .next t ∧ t = { s with readData := t.readData, draws := t.draws } ∧
      t.readData.toNat < 256 ∧
      (s.phase = .idle ∨ s.inOutput a.toNat = false → t.readData = (s.memory.read a.toNat).setWidth 32))

/-- R69, R203, R205, R206: a host register access, command or not, changes no byte of memory and not the platform. -/
def Obligations.RegisterAccessesLeaveMemoryAlone : Prop :=
  ∀ (s t : State) (a : HostAccess), hostTurn a s = .next t →
    t.memory = s.memory ∧ t.platform = s.platform ∧ t.schedule = s.schedule

/-- R250, R265, R292: the only turn that begins a job is a host write to CTRL with bit 0, accepted while idle. -/
def Obligations.OnlyStartBeginsAJob : Prop :=
  ∀ (s t : State), step s = .next t → s.phase = .idle → t.phase ≠ .idle →
    t.phase = .decode ∧
    ∃ a rest d, s.schedule = .host a :: rest ∧
      (decodeAccess s.platform.blockBase a = .ok (.start d) ∨ decodeAccess s.platform.blockBase a = .ok (.ctrlBoth d))

/-- R70, R77, R80, R190: an engine turn, in any state, changes no byte outside the output buffer, no configuration, and not
the interrupt enable. -/
def Obligations.EngineWritesOnlyTheOutputBuffer : Prop :=
  ∀ (s t : State), engineTurn s = .next t →
    (∀ a, s.inOutput a = false → t.memory.read a = s.memory.read a) ∧
    t = { s with
      phase := t.phase, cache := t.cache, bitCount := t.bitCount, width := t.width, inPos := t.inPos, dict := t.dict,
      nextKey := t.nextKey, prevCode := t.prevCode, prevNone := t.prevNone, lastCode := t.lastCode,
      outCount := t.outCount, padPos := t.padPos, codeCount := t.codeCount, cause := t.cause, done := t.done,
      memory := t.memory, busLog := t.busLog }

/-- R52, R53: the invariant holds right after reset. -/
def Obligations.InvariantHoldsAtReset : Prop := State.reset.Inv

/-- R52, R73, R82, R128, R161, R190: every step keeps the invariant, from every state that has it, whatever the turn. -/
def Obligations.EveryStepKeepsTheInvariant : Prop := ∀ (s t : State), s.Inv → step s = .next t → t.Inv

/-- R71, R204: no step faults from a state with the invariant: the engine forms no address outside the bus space. -/
def Obligations.NoStepFaults : Prop := ∀ s : State, s.Inv → s.safe

/-- R159, R293: from any state with the invariant in which a decode runs, engine turns alone end the job, with DONE set, after
at most `8 × srcLen + 1` DECODE steps and then at most `N + 1` PAD steps. -/
def Obligations.EveryJobEnds : Prop :=
  ∀ (s : State), s.Inv → s.phase = .decode →
    ∃ d p t, d ≤ 8 * s.srcLen.toNat + 1 ∧ p ≤ s.pixelCount + 1 ∧ engineRun (d + p) s = .next t ∧ t.jobOver ∧
      (∀ k u, k < d → engineRun k s = .next u → u.phase = .decode) ∧
      (∀ k u, d ≤ k → k < d + p → engineRun k s = .next u → u.phase = .pad)

/-- R191, R188: when the PAD step completes a job, the output buffer holds the decoded indices in arrival order, each at its
place and as the engine wrote it, and 0 from `P` on; OUT_COUNT is not changed by padding. -/
def Obligations.FinalContentsOfAPaddedFrame : Prop :=
  ∀ (s t : State), s.Inv → s.phase = .pad → engineTurn s = .next t → t.phase = .idle → t.cause ≠ .busError →
    t.done = true ∧ t.cause = s.cause ∧ t.outCount = s.outCount ∧ t.outCount.toNat ≤ s.pixelCount ∧
    t.writesMade.map Prod.fst = (List.range s.pixelCount).map s.destAddr ∧
    ∀ j, j < s.pixelCount →
      (j < t.outCount.toNat → (t.writesMade[j]?).map Prod.snd = some (t.memory.readHalf (s.destAddr j))) ∧
      (t.outCount.toNat ≤ j → t.memory.readHalf (s.destAddr j) = 0)

/-- R162: frames are independent: two idle blocks with the same configuration, memory and platform, whatever earlier jobs
left in the rest of their state, give the host the same view after an accepted START and any number of engine turns. -/
def Obligations.FramesAreIndependent : Prop :=
  ∀ (s₁ s₂ t₁ t₂ : State) (d : Word) (n : Nat) (u₁ : State), s₁.phase = .idle → s₂.phase = .idle →
    s₁.mincode = s₂.mincode → s₁.interlace = s₂.interlace → s₁.srcAddr = s₂.srcAddr → s₁.srcLen = s₂.srcLen →
    s₁.dstAddr = s₂.dstAddr → s₁.dimWidth = s₂.dimWidth → s₁.dimHeight = s₂.dimHeight →
    s₁.memory = s₂.memory → s₁.platform = s₂.platform →
    exec (.start d) s₁ = .next t₁ → exec (.start d) s₂ = .next t₂ →
    engineRun n t₁ = .next u₁ → ∃ u₂, engineRun n t₂ = .next u₂ ∧ u₁.jobView = u₂.jobView

/-- R190, R191, R253: however it ends, an engine turn of a job writes the elements of the next arrival positions in order, each
at its place, and changes no other byte. So after ABORTED or BUS_ERROR the elements not written keep their contents. -/
def Obligations.EngineTurnWritesTheNextElements : Prop :=
  ∀ (s t : State), s.Inv → s.phase ≠ .idle → engineTurn s = .next t →
    let stop := if s.phase = .pad then t.padPos.toNat else t.outCount.toNat
    s.arrived ≤ stop ∧ stop ≤ s.pixelCount ∧
    t.writesMade.map Prod.fst = (List.range stop).map s.destAddr ∧
    (∀ j, j < stop → (t.writesMade[j]?).map Prod.snd = some (t.memory.readHalf (s.destAddr j))) ∧
    (∀ a, s.outside s.arrived stop a → t.memory.read a = s.memory.read a)
end

