-- ==== Sys2Proof/Laws/Memory.lean ====
section
/-! SUPPORT. The laws of sparse lists, the bus memory (20_memory.md R60, R63) and the dictionary's storage (10_state.md R25,
41_lzw_codes.md R141): read after write, and that every operation keeps the canonical form. -/

namespace Sys2Proof.Machine

/-! ### Sparse lists -/

namespace Sparse

theorem rising_tail {α : Type} {c : Nat × α} {l : List (Nat × α)} (h : Rising (c :: l)) : Rising l := by
  simp only [Rising, List.map_cons, List.pairwise_cons] at h; exact h.2

theorem rising_head {α : Type} {c : Nat × α} {l : List (Nat × α)} (h : Rising (c :: l)) : ∀ d ∈ l, c.1 < d.1 := by
  simp only [Rising, List.map_cons, List.pairwise_cons, List.mem_map] at h
  exact fun d hd => h.1 d.1 ⟨d, hd, rfl⟩

theorem rising_cons {α : Type} {c : Nat × α} {l : List (Nat × α)} (h : ∀ d ∈ l, c.1 < d.1) (hl : Rising l) :
    Rising (c :: l) := by
  simp only [Rising, List.map_cons, List.pairwise_cons, List.mem_map]
  refine ⟨?_, hl⟩
  rintro _ ⟨d, hd, rfl⟩
  exact h d hd

/-- A key below every listed one is not listed. -/
theorem find?_below {α : Type} {k : Nat} : ∀ {l : List (Nat × α)}, (∀ d ∈ l, k < d.1) → find? k l = none
  | [], _ => rfl
  | (j, v) :: l, h => by
    have hj : k < j := h (j, v) (by simp)
    rw [find?, if_neg (by omega)]
    exact find?_below fun d hd => h d (by simp [hd])

theorem find?_insert_same {α : Type} (k : Nat) (v : α) : ∀ l : List (Nat × α), find? k (insert k v l) = some v
  | [] => by simp [insert, find?]
  | (j, w) :: l => by
    unfold insert
    split
    · simp [find?]
    · split
      · simp [find?]
      · rw [find?, if_neg (by omega)]; exact find?_insert_same k v l

theorem find?_insert_other {α : Type} {k i : Nat} (v : α) (h : i ≠ k) :
    ∀ l : List (Nat × α), find? i (insert k v l) = find? i l
  | [] => by simp [insert, find?, Ne.symm h]
  | (j, w) :: l => by
    unfold insert
    split
    · simp [find?, Ne.symm h]
    · split
      · subst_vars; simp [find?, Ne.symm h]
      · simp only [find?]; rw [find?_insert_other v h l]

/-- An entry of an updated list is the new one or an old one. -/
theorem mem_insert {α : Type} {k : Nat} {v : α} {c : Nat × α} :
    ∀ {l : List (Nat × α)}, c ∈ insert k v l → c = (k, v) ∨ c ∈ l
  | [], h => by simpa [insert] using h
  | (j, w) :: l, h => by
    unfold insert at h
    split at h
    · simpa using h
    · split at h
      · rcases List.mem_cons.1 h with h | h
        · exact .inl h
        · exact .inr (by simp [h])
      · rcases List.mem_cons.1 h with h | h
        · exact .inr (by simp [h])
        · rcases mem_insert h with h | h
          · exact .inl h
          · exact .inr (by simp [h])

theorem rising_insert {α : Type} (k : Nat) (v : α) : ∀ {l : List (Nat × α)}, Rising l → Rising (insert k v l)
  | [], _ => by simp [insert, Rising]
  | (j, w) :: l, h => by
    have hh := rising_head h
    have ht := rising_tail h
    unfold insert
    split
    case isTrue hk =>
      refine rising_cons (fun d hd => ?_) h
      rcases List.mem_cons.1 hd with hd | hd
      · subst hd; exact hk
      · exact Nat.lt_trans hk (hh d hd)
    case isFalse hk =>
      split
      case isTrue hkj => subst hkj; exact rising_cons hh ht
      case isFalse hkj =>
        refine rising_cons (fun d hd => ?_) (rising_insert k v ht)
        rcases mem_insert hd with hd | hd
        · subst hd; exact Nat.lt_of_le_of_ne (Nat.le_of_not_lt hk) (Ne.symm hkj)
        · exact hh d hd

theorem mem_erase {α : Type} {k : Nat} {c : Nat × α} : ∀ {l : List (Nat × α)}, c ∈ erase k l → c ∈ l
  | [], h => h
  | (j, w) :: l, h => by
    unfold erase at h
    split at h
    · simp [h]
    · rcases List.mem_cons.1 h with h | h
      · simp [h]
      · simp [mem_erase h]

theorem find?_erase_other {α : Type} {k i : Nat} (h : i ≠ k) : ∀ l : List (Nat × α), find? i (erase k l) = find? i l
  | [] => rfl
  | (j, w) :: l => by
    unfold erase
    split
    · subst_vars; simp [find?, Ne.symm h]
    · simp only [find?]; rw [find?_erase_other h l]

theorem find?_erase_same {α : Type} {k : Nat} : ∀ {l : List (Nat × α)}, Rising l → find? k (erase k l) = none
  | [], _ => rfl
  | (j, w) :: l, h => by
    unfold erase
    split
    case isTrue hj => subst hj; exact find?_below (rising_head h)
    case isFalse hj => rw [find?, if_neg hj]; exact find?_erase_same (rising_tail h)

theorem rising_erase {α : Type} (k : Nat) : ∀ {l : List (Nat × α)}, Rising l → Rising (erase k l)
  | [], h => h
  | (j, w) :: l, h => by
    unfold erase
    split
    · exact rising_tail h
    · exact rising_cons (fun d hd => rising_head h d (mem_erase hd)) (rising_erase k (rising_tail h))

theorem find?_append {α : Type} (i : Nat) :
    ∀ l r : List (Nat × α), find? i (l ++ r) = (find? i l).or (find? i r)
  | [], r => by simp [find?]
  | (j, w) :: l, r => by
    simp only [List.cons_append, find?]
    split
    · rfl
    · exact find?_append i l r

/-- Dropping entries whose key fails a test leaves the others. -/
theorem find?_filter {α : Type} {i : Nat} (p : Nat → Bool) (h : p i = true) :
    ∀ l : List (Nat × α), find? i (l.filter fun c => p c.1) = find? i l
  | [] => rfl
  | (j, w) :: l => by
    by_cases hj : p j = true
    · rw [List.filter_cons_of_pos (by simpa using hj)]; simp only [find?]; rw [find?_filter p h l]
    · rw [List.filter_cons_of_neg (by simpa using hj), find?_filter p h l, find?, if_neg]
      rintro rfl; exact hj h

end Sparse

/-! ### The bus memory -/

@[simp] theorem Memory.read_nil (a : Nat) : Memory.read [] a = Config.unwrittenByte := rfl

theorem Memory.read_write_other (m : Memory) {a i : Nat} (b : Byte) (h : i ≠ a) : (m.write a b).read i = m.read i := by
  unfold Memory.write Memory.read
  split
  · rw [Sparse.find?_erase_other h]
  · rw [Sparse.find?_insert_other b h]

theorem Memory.read_write_same {m : Memory} (hm : Sparse.Rising m) (a : Nat) (b : Byte) : (m.write a b).read a = b := by
  unfold Memory.write Memory.read
  split
  case isTrue hb => subst hb; rw [Sparse.find?_erase_same hm]; rfl
  case isFalse => rw [Sparse.find?_insert_same]; rfl

theorem Memory.write_rising {m : Memory} (hm : Sparse.Rising m) (a : Nat) (b : Byte) : Sparse.Rising (m.write a b) := by
  unfold Memory.write
  split
  · exact Sparse.rising_erase a hm
  · exact Sparse.rising_insert a b hm

theorem Memory.write_wf {m : Memory} (hm : m.wf) {a : Nat} (ha : a < Config.busSize) (b : Byte) : (m.write a b).wf := by
  refine ⟨Memory.write_rising hm.1 a b, fun c hc => ?_⟩
  unfold Memory.write at hc
  split at hc
  · exact hm.2 c (Sparse.mem_erase hc)
  case isFalse hb =>
    rcases Sparse.mem_insert hc with rfl | hc
    · exact ⟨ha, hb⟩
    · exact hm.2 c hc

theorem Memory.nil_wf : Memory.wf [] := by decide

theorem Memory.writeHalf_wf {m : Memory} (hm : m.wf) {a : Nat} (ha : a + 1 < Config.busSize) (v : Half) :
    (m.writeHalf a v).wf :=
  Memory.write_wf (Memory.write_wf hm (Nat.lt_of_succ_lt ha) _) ha _

/-- A halfword write leaves every other byte alone (R65). -/
theorem Memory.read_writeHalf_other (m : Memory) {a i : Nat} (v : Half) (h : i ≠ a) (h' : i ≠ a + 1) :
    (m.writeHalf a v).read i = m.read i := by
  unfold Memory.writeHalf; rw [Memory.read_write_other _ _ h', Memory.read_write_other _ _ h]

theorem Memory.read_writeHalf_low {m : Memory} (hm : Sparse.Rising m) (a : Nat) (v : Half) :
    (m.writeHalf a v).read a = lowByte v := by
  unfold Memory.writeHalf; rw [Memory.read_write_other _ _ (by omega), Memory.read_write_same hm]

theorem Memory.read_writeHalf_high {m : Memory} (hm : Sparse.Rising m) (a : Nat) (v : Half) :
    (m.writeHalf a v).read (a + 1) = highByte v := by
  unfold Memory.writeHalf; rw [Memory.read_write_same (Memory.write_rising hm _ _)]

theorem high_append_low (v : Half) : highByte v ++ lowByte v = v := by
  unfold highByte lowByte
  ext i hi
  simp only [BitVec.getElem_append, BitVec.getElem_extractLsb', Nat.zero_add]
  split
  · simp [BitVec.getLsbD_eq_getElem hi]
  · rw [show 8 + (i - 8) = i by omega, BitVec.getLsbD_eq_getElem hi]

/-- A halfword reads back as it was written (R63). -/
theorem Memory.readHalf_writeHalf_same {m : Memory} (hm : Sparse.Rising m) (a : Nat) (v : Half) :
    (m.writeHalf a v).readHalf a = v := by
  unfold Memory.readHalf
  rw [Memory.read_writeHalf_low hm, Memory.read_writeHalf_high hm, high_append_low]

/-- A halfword that shares no byte with the one written reads as before. -/
theorem Memory.readHalf_writeHalf_other (m : Memory) {a i : Nat} (v : Half) (h : i + 1 < a ∨ a + 1 < i) :
    (m.writeHalf a v).readHalf i = m.readHalf i := by
  unfold Memory.readHalf
  rw [Memory.read_writeHalf_other _ _ (by omega) (by omega), Memory.read_writeHalf_other _ _ (by omega) (by omega)]

/-! ### The dictionary -/

theorem Dict.read_write_same (era : Nat) (d : Dict) (i : Nat) (e : DictEntry) : Dict.read era (Dict.write d i e) i = e := by
  unfold Dict.read Dict.write; rw [Sparse.find?_insert_same]; rfl

theorem Dict.read_write_other (era : Nat) (d : Dict) {i k : Nat} (e : DictEntry) (h : k ≠ i) :
    Dict.read era (Dict.write d i e) k = Dict.read era d k := by
  unfold Dict.read Dict.write; rw [Sparse.find?_insert_other e h]

theorem Dict.write_wf {d : Dict} (hd : d.wf) {i : Nat} (hi : i < Config.maxEntries) (e : DictEntry) : (Dict.write d i e).wf := by
  refine ⟨Sparse.rising_insert i e hd.1, fun c hc => ?_⟩
  rcases Sparse.mem_insert hc with rfl | hc
  · exact hi
  · exact hd.2 c hc

theorem Dict.nil_wf : Dict.wf [] := by decide

theorem Dict.find?_map_range {α : Type} (f : Nat → α) (i n : Nat) :
    Sparse.find? i ((List.range n).map fun j => (j, f j)) = if i < n then some (f i) else none := by
  induction n with
  | zero => simp [Sparse.find?]
  | succ n ih =>
    rw [List.range_succ, List.map_append, Sparse.find?_append, ih]
    by_cases h : i < n
    · simp [h, Nat.lt_succ_of_lt h]
    · by_cases h' : i = n
      · subst h'; simp [Sparse.find?]
      · simp [h, Sparse.find?, Ne.symm h', show ¬ i < n + 1 by omega]

/-- The seeded entries (R141). -/
theorem Dict.read_seed_low (era : Nat) (d : Dict) {i clear : Nat} (h : i < clear) :
    Dict.read era (Dict.seed d clear) i = ⟨0, BitVec.ofNat 12 i⟩ := by
  unfold Dict.read Dict.seed Dict.literals
  rw [Sparse.find?_append, Dict.find?_map_range, if_pos h]; rfl

/-- Seeding keeps the other entries (R141). -/
theorem Dict.read_seed_high (era : Nat) (d : Dict) {i clear : Nat} (h : clear ≤ i) :
    Dict.read era (Dict.seed d clear) i = Dict.read era d i := by
  unfold Dict.read Dict.seed Dict.literals
  rw [Sparse.find?_append, Dict.find?_map_range, if_neg (by omega), Option.none_or,
    Sparse.find?_filter (fun k => decide (clear ≤ k)) (by simpa using h)]

theorem Dict.seed_wf {d : Dict} (hd : d.wf) {clear : Nat} (hc : clear ≤ Config.maxEntries) : (Dict.seed d clear).wf := by
  refine ⟨?_, fun c hm => ?_⟩
  · unfold Dict.seed Dict.literals Sparse.Rising
    rw [List.map_append, List.pairwise_append]
    refine ⟨?_, ?_, ?_⟩
    · simpa [Function.comp_def] using List.pairwise_lt_range
    · exact List.Pairwise.sublist (List.filter_sublist.map _) hd.1
    · intro a ha b hb
      simp only [List.map_map, List.mem_map, List.mem_range, Function.comp] at ha
      obtain ⟨i, hi, rfl⟩ := ha
      obtain ⟨c, hcm, rfl⟩ := List.mem_map.1 hb
      have := (List.mem_filter.1 hcm).2
      simp only [decide_eq_true_eq] at this
      omega
  · unfold Dict.seed Dict.literals at hm
    rcases List.mem_append.1 hm with hm | hm
    · obtain ⟨i, hi, rfl⟩ := List.mem_map.1 hm
      exact Nat.lt_of_lt_of_le (List.mem_range.1 hi) hc
    · exact hd.2 c (List.mem_filter.1 hm).1

end Sys2Proof.Machine
end

