-- ==== Sys2Proof/Laws/State.lean ====
section
/-! SUPPORT. One lemma per field per update of State, so that no proof unfolds a record update; and the same for the derived
constants of the configuration (10_state.md R22, R23, 42_output.md R181). -/

namespace Sys2Proof.Machine

/-! ### INIT (R120) -/

@[simp] theorem bitInit_phase (s : State) : (bitInit s).phase = s.phase := rfl
@[simp] theorem bitInit_cache (s : State) : (bitInit s).cache = 0 := rfl
@[simp] theorem bitInit_bitCount (s : State) : (bitInit s).bitCount = 0 := rfl
@[simp] theorem bitInit_width (s : State) : (bitInit s).width = BitVec.ofNat 4 (s.m + 1) := rfl
@[simp] theorem bitInit_inPos (s : State) : (bitInit s).inPos = 0 := rfl
@[simp] theorem bitInit_dict (s : State) : (bitInit s).dict = s.dict := rfl
@[simp] theorem bitInit_nextKey (s : State) : (bitInit s).nextKey = s.nextKey := rfl
@[simp] theorem bitInit_prevCode (s : State) : (bitInit s).prevCode = s.prevCode := rfl
@[simp] theorem bitInit_prevNone (s : State) : (bitInit s).prevNone = s.prevNone := rfl
@[simp] theorem bitInit_lastCode (s : State) : (bitInit s).lastCode = s.lastCode := rfl
@[simp] theorem bitInit_resolveStack (s : State) : (bitInit s).resolveStack = s.resolveStack := rfl
@[simp] theorem bitInit_outCount (s : State) : (bitInit s).outCount = s.outCount := rfl
@[simp] theorem bitInit_padPos (s : State) : (bitInit s).padPos = s.padPos := rfl
@[simp] theorem bitInit_codeCount (s : State) : (bitInit s).codeCount = 0 := rfl
@[simp] theorem bitInit_cause (s : State) : (bitInit s).cause = s.cause := rfl
@[simp] theorem bitInit_done (s : State) : (bitInit s).done = s.done := rfl
@[simp] theorem bitInit_mincode (s : State) : (bitInit s).mincode = s.mincode := rfl
@[simp] theorem bitInit_interlace (s : State) : (bitInit s).interlace = s.interlace := rfl
@[simp] theorem bitInit_doneIe (s : State) : (bitInit s).doneIe = s.doneIe := rfl
@[simp] theorem bitInit_srcAddr (s : State) : (bitInit s).srcAddr = s.srcAddr := rfl
@[simp] theorem bitInit_srcLen (s : State) : (bitInit s).srcLen = s.srcLen := rfl
@[simp] theorem bitInit_dstAddr (s : State) : (bitInit s).dstAddr = s.dstAddr := rfl
@[simp] theorem bitInit_dimWidth (s : State) : (bitInit s).dimWidth = s.dimWidth := rfl
@[simp] theorem bitInit_dimHeight (s : State) : (bitInit s).dimHeight = s.dimHeight := rfl
@[simp] theorem bitInit_memory (s : State) : (bitInit s).memory = s.memory := rfl
@[simp] theorem bitInit_platform (s : State) : (bitInit s).platform = s.platform := rfl
@[simp] theorem bitInit_schedule (s : State) : (bitInit s).schedule = s.schedule := rfl
@[simp] theorem bitInit_readData (s : State) : (bitInit s).readData = s.readData := rfl
@[simp] theorem bitInit_opResult (s : State) : (bitInit s).opResult = s.opResult := rfl
@[simp] theorem bitInit_busLog (s : State) : (bitInit s).busLog = s.busLog := rfl
@[simp] theorem bitInit_draws (s : State) : (bitInit s).draws = s.draws := rfl
@[simp] theorem bitInit_dictEra (s : State) : (bitInit s).dictEra = s.dictEra := rfl
@[simp] theorem bitInit_m (s : State) : (bitInit s).m = s.m := rfl
@[simp] theorem bitInit_clear (s : State) : (bitInit s).clear = s.clear := rfl
@[simp] theorem bitInit_endCode (s : State) : (bitInit s).endCode = s.endCode := rfl
@[simp] theorem bitInit_pixelCount (s : State) : (bitInit s).pixelCount = s.pixelCount := rfl
@[simp] theorem bitInit_dest (s : State) (j : Nat) : (bitInit s).dest j = s.dest j := rfl
@[simp] theorem bitInit_destAddr (s : State) (j : Nat) : (bitInit s).destAddr j = s.destAddr j := rfl

/-! ### RESETWIDTH (R121) -/

@[simp] theorem resetWidth_phase (s : State) : (resetWidth s).phase = s.phase := rfl
@[simp] theorem resetWidth_cache (s : State) : (resetWidth s).cache = s.cache := rfl
@[simp] theorem resetWidth_bitCount (s : State) : (resetWidth s).bitCount = s.bitCount := rfl
@[simp] theorem resetWidth_width (s : State) : (resetWidth s).width = BitVec.ofNat 4 (s.m + 1) := rfl
@[simp] theorem resetWidth_inPos (s : State) : (resetWidth s).inPos = s.inPos := rfl
@[simp] theorem resetWidth_dict (s : State) : (resetWidth s).dict = s.dict := rfl
@[simp] theorem resetWidth_nextKey (s : State) : (resetWidth s).nextKey = s.nextKey := rfl
@[simp] theorem resetWidth_prevCode (s : State) : (resetWidth s).prevCode = s.prevCode := rfl
@[simp] theorem resetWidth_prevNone (s : State) : (resetWidth s).prevNone = s.prevNone := rfl
@[simp] theorem resetWidth_lastCode (s : State) : (resetWidth s).lastCode = s.lastCode := rfl
@[simp] theorem resetWidth_resolveStack (s : State) : (resetWidth s).resolveStack = s.resolveStack := rfl
@[simp] theorem resetWidth_outCount (s : State) : (resetWidth s).outCount = s.outCount := rfl
@[simp] theorem resetWidth_padPos (s : State) : (resetWidth s).padPos = s.padPos := rfl
@[simp] theorem resetWidth_codeCount (s : State) : (resetWidth s).codeCount = s.codeCount := rfl
@[simp] theorem resetWidth_cause (s : State) : (resetWidth s).cause = s.cause := rfl
@[simp] theorem resetWidth_done (s : State) : (resetWidth s).done = s.done := rfl
@[simp] theorem resetWidth_mincode (s : State) : (resetWidth s).mincode = s.mincode := rfl
@[simp] theorem resetWidth_interlace (s : State) : (resetWidth s).interlace = s.interlace := rfl
@[simp] theorem resetWidth_doneIe (s : State) : (resetWidth s).doneIe = s.doneIe := rfl
@[simp] theorem resetWidth_srcAddr (s : State) : (resetWidth s).srcAddr = s.srcAddr := rfl
@[simp] theorem resetWidth_srcLen (s : State) : (resetWidth s).srcLen = s.srcLen := rfl
@[simp] theorem resetWidth_dstAddr (s : State) : (resetWidth s).dstAddr = s.dstAddr := rfl
@[simp] theorem resetWidth_dimWidth (s : State) : (resetWidth s).dimWidth = s.dimWidth := rfl
@[simp] theorem resetWidth_dimHeight (s : State) : (resetWidth s).dimHeight = s.dimHeight := rfl
@[simp] theorem resetWidth_memory (s : State) : (resetWidth s).memory = s.memory := rfl
@[simp] theorem resetWidth_platform (s : State) : (resetWidth s).platform = s.platform := rfl
@[simp] theorem resetWidth_schedule (s : State) : (resetWidth s).schedule = s.schedule := rfl
@[simp] theorem resetWidth_readData (s : State) : (resetWidth s).readData = s.readData := rfl
@[simp] theorem resetWidth_opResult (s : State) : (resetWidth s).opResult = s.opResult := rfl
@[simp] theorem resetWidth_busLog (s : State) : (resetWidth s).busLog = s.busLog := rfl
@[simp] theorem resetWidth_draws (s : State) : (resetWidth s).draws = s.draws := rfl
@[simp] theorem resetWidth_dictEra (s : State) : (resetWidth s).dictEra = s.dictEra := rfl
@[simp] theorem resetWidth_m (s : State) : (resetWidth s).m = s.m := rfl
@[simp] theorem resetWidth_clear (s : State) : (resetWidth s).clear = s.clear := rfl
@[simp] theorem resetWidth_endCode (s : State) : (resetWidth s).endCode = s.endCode := rfl
@[simp] theorem resetWidth_pixelCount (s : State) : (resetWidth s).pixelCount = s.pixelCount := rfl
@[simp] theorem resetWidth_dest (s : State) (j : Nat) : (resetWidth s).dest j = s.dest j := rfl
@[simp] theorem resetWidth_destAddr (s : State) (j : Nat) : (resetWidth s).destAddr j = s.destAddr j := rfl

/-! ### WIDEN (R122) -/

@[simp] theorem widen_phase (s : State) : (widen s).phase = s.phase := rfl
@[simp] theorem widen_cache (s : State) : (widen s).cache = s.cache := rfl
@[simp] theorem widen_bitCount (s : State) : (widen s).bitCount = s.bitCount := rfl
@[simp] theorem widen_width (s : State) : (widen s).width = s.width + 1 := rfl
@[simp] theorem widen_inPos (s : State) : (widen s).inPos = s.inPos := rfl
@[simp] theorem widen_dict (s : State) : (widen s).dict = s.dict := rfl
@[simp] theorem widen_nextKey (s : State) : (widen s).nextKey = s.nextKey := rfl
@[simp] theorem widen_prevCode (s : State) : (widen s).prevCode = s.prevCode := rfl
@[simp] theorem widen_prevNone (s : State) : (widen s).prevNone = s.prevNone := rfl
@[simp] theorem widen_lastCode (s : State) : (widen s).lastCode = s.lastCode := rfl
@[simp] theorem widen_resolveStack (s : State) : (widen s).resolveStack = s.resolveStack := rfl
@[simp] theorem widen_outCount (s : State) : (widen s).outCount = s.outCount := rfl
@[simp] theorem widen_padPos (s : State) : (widen s).padPos = s.padPos := rfl
@[simp] theorem widen_codeCount (s : State) : (widen s).codeCount = s.codeCount := rfl
@[simp] theorem widen_cause (s : State) : (widen s).cause = s.cause := rfl
@[simp] theorem widen_done (s : State) : (widen s).done = s.done := rfl
@[simp] theorem widen_mincode (s : State) : (widen s).mincode = s.mincode := rfl
@[simp] theorem widen_interlace (s : State) : (widen s).interlace = s.interlace := rfl
@[simp] theorem widen_doneIe (s : State) : (widen s).doneIe = s.doneIe := rfl
@[simp] theorem widen_srcAddr (s : State) : (widen s).srcAddr = s.srcAddr := rfl
@[simp] theorem widen_srcLen (s : State) : (widen s).srcLen = s.srcLen := rfl
@[simp] theorem widen_dstAddr (s : State) : (widen s).dstAddr = s.dstAddr := rfl
@[simp] theorem widen_dimWidth (s : State) : (widen s).dimWidth = s.dimWidth := rfl
@[simp] theorem widen_dimHeight (s : State) : (widen s).dimHeight = s.dimHeight := rfl
@[simp] theorem widen_memory (s : State) : (widen s).memory = s.memory := rfl
@[simp] theorem widen_platform (s : State) : (widen s).platform = s.platform := rfl
@[simp] theorem widen_schedule (s : State) : (widen s).schedule = s.schedule := rfl
@[simp] theorem widen_readData (s : State) : (widen s).readData = s.readData := rfl
@[simp] theorem widen_opResult (s : State) : (widen s).opResult = s.opResult := rfl
@[simp] theorem widen_busLog (s : State) : (widen s).busLog = s.busLog := rfl
@[simp] theorem widen_draws (s : State) : (widen s).draws = s.draws := rfl
@[simp] theorem widen_dictEra (s : State) : (widen s).dictEra = s.dictEra := rfl
@[simp] theorem widen_m (s : State) : (widen s).m = s.m := rfl
@[simp] theorem widen_clear (s : State) : (widen s).clear = s.clear := rfl
@[simp] theorem widen_endCode (s : State) : (widen s).endCode = s.endCode := rfl
@[simp] theorem widen_pixelCount (s : State) : (widen s).pixelCount = s.pixelCount := rfl
@[simp] theorem widen_dest (s : State) (j : Nat) : (widen s).dest j = s.dest j := rfl
@[simp] theorem widen_destAddr (s : State) (j : Nat) : (widen s).destAddr j = s.destAddr j := rfl

/-! ### A byte pulled into the cache (R124) -/

@[simp] theorem pushByte_phase (b : Byte) (s : State) : (pushByte b s).phase = s.phase := rfl
@[simp] theorem pushByte_cache (b : Byte) (s : State) : (pushByte b s).cache = s.cache ||| (b.setWidth 19 <<< s.bitCount.toNat) :=
  rfl
@[simp] theorem pushByte_bitCount (b : Byte) (s : State) : (pushByte b s).bitCount = s.bitCount + 8 := rfl
@[simp] theorem pushByte_width (b : Byte) (s : State) : (pushByte b s).width = s.width := rfl
@[simp] theorem pushByte_inPos (b : Byte) (s : State) : (pushByte b s).inPos = s.inPos + 1 := rfl
@[simp] theorem pushByte_dict (b : Byte) (s : State) : (pushByte b s).dict = s.dict := rfl
@[simp] theorem pushByte_nextKey (b : Byte) (s : State) : (pushByte b s).nextKey = s.nextKey := rfl
@[simp] theorem pushByte_prevCode (b : Byte) (s : State) : (pushByte b s).prevCode = s.prevCode := rfl
@[simp] theorem pushByte_prevNone (b : Byte) (s : State) : (pushByte b s).prevNone = s.prevNone := rfl
@[simp] theorem pushByte_lastCode (b : Byte) (s : State) : (pushByte b s).lastCode = s.lastCode := rfl
@[simp] theorem pushByte_resolveStack (b : Byte) (s : State) : (pushByte b s).resolveStack = s.resolveStack := rfl
@[simp] theorem pushByte_outCount (b : Byte) (s : State) : (pushByte b s).outCount = s.outCount := rfl
@[simp] theorem pushByte_padPos (b : Byte) (s : State) : (pushByte b s).padPos = s.padPos := rfl
@[simp] theorem pushByte_codeCount (b : Byte) (s : State) : (pushByte b s).codeCount = s.codeCount := rfl
@[simp] theorem pushByte_cause (b : Byte) (s : State) : (pushByte b s).cause = s.cause := rfl
@[simp] theorem pushByte_done (b : Byte) (s : State) : (pushByte b s).done = s.done := rfl
@[simp] theorem pushByte_mincode (b : Byte) (s : State) : (pushByte b s).mincode = s.mincode := rfl
@[simp] theorem pushByte_interlace (b : Byte) (s : State) : (pushByte b s).interlace = s.interlace := rfl
@[simp] theorem pushByte_doneIe (b : Byte) (s : State) : (pushByte b s).doneIe = s.doneIe := rfl
@[simp] theorem pushByte_srcAddr (b : Byte) (s : State) : (pushByte b s).srcAddr = s.srcAddr := rfl
@[simp] theorem pushByte_srcLen (b : Byte) (s : State) : (pushByte b s).srcLen = s.srcLen := rfl
@[simp] theorem pushByte_dstAddr (b : Byte) (s : State) : (pushByte b s).dstAddr = s.dstAddr := rfl
@[simp] theorem pushByte_dimWidth (b : Byte) (s : State) : (pushByte b s).dimWidth = s.dimWidth := rfl
@[simp] theorem pushByte_dimHeight (b : Byte) (s : State) : (pushByte b s).dimHeight = s.dimHeight := rfl
@[simp] theorem pushByte_memory (b : Byte) (s : State) : (pushByte b s).memory = s.memory := rfl
@[simp] theorem pushByte_platform (b : Byte) (s : State) : (pushByte b s).platform = s.platform := rfl
@[simp] theorem pushByte_schedule (b : Byte) (s : State) : (pushByte b s).schedule = s.schedule := rfl
@[simp] theorem pushByte_readData (b : Byte) (s : State) : (pushByte b s).readData = s.readData := rfl
@[simp] theorem pushByte_opResult (b : Byte) (s : State) : (pushByte b s).opResult = s.opResult := rfl
@[simp] theorem pushByte_busLog (b : Byte) (s : State) : (pushByte b s).busLog = s.busLog := rfl
@[simp] theorem pushByte_draws (b : Byte) (s : State) : (pushByte b s).draws = s.draws := rfl
@[simp] theorem pushByte_dictEra (b : Byte) (s : State) : (pushByte b s).dictEra = s.dictEra := rfl
@[simp] theorem pushByte_m (b : Byte) (s : State) : (pushByte b s).m = s.m := rfl
@[simp] theorem pushByte_clear (b : Byte) (s : State) : (pushByte b s).clear = s.clear := rfl
@[simp] theorem pushByte_endCode (b : Byte) (s : State) : (pushByte b s).endCode = s.endCode := rfl
@[simp] theorem pushByte_pixelCount (b : Byte) (s : State) : (pushByte b s).pixelCount = s.pixelCount := rfl
@[simp] theorem pushByte_dest (b : Byte) (s : State) (j : Nat) : (pushByte b s).dest j = s.dest j := rfl
@[simp] theorem pushByte_destAddr (b : Byte) (s : State) (j : Nat) : (pushByte b s).destAddr j = s.destAddr j := rfl

/-! ### A code taken from the cache (R125) -/

@[simp] theorem dropCode_phase (s : State) : (dropCode s).phase = s.phase := rfl
@[simp] theorem dropCode_cache (s : State) : (dropCode s).cache = s.cache >>> s.width.toNat := rfl
@[simp] theorem dropCode_bitCount (s : State) : (dropCode s).bitCount = s.bitCount - s.width.setWidth 5 := rfl
@[simp] theorem dropCode_width (s : State) : (dropCode s).width = s.width := rfl
@[simp] theorem dropCode_inPos (s : State) : (dropCode s).inPos = s.inPos := rfl
@[simp] theorem dropCode_dict (s : State) : (dropCode s).dict = s.dict := rfl
@[simp] theorem dropCode_nextKey (s : State) : (dropCode s).nextKey = s.nextKey := rfl
@[simp] theorem dropCode_prevCode (s : State) : (dropCode s).prevCode = s.prevCode := rfl
@[simp] theorem dropCode_prevNone (s : State) : (dropCode s).prevNone = s.prevNone := rfl
@[simp] theorem dropCode_lastCode (s : State) : (dropCode s).lastCode = s.lastCode := rfl
@[simp] theorem dropCode_resolveStack (s : State) : (dropCode s).resolveStack = s.resolveStack := rfl
@[simp] theorem dropCode_outCount (s : State) : (dropCode s).outCount = s.outCount := rfl
@[simp] theorem dropCode_padPos (s : State) : (dropCode s).padPos = s.padPos := rfl
@[simp] theorem dropCode_codeCount (s : State) : (dropCode s).codeCount = s.codeCount + 1 := rfl
@[simp] theorem dropCode_cause (s : State) : (dropCode s).cause = s.cause := rfl
@[simp] theorem dropCode_done (s : State) : (dropCode s).done = s.done := rfl
@[simp] theorem dropCode_mincode (s : State) : (dropCode s).mincode = s.mincode := rfl
@[simp] theorem dropCode_interlace (s : State) : (dropCode s).interlace = s.interlace := rfl
@[simp] theorem dropCode_doneIe (s : State) : (dropCode s).doneIe = s.doneIe := rfl
@[simp] theorem dropCode_srcAddr (s : State) : (dropCode s).srcAddr = s.srcAddr := rfl
@[simp] theorem dropCode_srcLen (s : State) : (dropCode s).srcLen = s.srcLen := rfl
@[simp] theorem dropCode_dstAddr (s : State) : (dropCode s).dstAddr = s.dstAddr := rfl
@[simp] theorem dropCode_dimWidth (s : State) : (dropCode s).dimWidth = s.dimWidth := rfl
@[simp] theorem dropCode_dimHeight (s : State) : (dropCode s).dimHeight = s.dimHeight := rfl
@[simp] theorem dropCode_memory (s : State) : (dropCode s).memory = s.memory := rfl
@[simp] theorem dropCode_platform (s : State) : (dropCode s).platform = s.platform := rfl
@[simp] theorem dropCode_schedule (s : State) : (dropCode s).schedule = s.schedule := rfl
@[simp] theorem dropCode_readData (s : State) : (dropCode s).readData = s.readData := rfl
@[simp] theorem dropCode_opResult (s : State) : (dropCode s).opResult = s.opResult := rfl
@[simp] theorem dropCode_busLog (s : State) : (dropCode s).busLog = s.busLog := rfl
@[simp] theorem dropCode_draws (s : State) : (dropCode s).draws = s.draws := rfl
@[simp] theorem dropCode_dictEra (s : State) : (dropCode s).dictEra = s.dictEra := rfl
@[simp] theorem dropCode_m (s : State) : (dropCode s).m = s.m := rfl
@[simp] theorem dropCode_clear (s : State) : (dropCode s).clear = s.clear := rfl
@[simp] theorem dropCode_endCode (s : State) : (dropCode s).endCode = s.endCode := rfl
@[simp] theorem dropCode_pixelCount (s : State) : (dropCode s).pixelCount = s.pixelCount := rfl
@[simp] theorem dropCode_dest (s : State) (j : Nat) : (dropCode s).dest j = s.dest j := rfl
@[simp] theorem dropCode_destAddr (s : State) (j : Nat) : (dropCode s).destAddr j = s.destAddr j := rfl

/-! ### The dictionary-engine INIT (R140) -/

@[simp] theorem dictInit_phase (s : State) : (dictInit s).phase = s.phase := rfl
@[simp] theorem dictInit_cache (s : State) : (dictInit s).cache = s.cache := rfl
@[simp] theorem dictInit_bitCount (s : State) : (dictInit s).bitCount = s.bitCount := rfl
@[simp] theorem dictInit_width (s : State) : (dictInit s).width = s.width := rfl
@[simp] theorem dictInit_inPos (s : State) : (dictInit s).inPos = s.inPos := rfl
@[simp] theorem dictInit_dict (s : State) : (dictInit s).dict = s.dict := rfl
@[simp] theorem dictInit_nextKey (s : State) : (dictInit s).nextKey = BitVec.ofNat 13 (s.clear + 2) := rfl
@[simp] theorem dictInit_prevCode (s : State) : (dictInit s).prevCode = 0 := rfl
@[simp] theorem dictInit_prevNone (s : State) : (dictInit s).prevNone = true := rfl
@[simp] theorem dictInit_lastCode (s : State) : (dictInit s).lastCode = 0 := rfl
@[simp] theorem dictInit_resolveStack (s : State) : (dictInit s).resolveStack = s.resolveStack := rfl
@[simp] theorem dictInit_outCount (s : State) : (dictInit s).outCount = 0 := rfl
@[simp] theorem dictInit_padPos (s : State) : (dictInit s).padPos = s.padPos := rfl
@[simp] theorem dictInit_codeCount (s : State) : (dictInit s).codeCount = s.codeCount := rfl
@[simp] theorem dictInit_cause (s : State) : (dictInit s).cause = s.cause := rfl
@[simp] theorem dictInit_done (s : State) : (dictInit s).done = s.done := rfl
@[simp] theorem dictInit_mincode (s : State) : (dictInit s).mincode = s.mincode := rfl
@[simp] theorem dictInit_interlace (s : State) : (dictInit s).interlace = s.interlace := rfl
@[simp] theorem dictInit_doneIe (s : State) : (dictInit s).doneIe = s.doneIe := rfl
@[simp] theorem dictInit_srcAddr (s : State) : (dictInit s).srcAddr = s.srcAddr := rfl
@[simp] theorem dictInit_srcLen (s : State) : (dictInit s).srcLen = s.srcLen := rfl
@[simp] theorem dictInit_dstAddr (s : State) : (dictInit s).dstAddr = s.dstAddr := rfl
@[simp] theorem dictInit_dimWidth (s : State) : (dictInit s).dimWidth = s.dimWidth := rfl
@[simp] theorem dictInit_dimHeight (s : State) : (dictInit s).dimHeight = s.dimHeight := rfl
@[simp] theorem dictInit_memory (s : State) : (dictInit s).memory = s.memory := rfl
@[simp] theorem dictInit_platform (s : State) : (dictInit s).platform = s.platform := rfl
@[simp] theorem dictInit_schedule (s : State) : (dictInit s).schedule = s.schedule := rfl
@[simp] theorem dictInit_readData (s : State) : (dictInit s).readData = s.readData := rfl
@[simp] theorem dictInit_opResult (s : State) : (dictInit s).opResult = s.opResult := rfl
@[simp] theorem dictInit_busLog (s : State) : (dictInit s).busLog = s.busLog := rfl
@[simp] theorem dictInit_draws (s : State) : (dictInit s).draws = s.draws := rfl
@[simp] theorem dictInit_dictEra (s : State) : (dictInit s).dictEra = s.dictEra := rfl
@[simp] theorem dictInit_m (s : State) : (dictInit s).m = s.m := rfl
@[simp] theorem dictInit_clear (s : State) : (dictInit s).clear = s.clear := rfl
@[simp] theorem dictInit_endCode (s : State) : (dictInit s).endCode = s.endCode := rfl
@[simp] theorem dictInit_pixelCount (s : State) : (dictInit s).pixelCount = s.pixelCount := rfl
@[simp] theorem dictInit_dest (s : State) (j : Nat) : (dictInit s).dest j = s.dest j := rfl
@[simp] theorem dictInit_destAddr (s : State) (j : Nat) : (dictInit s).destAddr j = s.destAddr j := rfl

/-! ### Seeding (R141) -/

@[simp] theorem dictSeed_phase (s : State) : (dictSeed s).phase = s.phase := rfl
@[simp] theorem dictSeed_cache (s : State) : (dictSeed s).cache = s.cache := rfl
@[simp] theorem dictSeed_bitCount (s : State) : (dictSeed s).bitCount = s.bitCount := rfl
@[simp] theorem dictSeed_width (s : State) : (dictSeed s).width = s.width := rfl
@[simp] theorem dictSeed_inPos (s : State) : (dictSeed s).inPos = s.inPos := rfl
@[simp] theorem dictSeed_dict (s : State) : (dictSeed s).dict = Dict.seed s.dict s.clear := rfl
@[simp] theorem dictSeed_nextKey (s : State) : (dictSeed s).nextKey = s.nextKey := rfl
@[simp] theorem dictSeed_prevCode (s : State) : (dictSeed s).prevCode = s.prevCode := rfl
@[simp] theorem dictSeed_prevNone (s : State) : (dictSeed s).prevNone = s.prevNone := rfl
@[simp] theorem dictSeed_lastCode (s : State) : (dictSeed s).lastCode = s.lastCode := rfl
@[simp] theorem dictSeed_resolveStack (s : State) : (dictSeed s).resolveStack = s.resolveStack := rfl
@[simp] theorem dictSeed_outCount (s : State) : (dictSeed s).outCount = s.outCount := rfl
@[simp] theorem dictSeed_padPos (s : State) : (dictSeed s).padPos = s.padPos := rfl
@[simp] theorem dictSeed_codeCount (s : State) : (dictSeed s).codeCount = s.codeCount := rfl
@[simp] theorem dictSeed_cause (s : State) : (dictSeed s).cause = s.cause := rfl
@[simp] theorem dictSeed_done (s : State) : (dictSeed s).done = s.done := rfl
@[simp] theorem dictSeed_mincode (s : State) : (dictSeed s).mincode = s.mincode := rfl
@[simp] theorem dictSeed_interlace (s : State) : (dictSeed s).interlace = s.interlace := rfl
@[simp] theorem dictSeed_doneIe (s : State) : (dictSeed s).doneIe = s.doneIe := rfl
@[simp] theorem dictSeed_srcAddr (s : State) : (dictSeed s).srcAddr = s.srcAddr := rfl
@[simp] theorem dictSeed_srcLen (s : State) : (dictSeed s).srcLen = s.srcLen := rfl
@[simp] theorem dictSeed_dstAddr (s : State) : (dictSeed s).dstAddr = s.dstAddr := rfl
@[simp] theorem dictSeed_dimWidth (s : State) : (dictSeed s).dimWidth = s.dimWidth := rfl
@[simp] theorem dictSeed_dimHeight (s : State) : (dictSeed s).dimHeight = s.dimHeight := rfl
@[simp] theorem dictSeed_memory (s : State) : (dictSeed s).memory = s.memory := rfl
@[simp] theorem dictSeed_platform (s : State) : (dictSeed s).platform = s.platform := rfl
@[simp] theorem dictSeed_schedule (s : State) : (dictSeed s).schedule = s.schedule := rfl
@[simp] theorem dictSeed_readData (s : State) : (dictSeed s).readData = s.readData := rfl
@[simp] theorem dictSeed_opResult (s : State) : (dictSeed s).opResult = s.opResult := rfl
@[simp] theorem dictSeed_busLog (s : State) : (dictSeed s).busLog = s.busLog := rfl
@[simp] theorem dictSeed_draws (s : State) : (dictSeed s).draws = s.draws := rfl
@[simp] theorem dictSeed_dictEra (s : State) : (dictSeed s).dictEra = s.dictEra := rfl
@[simp] theorem dictSeed_m (s : State) : (dictSeed s).m = s.m := rfl
@[simp] theorem dictSeed_clear (s : State) : (dictSeed s).clear = s.clear := rfl
@[simp] theorem dictSeed_endCode (s : State) : (dictSeed s).endCode = s.endCode := rfl
@[simp] theorem dictSeed_pixelCount (s : State) : (dictSeed s).pixelCount = s.pixelCount := rfl
@[simp] theorem dictSeed_dest (s : State) (j : Nat) : (dictSeed s).dest j = s.dest j := rfl
@[simp] theorem dictSeed_destAddr (s : State) (j : Nat) : (dictSeed s).destAddr j = s.destAddr j := rfl

/-! ### JOB_INIT (R205) -/

@[simp] theorem jobInit_phase (s : State) : (jobInit s).phase = s.phase := rfl
@[simp] theorem jobInit_cache (s : State) : (jobInit s).cache = 0 := rfl
@[simp] theorem jobInit_bitCount (s : State) : (jobInit s).bitCount = 0 := rfl
@[simp] theorem jobInit_width (s : State) : (jobInit s).width = BitVec.ofNat 4 (s.m + 1) := rfl
@[simp] theorem jobInit_inPos (s : State) : (jobInit s).inPos = 0 := rfl
@[simp] theorem jobInit_dict (s : State) : (jobInit s).dict = Dict.seed s.dict s.clear := rfl
@[simp] theorem jobInit_nextKey (s : State) : (jobInit s).nextKey = BitVec.ofNat 13 (s.clear + 2) := rfl
@[simp] theorem jobInit_prevCode (s : State) : (jobInit s).prevCode = 0 := rfl
@[simp] theorem jobInit_prevNone (s : State) : (jobInit s).prevNone = true := rfl
@[simp] theorem jobInit_lastCode (s : State) : (jobInit s).lastCode = 0 := rfl
@[simp] theorem jobInit_resolveStack (s : State) : (jobInit s).resolveStack = s.resolveStack := rfl
@[simp] theorem jobInit_outCount (s : State) : (jobInit s).outCount = 0 := rfl
@[simp] theorem jobInit_padPos (s : State) : (jobInit s).padPos = 0 := rfl
@[simp] theorem jobInit_codeCount (s : State) : (jobInit s).codeCount = 0 := rfl
@[simp] theorem jobInit_cause (s : State) : (jobInit s).cause = s.cause := rfl
@[simp] theorem jobInit_done (s : State) : (jobInit s).done = s.done := rfl
@[simp] theorem jobInit_mincode (s : State) : (jobInit s).mincode = s.mincode := rfl
@[simp] theorem jobInit_interlace (s : State) : (jobInit s).interlace = s.interlace := rfl
@[simp] theorem jobInit_doneIe (s : State) : (jobInit s).doneIe = s.doneIe := rfl
@[simp] theorem jobInit_srcAddr (s : State) : (jobInit s).srcAddr = s.srcAddr := rfl
@[simp] theorem jobInit_srcLen (s : State) : (jobInit s).srcLen = s.srcLen := rfl
@[simp] theorem jobInit_dstAddr (s : State) : (jobInit s).dstAddr = s.dstAddr := rfl
@[simp] theorem jobInit_dimWidth (s : State) : (jobInit s).dimWidth = s.dimWidth := rfl
@[simp] theorem jobInit_dimHeight (s : State) : (jobInit s).dimHeight = s.dimHeight := rfl
@[simp] theorem jobInit_memory (s : State) : (jobInit s).memory = s.memory := rfl
@[simp] theorem jobInit_platform (s : State) : (jobInit s).platform = s.platform := rfl
@[simp] theorem jobInit_schedule (s : State) : (jobInit s).schedule = s.schedule := rfl
@[simp] theorem jobInit_readData (s : State) : (jobInit s).readData = s.readData := rfl
@[simp] theorem jobInit_opResult (s : State) : (jobInit s).opResult = s.opResult := rfl
@[simp] theorem jobInit_busLog (s : State) : (jobInit s).busLog = [] := rfl
@[simp] theorem jobInit_draws (s : State) : (jobInit s).draws = s.draws := rfl
@[simp] theorem jobInit_dictEra (s : State) : (jobInit s).dictEra = s.dictEra := rfl
@[simp] theorem jobInit_m (s : State) : (jobInit s).m = s.m := rfl
@[simp] theorem jobInit_clear (s : State) : (jobInit s).clear = s.clear := rfl
@[simp] theorem jobInit_endCode (s : State) : (jobInit s).endCode = s.endCode := rfl
@[simp] theorem jobInit_pixelCount (s : State) : (jobInit s).pixelCount = s.pixelCount := rfl
@[simp] theorem jobInit_dest (s : State) (j : Nat) : (jobInit s).dest j = s.dest j := rfl
@[simp] theorem jobInit_destAddr (s : State) (j : Nat) : (jobInit s).destAddr j = s.destAddr j := rfl

/-! ### complete() (R256) -/

@[simp] theorem complete_phase (s : State) : (complete s).phase = .idle := rfl
@[simp] theorem complete_cache (s : State) : (complete s).cache = s.cache := rfl
@[simp] theorem complete_bitCount (s : State) : (complete s).bitCount = s.bitCount := rfl
@[simp] theorem complete_width (s : State) : (complete s).width = s.width := rfl
@[simp] theorem complete_inPos (s : State) : (complete s).inPos = s.inPos := rfl
@[simp] theorem complete_dict (s : State) : (complete s).dict = s.dict := rfl
@[simp] theorem complete_nextKey (s : State) : (complete s).nextKey = s.nextKey := rfl
@[simp] theorem complete_prevCode (s : State) : (complete s).prevCode = s.prevCode := rfl
@[simp] theorem complete_prevNone (s : State) : (complete s).prevNone = s.prevNone := rfl
@[simp] theorem complete_lastCode (s : State) : (complete s).lastCode = s.lastCode := rfl
@[simp] theorem complete_resolveStack (s : State) : (complete s).resolveStack = s.resolveStack := rfl
@[simp] theorem complete_outCount (s : State) : (complete s).outCount = s.outCount := rfl
@[simp] theorem complete_padPos (s : State) : (complete s).padPos = s.padPos := rfl
@[simp] theorem complete_codeCount (s : State) : (complete s).codeCount = s.codeCount := rfl
@[simp] theorem complete_cause (s : State) : (complete s).cause = s.cause := rfl
@[simp] theorem complete_done (s : State) : (complete s).done = true := rfl
@[simp] theorem complete_mincode (s : State) : (complete s).mincode = s.mincode := rfl
@[simp] theorem complete_interlace (s : State) : (complete s).interlace = s.interlace := rfl
@[simp] theorem complete_doneIe (s : State) : (complete s).doneIe = s.doneIe := rfl
@[simp] theorem complete_srcAddr (s : State) : (complete s).srcAddr = s.srcAddr := rfl
@[simp] theorem complete_srcLen (s : State) : (complete s).srcLen = s.srcLen := rfl
@[simp] theorem complete_dstAddr (s : State) : (complete s).dstAddr = s.dstAddr := rfl
@[simp] theorem complete_dimWidth (s : State) : (complete s).dimWidth = s.dimWidth := rfl
@[simp] theorem complete_dimHeight (s : State) : (complete s).dimHeight = s.dimHeight := rfl
@[simp] theorem complete_memory (s : State) : (complete s).memory = s.memory := rfl
@[simp] theorem complete_platform (s : State) : (complete s).platform = s.platform := rfl
@[simp] theorem complete_schedule (s : State) : (complete s).schedule = s.schedule := rfl
@[simp] theorem complete_readData (s : State) : (complete s).readData = s.readData := rfl
@[simp] theorem complete_opResult (s : State) : (complete s).opResult = s.opResult := rfl
@[simp] theorem complete_busLog (s : State) : (complete s).busLog = s.busLog := rfl
@[simp] theorem complete_draws (s : State) : (complete s).draws = s.draws := rfl
@[simp] theorem complete_dictEra (s : State) : (complete s).dictEra = s.dictEra := rfl
@[simp] theorem complete_m (s : State) : (complete s).m = s.m := rfl
@[simp] theorem complete_clear (s : State) : (complete s).clear = s.clear := rfl
@[simp] theorem complete_endCode (s : State) : (complete s).endCode = s.endCode := rfl
@[simp] theorem complete_pixelCount (s : State) : (complete s).pixelCount = s.pixelCount := rfl
@[simp] theorem complete_dest (s : State) (j : Nat) : (complete s).dest j = s.dest j := rfl
@[simp] theorem complete_destAddr (s : State) (j : Nat) : (complete s).destAddr j = s.destAddr j := rfl

/-! ### terminate(c) (R255) -/

@[simp] theorem terminate_phase (c : Cause) (s : State) : (terminate c s).phase = if c.pads then .pad else .idle :=
  by unfold terminate; split <;> simp_all
@[simp] theorem terminate_cache (c : Cause) (s : State) : (terminate c s).cache = s.cache :=
  by unfold terminate; split <;> rfl
@[simp] theorem terminate_bitCount (c : Cause) (s : State) : (terminate c s).bitCount = s.bitCount :=
  by unfold terminate; split <;> rfl
@[simp] theorem terminate_width (c : Cause) (s : State) : (terminate c s).width = s.width :=
  by unfold terminate; split <;> rfl
@[simp] theorem terminate_inPos (c : Cause) (s : State) : (terminate c s).inPos = s.inPos :=
  by unfold terminate; split <;> rfl
@[simp] theorem terminate_dict (c : Cause) (s : State) : (terminate c s).dict = s.dict :=
  by unfold terminate; split <;> rfl
@[simp] theorem terminate_nextKey (c : Cause) (s : State) : (terminate c s).nextKey = s.nextKey :=
  by unfold terminate; split <;> rfl
@[simp] theorem terminate_prevCode (c : Cause) (s : State) : (terminate c s).prevCode = s.prevCode :=
  by unfold terminate; split <;> rfl
@[simp] theorem terminate_prevNone (c : Cause) (s : State) : (terminate c s).prevNone = s.prevNone :=
  by unfold terminate; split <;> rfl
@[simp] theorem terminate_lastCode (c : Cause) (s : State) : (terminate c s).lastCode = s.lastCode :=
  by unfold terminate; split <;> rfl
@[simp] theorem terminate_resolveStack (c : Cause) (s : State) : (terminate c s).resolveStack = s.resolveStack :=
  by unfold terminate; split <;> rfl
@[simp] theorem terminate_outCount (c : Cause) (s : State) : (terminate c s).outCount = s.outCount :=
  by unfold terminate; split <;> rfl
@[simp] theorem terminate_padPos (c : Cause) (s : State) : (terminate c s).padPos = if c.pads then s.outCount else s.padPos :=
  by unfold terminate; split <;> simp_all
@[simp] theorem terminate_codeCount (c : Cause) (s : State) : (terminate c s).codeCount = s.codeCount :=
  by unfold terminate; split <;> rfl
@[simp] theorem terminate_cause (c : Cause) (s : State) : (terminate c s).cause = c :=
  by unfold terminate; split <;> simp_all
@[simp] theorem terminate_done (c : Cause) (s : State) : (terminate c s).done = if c.pads then s.done else true :=
  by unfold terminate; split <;> simp_all
@[simp] theorem terminate_mincode (c : Cause) (s : State) : (terminate c s).mincode = s.mincode :=
  by unfold terminate; split <;> rfl
@[simp] theorem terminate_interlace (c : Cause) (s : State) : (terminate c s).interlace = s.interlace :=
  by unfold terminate; split <;> rfl
@[simp] theorem terminate_doneIe (c : Cause) (s : State) : (terminate c s).doneIe = s.doneIe :=
  by unfold terminate; split <;> rfl
@[simp] theorem terminate_srcAddr (c : Cause) (s : State) : (terminate c s).srcAddr = s.srcAddr :=
  by unfold terminate; split <;> rfl
@[simp] theorem terminate_srcLen (c : Cause) (s : State) : (terminate c s).srcLen = s.srcLen :=
  by unfold terminate; split <;> rfl
@[simp] theorem terminate_dstAddr (c : Cause) (s : State) : (terminate c s).dstAddr = s.dstAddr :=
  by unfold terminate; split <;> rfl
@[simp] theorem terminate_dimWidth (c : Cause) (s : State) : (terminate c s).dimWidth = s.dimWidth :=
  by unfold terminate; split <;> rfl
@[simp] theorem terminate_dimHeight (c : Cause) (s : State) : (terminate c s).dimHeight = s.dimHeight :=
  by unfold terminate; split <;> rfl
@[simp] theorem terminate_memory (c : Cause) (s : State) : (terminate c s).memory = s.memory :=
  by unfold terminate; split <;> rfl
@[simp] theorem terminate_platform (c : Cause) (s : State) : (terminate c s).platform = s.platform :=
  by unfold terminate; split <;> rfl
@[simp] theorem terminate_schedule (c : Cause) (s : State) : (terminate c s).schedule = s.schedule :=
  by unfold terminate; split <;> rfl
@[simp] theorem terminate_readData (c : Cause) (s : State) : (terminate c s).readData = s.readData :=
  by unfold terminate; split <;> rfl
@[simp] theorem terminate_opResult (c : Cause) (s : State) : (terminate c s).opResult = s.opResult :=
  by unfold terminate; split <;> rfl
@[simp] theorem terminate_busLog (c : Cause) (s : State) : (terminate c s).busLog = s.busLog :=
  by unfold terminate; split <;> rfl
@[simp] theorem terminate_draws (c : Cause) (s : State) : (terminate c s).draws = s.draws :=
  by unfold terminate; split <;> rfl
@[simp] theorem terminate_dictEra (c : Cause) (s : State) : (terminate c s).dictEra = s.dictEra :=
  by unfold terminate; split <;> rfl
@[simp] theorem terminate_m (c : Cause) (s : State) : (terminate c s).m = s.m := by unfold terminate; split <;> rfl
@[simp] theorem terminate_clear (c : Cause) (s : State) : (terminate c s).clear = s.clear :=
  by unfold terminate; split <;> rfl
@[simp] theorem terminate_endCode (c : Cause) (s : State) : (terminate c s).endCode = s.endCode :=
  by unfold terminate; split <;> rfl
@[simp] theorem terminate_pixelCount (c : Cause) (s : State) : (terminate c s).pixelCount = s.pixelCount :=
  by unfold terminate; split <;> rfl
@[simp] theorem terminate_dest (c : Cause) (s : State) (j : Nat) : (terminate c s).dest j = s.dest j :=
  by unfold terminate; split <;> rfl
@[simp] theorem terminate_destAddr (c : Cause) (s : State) (j : Nat) : (terminate c s).destAddr j = s.destAddr j :=
  by unfold terminate; split <;> rfl

/-! ### ABORT (R206) -/

@[simp] theorem abortJob_phase (s : State) : (abortJob s).phase = .idle := by unfold abortJob; split <;> simp_all
@[simp] theorem abortJob_cache (s : State) : (abortJob s).cache = s.cache := by unfold abortJob; split <;> rfl
@[simp] theorem abortJob_bitCount (s : State) : (abortJob s).bitCount = s.bitCount := by unfold abortJob; split <;> rfl
@[simp] theorem abortJob_width (s : State) : (abortJob s).width = s.width := by unfold abortJob; split <;> rfl
@[simp] theorem abortJob_inPos (s : State) : (abortJob s).inPos = s.inPos := by unfold abortJob; split <;> rfl
@[simp] theorem abortJob_dict (s : State) : (abortJob s).dict = s.dict := by unfold abortJob; split <;> rfl
@[simp] theorem abortJob_nextKey (s : State) : (abortJob s).nextKey = s.nextKey := by unfold abortJob; split <;> rfl
@[simp] theorem abortJob_prevCode (s : State) : (abortJob s).prevCode = s.prevCode := by unfold abortJob; split <;> rfl
@[simp] theorem abortJob_prevNone (s : State) : (abortJob s).prevNone = s.prevNone := by unfold abortJob; split <;> rfl
@[simp] theorem abortJob_lastCode (s : State) : (abortJob s).lastCode = s.lastCode := by unfold abortJob; split <;> rfl
@[simp] theorem abortJob_resolveStack (s : State) : (abortJob s).resolveStack = s.resolveStack :=
  by unfold abortJob; split <;> rfl
@[simp] theorem abortJob_outCount (s : State) : (abortJob s).outCount = s.outCount := by unfold abortJob; split <;> rfl
@[simp] theorem abortJob_padPos (s : State) : (abortJob s).padPos = s.padPos := by unfold abortJob; split <;> rfl
@[simp] theorem abortJob_codeCount (s : State) : (abortJob s).codeCount = s.codeCount :=
  by unfold abortJob; split <;> rfl
@[simp] theorem abortJob_mincode (s : State) : (abortJob s).mincode = s.mincode := by unfold abortJob; split <;> rfl
@[simp] theorem abortJob_interlace (s : State) : (abortJob s).interlace = s.interlace :=
  by unfold abortJob; split <;> rfl
@[simp] theorem abortJob_doneIe (s : State) : (abortJob s).doneIe = s.doneIe := by unfold abortJob; split <;> rfl
@[simp] theorem abortJob_srcAddr (s : State) : (abortJob s).srcAddr = s.srcAddr := by unfold abortJob; split <;> rfl
@[simp] theorem abortJob_srcLen (s : State) : (abortJob s).srcLen = s.srcLen := by unfold abortJob; split <;> rfl
@[simp] theorem abortJob_dstAddr (s : State) : (abortJob s).dstAddr = s.dstAddr := by unfold abortJob; split <;> rfl
@[simp] theorem abortJob_dimWidth (s : State) : (abortJob s).dimWidth = s.dimWidth := by unfold abortJob; split <;> rfl
@[simp] theorem abortJob_dimHeight (s : State) : (abortJob s).dimHeight = s.dimHeight :=
  by unfold abortJob; split <;> rfl
@[simp] theorem abortJob_memory (s : State) : (abortJob s).memory = s.memory := by unfold abortJob; split <;> rfl
@[simp] theorem abortJob_platform (s : State) : (abortJob s).platform = s.platform := by unfold abortJob; split <;> rfl
@[simp] theorem abortJob_schedule (s : State) : (abortJob s).schedule = s.schedule := by unfold abortJob; split <;> rfl
@[simp] theorem abortJob_readData (s : State) : (abortJob s).readData = s.readData := by unfold abortJob; split <;> rfl
@[simp] theorem abortJob_opResult (s : State) : (abortJob s).opResult = s.opResult := by unfold abortJob; split <;> rfl
@[simp] theorem abortJob_busLog (s : State) : (abortJob s).busLog = s.busLog := by unfold abortJob; split <;> rfl
@[simp] theorem abortJob_draws (s : State) : (abortJob s).draws = s.draws := by unfold abortJob; split <;> rfl
@[simp] theorem abortJob_dictEra (s : State) : (abortJob s).dictEra = s.dictEra := by unfold abortJob; split <;> rfl
@[simp] theorem abortJob_m (s : State) : (abortJob s).m = s.m := by unfold abortJob; split <;> rfl
@[simp] theorem abortJob_clear (s : State) : (abortJob s).clear = s.clear := by unfold abortJob; split <;> rfl
@[simp] theorem abortJob_endCode (s : State) : (abortJob s).endCode = s.endCode := by unfold abortJob; split <;> rfl
@[simp] theorem abortJob_pixelCount (s : State) : (abortJob s).pixelCount = s.pixelCount :=
  by unfold abortJob; split <;> rfl
@[simp] theorem abortJob_dest (s : State) (j : Nat) : (abortJob s).dest j = s.dest j :=
  by unfold abortJob; split <;> rfl
@[simp] theorem abortJob_destAddr (s : State) (j : Nat) : (abortJob s).destAddr j = s.destAddr j :=
  by unfold abortJob; split <;> rfl

/-! ### ALLOC (R155) -/

@[simp] theorem alloc_phase (s : State) : (alloc s).phase = s.phase := by unfold alloc; split <;> rfl
@[simp] theorem alloc_cache (s : State) : (alloc s).cache = s.cache := by unfold alloc; split <;> rfl
@[simp] theorem alloc_bitCount (s : State) : (alloc s).bitCount = s.bitCount := by unfold alloc; split <;> rfl
@[simp] theorem alloc_width (s : State) : (alloc s).width = s.width := by unfold alloc; split <;> rfl
@[simp] theorem alloc_inPos (s : State) : (alloc s).inPos = s.inPos := by unfold alloc; split <;> rfl
@[simp] theorem alloc_prevCode (s : State) : (alloc s).prevCode = s.prevCode := by unfold alloc; split <;> rfl
@[simp] theorem alloc_prevNone (s : State) : (alloc s).prevNone = s.prevNone := by unfold alloc; split <;> rfl
@[simp] theorem alloc_lastCode (s : State) : (alloc s).lastCode = s.lastCode := by unfold alloc; split <;> rfl
@[simp] theorem alloc_resolveStack (s : State) : (alloc s).resolveStack = s.resolveStack :=
  by unfold alloc; split <;> rfl
@[simp] theorem alloc_outCount (s : State) : (alloc s).outCount = s.outCount := by unfold alloc; split <;> rfl
@[simp] theorem alloc_padPos (s : State) : (alloc s).padPos = s.padPos := by unfold alloc; split <;> rfl
@[simp] theorem alloc_codeCount (s : State) : (alloc s).codeCount = s.codeCount := by unfold alloc; split <;> rfl
@[simp] theorem alloc_cause (s : State) : (alloc s).cause = s.cause := by unfold alloc; split <;> rfl
@[simp] theorem alloc_done (s : State) : (alloc s).done = s.done := by unfold alloc; split <;> rfl
@[simp] theorem alloc_mincode (s : State) : (alloc s).mincode = s.mincode := by unfold alloc; split <;> rfl
@[simp] theorem alloc_interlace (s : State) : (alloc s).interlace = s.interlace := by unfold alloc; split <;> rfl
@[simp] theorem alloc_doneIe (s : State) : (alloc s).doneIe = s.doneIe := by unfold alloc; split <;> rfl
@[simp] theorem alloc_srcAddr (s : State) : (alloc s).srcAddr = s.srcAddr := by unfold alloc; split <;> rfl
@[simp] theorem alloc_srcLen (s : State) : (alloc s).srcLen = s.srcLen := by unfold alloc; split <;> rfl
@[simp] theorem alloc_dstAddr (s : State) : (alloc s).dstAddr = s.dstAddr := by unfold alloc; split <;> rfl
@[simp] theorem alloc_dimWidth (s : State) : (alloc s).dimWidth = s.dimWidth := by unfold alloc; split <;> rfl
@[simp] theorem alloc_dimHeight (s : State) : (alloc s).dimHeight = s.dimHeight := by unfold alloc; split <;> rfl
@[simp] theorem alloc_memory (s : State) : (alloc s).memory = s.memory := by unfold alloc; split <;> rfl
@[simp] theorem alloc_platform (s : State) : (alloc s).platform = s.platform := by unfold alloc; split <;> rfl
@[simp] theorem alloc_schedule (s : State) : (alloc s).schedule = s.schedule := by unfold alloc; split <;> rfl
@[simp] theorem alloc_readData (s : State) : (alloc s).readData = s.readData := by unfold alloc; split <;> rfl
@[simp] theorem alloc_opResult (s : State) : (alloc s).opResult = s.opResult := by unfold alloc; split <;> rfl
@[simp] theorem alloc_busLog (s : State) : (alloc s).busLog = s.busLog := by unfold alloc; split <;> rfl
@[simp] theorem alloc_draws (s : State) : (alloc s).draws = s.draws := by unfold alloc; split <;> rfl
@[simp] theorem alloc_dictEra (s : State) : (alloc s).dictEra = s.dictEra := by unfold alloc; split <;> rfl
@[simp] theorem alloc_m (s : State) : (alloc s).m = s.m := by unfold alloc; split <;> rfl
@[simp] theorem alloc_clear (s : State) : (alloc s).clear = s.clear := by unfold alloc; split <;> rfl
@[simp] theorem alloc_endCode (s : State) : (alloc s).endCode = s.endCode := by unfold alloc; split <;> rfl
@[simp] theorem alloc_pixelCount (s : State) : (alloc s).pixelCount = s.pixelCount := by unfold alloc; split <;> rfl
@[simp] theorem alloc_dest (s : State) (j : Nat) : (alloc s).dest j = s.dest j := by unfold alloc; split <;> rfl
@[simp] theorem alloc_destAddr (s : State) (j : Nat) : (alloc s).destAddr j = s.destAddr j :=
  by unfold alloc; split <;> rfl

/-! ### GROW (R156) -/

@[simp] theorem grow_phase (s : State) : (grow s).phase = s.phase := by unfold grow; split <;> rfl
@[simp] theorem grow_cache (s : State) : (grow s).cache = s.cache := by unfold grow; split <;> rfl
@[simp] theorem grow_bitCount (s : State) : (grow s).bitCount = s.bitCount := by unfold grow; split <;> rfl
@[simp] theorem grow_inPos (s : State) : (grow s).inPos = s.inPos := by unfold grow; split <;> rfl
@[simp] theorem grow_dict (s : State) : (grow s).dict = s.dict := by unfold grow; split <;> rfl
@[simp] theorem grow_nextKey (s : State) : (grow s).nextKey = s.nextKey := by unfold grow; split <;> rfl
@[simp] theorem grow_prevCode (s : State) : (grow s).prevCode = s.prevCode := by unfold grow; split <;> rfl
@[simp] theorem grow_prevNone (s : State) : (grow s).prevNone = s.prevNone := by unfold grow; split <;> rfl
@[simp] theorem grow_lastCode (s : State) : (grow s).lastCode = s.lastCode := by unfold grow; split <;> rfl
@[simp] theorem grow_resolveStack (s : State) : (grow s).resolveStack = s.resolveStack := by unfold grow; split <;> rfl
@[simp] theorem grow_outCount (s : State) : (grow s).outCount = s.outCount := by unfold grow; split <;> rfl
@[simp] theorem grow_padPos (s : State) : (grow s).padPos = s.padPos := by unfold grow; split <;> rfl
@[simp] theorem grow_codeCount (s : State) : (grow s).codeCount = s.codeCount := by unfold grow; split <;> rfl
@[simp] theorem grow_cause (s : State) : (grow s).cause = s.cause := by unfold grow; split <;> rfl
@[simp] theorem grow_done (s : State) : (grow s).done = s.done := by unfold grow; split <;> rfl
@[simp] theorem grow_mincode (s : State) : (grow s).mincode = s.mincode := by unfold grow; split <;> rfl
@[simp] theorem grow_interlace (s : State) : (grow s).interlace = s.interlace := by unfold grow; split <;> rfl
@[simp] theorem grow_doneIe (s : State) : (grow s).doneIe = s.doneIe := by unfold grow; split <;> rfl
@[simp] theorem grow_srcAddr (s : State) : (grow s).srcAddr = s.srcAddr := by unfold grow; split <;> rfl
@[simp] theorem grow_srcLen (s : State) : (grow s).srcLen = s.srcLen := by unfold grow; split <;> rfl
@[simp] theorem grow_dstAddr (s : State) : (grow s).dstAddr = s.dstAddr := by unfold grow; split <;> rfl
@[simp] theorem grow_dimWidth (s : State) : (grow s).dimWidth = s.dimWidth := by unfold grow; split <;> rfl
@[simp] theorem grow_dimHeight (s : State) : (grow s).dimHeight = s.dimHeight := by unfold grow; split <;> rfl
@[simp] theorem grow_memory (s : State) : (grow s).memory = s.memory := by unfold grow; split <;> rfl
@[simp] theorem grow_platform (s : State) : (grow s).platform = s.platform := by unfold grow; split <;> rfl
@[simp] theorem grow_schedule (s : State) : (grow s).schedule = s.schedule := by unfold grow; split <;> rfl
@[simp] theorem grow_readData (s : State) : (grow s).readData = s.readData := by unfold grow; split <;> rfl
@[simp] theorem grow_opResult (s : State) : (grow s).opResult = s.opResult := by unfold grow; split <;> rfl
@[simp] theorem grow_busLog (s : State) : (grow s).busLog = s.busLog := by unfold grow; split <;> rfl
@[simp] theorem grow_draws (s : State) : (grow s).draws = s.draws := by unfold grow; split <;> rfl
@[simp] theorem grow_dictEra (s : State) : (grow s).dictEra = s.dictEra := by unfold grow; split <;> rfl
@[simp] theorem grow_m (s : State) : (grow s).m = s.m := by unfold grow; split <;> rfl
@[simp] theorem grow_clear (s : State) : (grow s).clear = s.clear := by unfold grow; split <;> rfl
@[simp] theorem grow_endCode (s : State) : (grow s).endCode = s.endCode := by unfold grow; split <;> rfl
@[simp] theorem grow_pixelCount (s : State) : (grow s).pixelCount = s.pixelCount := by unfold grow; split <;> rfl
@[simp] theorem grow_dest (s : State) (j : Nat) : (grow s).dest j = s.dest j := by unfold grow; split <;> rfl
@[simp] theorem grow_destAddr (s : State) (j : Nat) : (grow s).destAddr j = s.destAddr j :=
  by unfold grow; split <;> rfl

/-! ### ALLOC and GROW (R155 to R157) -/

@[simp] theorem allocGrow_phase (s : State) : (allocGrow s).phase = s.phase := by unfold allocGrow; split <;> simp
@[simp] theorem allocGrow_cache (s : State) : (allocGrow s).cache = s.cache := by unfold allocGrow; split <;> simp
@[simp] theorem allocGrow_bitCount (s : State) : (allocGrow s).bitCount = s.bitCount :=
  by unfold allocGrow; split <;> simp
@[simp] theorem allocGrow_inPos (s : State) : (allocGrow s).inPos = s.inPos := by unfold allocGrow; split <;> simp
@[simp] theorem allocGrow_prevCode (s : State) : (allocGrow s).prevCode = s.prevCode :=
  by unfold allocGrow; split <;> simp
@[simp] theorem allocGrow_prevNone (s : State) : (allocGrow s).prevNone = s.prevNone :=
  by unfold allocGrow; split <;> simp
@[simp] theorem allocGrow_lastCode (s : State) : (allocGrow s).lastCode = s.lastCode :=
  by unfold allocGrow; split <;> simp
@[simp] theorem allocGrow_resolveStack (s : State) : (allocGrow s).resolveStack = s.resolveStack :=
  by unfold allocGrow; split <;> simp
@[simp] theorem allocGrow_outCount (s : State) : (allocGrow s).outCount = s.outCount :=
  by unfold allocGrow; split <;> simp
@[simp] theorem allocGrow_padPos (s : State) : (allocGrow s).padPos = s.padPos := by unfold allocGrow; split <;> simp
@[simp] theorem allocGrow_codeCount (s : State) : (allocGrow s).codeCount = s.codeCount :=
  by unfold allocGrow; split <;> simp
@[simp] theorem allocGrow_cause (s : State) : (allocGrow s).cause = s.cause := by unfold allocGrow; split <;> simp
@[simp] theorem allocGrow_done (s : State) : (allocGrow s).done = s.done := by unfold allocGrow; split <;> simp
@[simp] theorem allocGrow_mincode (s : State) : (allocGrow s).mincode = s.mincode := by unfold allocGrow; split <;> simp
@[simp] theorem allocGrow_interlace (s : State) : (allocGrow s).interlace = s.interlace :=
  by unfold allocGrow; split <;> simp
@[simp] theorem allocGrow_doneIe (s : State) : (allocGrow s).doneIe = s.doneIe := by unfold allocGrow; split <;> simp
@[simp] theorem allocGrow_srcAddr (s : State) : (allocGrow s).srcAddr = s.srcAddr := by unfold allocGrow; split <;> simp
@[simp] theorem allocGrow_srcLen (s : State) : (allocGrow s).srcLen = s.srcLen := by unfold allocGrow; split <;> simp
@[simp] theorem allocGrow_dstAddr (s : State) : (allocGrow s).dstAddr = s.dstAddr := by unfold allocGrow; split <;> simp
@[simp] theorem allocGrow_dimWidth (s : State) : (allocGrow s).dimWidth = s.dimWidth :=
  by unfold allocGrow; split <;> simp
@[simp] theorem allocGrow_dimHeight (s : State) : (allocGrow s).dimHeight = s.dimHeight :=
  by unfold allocGrow; split <;> simp
@[simp] theorem allocGrow_memory (s : State) : (allocGrow s).memory = s.memory := by unfold allocGrow; split <;> simp
@[simp] theorem allocGrow_platform (s : State) : (allocGrow s).platform = s.platform :=
  by unfold allocGrow; split <;> simp
@[simp] theorem allocGrow_schedule (s : State) : (allocGrow s).schedule = s.schedule :=
  by unfold allocGrow; split <;> simp
@[simp] theorem allocGrow_readData (s : State) : (allocGrow s).readData = s.readData :=
  by unfold allocGrow; split <;> simp
@[simp] theorem allocGrow_opResult (s : State) : (allocGrow s).opResult = s.opResult :=
  by unfold allocGrow; split <;> simp
@[simp] theorem allocGrow_busLog (s : State) : (allocGrow s).busLog = s.busLog := by unfold allocGrow; split <;> simp
@[simp] theorem allocGrow_draws (s : State) : (allocGrow s).draws = s.draws := by unfold allocGrow; split <;> simp
@[simp] theorem allocGrow_dictEra (s : State) : (allocGrow s).dictEra = s.dictEra := by unfold allocGrow; split <;> simp
@[simp] theorem allocGrow_m (s : State) : (allocGrow s).m = s.m := by unfold allocGrow; split <;> simp
@[simp] theorem allocGrow_clear (s : State) : (allocGrow s).clear = s.clear := by unfold allocGrow; split <;> simp
@[simp] theorem allocGrow_endCode (s : State) : (allocGrow s).endCode = s.endCode := by unfold allocGrow; split <;> simp
@[simp] theorem allocGrow_pixelCount (s : State) : (allocGrow s).pixelCount = s.pixelCount :=
  by unfold allocGrow; split <;> simp
@[simp] theorem allocGrow_dest (s : State) (j : Nat) : (allocGrow s).dest j = s.dest j :=
  by unfold allocGrow; split <;> simp
@[simp] theorem allocGrow_destAddr (s : State) (j : Nat) : (allocGrow s).destAddr j = s.destAddr j :=
  by unfold allocGrow; split <;> simp
/-! ### What reset leaves (R53, R280) -/

theorem resetBlock_eq (s : State) : resetBlock s = { State.reset with
    memory := s.memory, platform := s.platform, schedule := s.schedule, readData := s.readData, draws := s.draws, dictEra := s.dictEra + 1 } := rfl

end Sys2Proof.Machine
end

