-- ==== Sys2Proof/Laws/Ops.lean ====
section
/-! SUPPORT. One lemma per shared operation that says everything it can do; provers cite these instead of unfolding it. -/

namespace Sys2Proof.Machine

/-! ### Sequencing -/

@[simp] theorem Eng.andThen_go {α β : Type} (a : α) (s : State) (k : α → State → Eng β) :
    (Eng.go a s).andThen k = k a s := rfl
@[simp] theorem Eng.andThen_ended {α β : Type} (s : State) (k : α → State → Eng β) :
    (Eng.ended s : Eng α).andThen k = .ended s := rfl
@[simp] theorem Eng.andThen_fault {α β : Type} (f : Fault) (k : α → State → Eng β) :
    (Eng.fault f : Eng α).andThen k = .fault f := rfl
@[simp] theorem Eng.outcome_go (u : Unit) (s : State) : (Eng.go u s).outcome = .next s := rfl
@[simp] theorem Eng.outcome_ended (s : State) : (Eng.ended s : Eng Unit).outcome = .next s := rfl
@[simp] theorem Eng.outcome_fault (f : Fault) : (Eng.fault f : Eng Unit).outcome = .fault f := rfl

/-- A sequence goes on only through its first part. -/
theorem Eng.andThen_eq_go {α β : Type} {x : Eng α} {k : α → State → Eng β} {b : β} {t : State}
    (h : x.andThen k = .go b t) : ∃ a s, x = .go a s ∧ k a s = .go b t := by
  cases x with
  | go a s => exact ⟨a, s, rfl, h⟩
  | ended s => cases h
  | fault f => cases h

/-- A sequence has ended in its first part or in the rest. -/
theorem Eng.andThen_eq_ended {α β : Type} {x : Eng α} {k : α → State → Eng β} {t : State}
    (h : x.andThen k = .ended t) : x = .ended t ∨ ∃ a s, x = .go a s ∧ k a s = .ended t := by
  cases x with
  | go a s => exact .inr ⟨a, s, rfl, h⟩
  | ended s => cases h; exact .inl rfl
  | fault f => cases h

/-- A step that answers a next state went through or ended there. -/
theorem Eng.outcome_eq_next {x : Eng Unit} {t : State} (h : x.outcome = .next t) : x = .go () t ∨ x = .ended t := by
  cases x with
  | go a s => cases h; exact .inl rfl
  | ended s => cases h; exact .inr rfl
  | fault f => cases h

/-! ### The end of a job (R255, R256) -/

theorem terminate_pads {c : Cause} (h : c.pads = true) (s : State) :
    terminate c s = { s with cause := c, phase := .pad, padPos := s.outCount } := by
  unfold terminate; rw [if_pos h]

theorem terminate_completes {c : Cause} (h : c.pads = false) (s : State) :
    terminate c s = { s with cause := c, phase := .idle, done := true } := by
  unfold terminate; rw [if_neg (by simp [h])]; rfl

theorem abortJob_busy {s : State} (h : s.phase ≠ .idle) :
    abortJob s = { s with phase := .idle, cause := .aborted, done := true } := by
  unfold abortJob; rw [if_neg h]

theorem abortJob_idle {s : State} (h : s.phase = .idle) : abortJob s = s := by
  unfold abortJob; rw [if_pos h]

/-! ### The memory master port (R64, R65) -/

theorem memRead_admitted {a : Nat} {s : State} (ha : a < Config.busSize) (h : s.platform.admits a 1 .read = true) :
    memRead a s = .go (s.memory.read a) { s with busLog := s.busLog ++ [.read a] } := by
  unfold memRead; rw [if_pos ha, if_pos h]

theorem memRead_refused {a : Nat} {s : State} (ha : a < Config.busSize) (h : s.platform.admits a 1 .read = false) :
    memRead a s = .ended (terminate .busError { s with busLog := s.busLog ++ [.readRefused a] }) := by
  unfold memRead; rw [if_pos ha, if_neg (by simp [h])]

theorem memRead_outside {a : Nat} {s : State} (ha : Config.busSize ≤ a) : memRead a s = .fault .outsideBusSpace := by
  unfold memRead; rw [if_neg (by omega)]

theorem memWrite_admitted {a : Nat} {v : Half} {s : State} (ha : a + 1 < Config.busSize)
    (h : s.platform.admits a 2 .write = true) :
    memWrite a v s = .go () { s with memory := s.memory.writeHalf a v, busLog := s.busLog ++ [.write a v] } := by
  unfold memWrite; rw [if_pos ha, if_pos h]

theorem memWrite_refused {a : Nat} {v : Half} {s : State} (ha : a + 1 < Config.busSize)
    (h : s.platform.admits a 2 .write = false) :
    memWrite a v s = .ended (terminate .busError { s with busLog := s.busLog ++ [.writeRefused a v] }) := by
  unfold memWrite; rw [if_pos ha, if_neg (by simp [h])]

theorem memWrite_outside {a : Nat} {v : Half} {s : State} (ha : Config.busSize ≤ a + 1) :
    memWrite a v s = .fault .outsideBusSpace := by
  unfold memWrite; rw [if_neg (by omega)]

/-- Everything `memWrite` can do. -/
theorem memWrite_cases (a : Nat) (v : Half) (s : State) :
    (a + 1 < Config.busSize ∧ s.platform.admits a 2 .write = true
        ∧ memWrite a v s = .go () { s with memory := s.memory.writeHalf a v, busLog := s.busLog ++ [.write a v] })
    ∨ (a + 1 < Config.busSize ∧ s.platform.admits a 2 .write = false
        ∧ memWrite a v s = .ended (terminate .busError { s with busLog := s.busLog ++ [.writeRefused a v] }))
    ∨ (Config.busSize ≤ a + 1 ∧ memWrite a v s = .fault .outsideBusSpace) := by
  by_cases ha : a + 1 < Config.busSize
  · cases h : s.platform.admits a 2 .write
    · exact .inr (.inl ⟨ha, rfl, memWrite_refused ha h⟩)
    · exact .inl ⟨ha, rfl, memWrite_admitted ha h⟩
  · exact .inr (.inr ⟨by omega, memWrite_outside (by omega)⟩)

/-- Everything `memRead` can do. -/
theorem memRead_cases (a : Nat) (s : State) :
    (a < Config.busSize ∧ s.platform.admits a 1 .read = true
        ∧ memRead a s = .go (s.memory.read a) { s with busLog := s.busLog ++ [.read a] })
    ∨ (a < Config.busSize ∧ s.platform.admits a 1 .read = false
        ∧ memRead a s = .ended (terminate .busError { s with busLog := s.busLog ++ [.readRefused a] }))
    ∨ (Config.busSize ≤ a ∧ memRead a s = .fault .outsideBusSpace) := by
  by_cases ha : a < Config.busSize
  · cases h : s.platform.admits a 1 .read
    · exact .inr (.inl ⟨ha, rfl, memRead_refused ha h⟩)
    · exact .inl ⟨ha, rfl, memRead_admitted ha h⟩
  · exact .inr (.inr ⟨by omega, memRead_outside (by omega)⟩)

/-! ### The output writer (R180, R185) -/

/-- Everything `emit` can do. -/
theorem emit_cases (v : Code) (s : State) :
    (s.outCount.toNat < s.pixelCount ∧ s.destAddr s.outCount.toNat + 1 < Config.busSize
        ∧ s.platform.admits (s.destAddr s.outCount.toNat) 2 .write = true
        ∧ emit v s = .go () { s with
            memory := s.memory.writeHalf (s.destAddr s.outCount.toNat) (v.setWidth 16)
            busLog := s.busLog ++ [.write (s.destAddr s.outCount.toNat) (v.setWidth 16)]
            outCount := s.outCount + 1 })
    ∨ (s.outCount.toNat < s.pixelCount ∧ s.destAddr s.outCount.toNat + 1 < Config.busSize
        ∧ s.platform.admits (s.destAddr s.outCount.toNat) 2 .write = false
        ∧ emit v s
          = .ended (terminate .busError
              { s with busLog := s.busLog ++ [.writeRefused (s.destAddr s.outCount.toNat) (v.setWidth 16)] }))
    ∨ (s.outCount.toNat < s.pixelCount ∧ Config.busSize ≤ s.destAddr s.outCount.toNat + 1
        ∧ emit v s = .fault .outsideBusSpace)
    ∨ (s.pixelCount ≤ s.outCount.toNat ∧ emit v s = .go () s) := by
  by_cases hN : s.outCount.toNat < s.pixelCount
  · unfold emit
    rw [if_pos hN]
    rcases memWrite_cases (s.destAddr s.outCount.toNat) (v.setWidth 16) s with ⟨ha, hm, h⟩ | ⟨ha, hm, h⟩ | ⟨ha, h⟩
    · exact .inl ⟨hN, ha, hm, by rw [h]; rfl⟩
    · exact .inr (.inl ⟨hN, ha, hm, by rw [h]; rfl⟩)
    · exact .inr (.inr (.inl ⟨hN, ha, by rw [h]; rfl⟩))
  · exact .inr (.inr (.inr ⟨by omega, by unfold emit; rw [if_neg hN]⟩))

/-- Everything `padStep` can do. -/
theorem padStep_cases (s : State) :
    (s.pixelCount ≤ s.padPos.toNat ∧ padStep s = .go () (complete s))
    ∨ (s.padPos.toNat < s.pixelCount ∧ s.destAddr s.padPos.toNat + 1 < Config.busSize
        ∧ s.platform.admits (s.destAddr s.padPos.toNat) 2 .write = true
        ∧ padStep s = .go () { s with
            memory := s.memory.writeHalf (s.destAddr s.padPos.toNat) 0
            busLog := s.busLog ++ [.write (s.destAddr s.padPos.toNat) 0]
            padPos := s.padPos + 1 })
    ∨ (s.padPos.toNat < s.pixelCount ∧ s.destAddr s.padPos.toNat + 1 < Config.busSize
        ∧ s.platform.admits (s.destAddr s.padPos.toNat) 2 .write = false
        ∧ padStep s = .ended (terminate .busError
              { s with busLog := s.busLog ++ [.writeRefused (s.destAddr s.padPos.toNat) 0] }))
    ∨ (s.padPos.toNat < s.pixelCount ∧ Config.busSize ≤ s.destAddr s.padPos.toNat + 1
        ∧ padStep s = .fault .outsideBusSpace) := by
  by_cases hN : s.pixelCount ≤ s.padPos.toNat
  · exact .inl ⟨hN, by unfold padStep; rw [if_pos hN]⟩
  · unfold padStep
    rw [if_neg hN]
    rcases memWrite_cases (s.destAddr s.padPos.toNat) 0 s with ⟨ha, hm, h⟩ | ⟨ha, hm, h⟩ | ⟨ha, h⟩
    · exact .inr (.inl ⟨by omega, ha, hm, by rw [h]; rfl⟩)
    · exact .inr (.inr (.inl ⟨by omega, ha, hm, by rw [h]; rfl⟩))
    · exact .inr (.inr (.inr ⟨by omega, ha, by rw [h]; rfl⟩))

/-- Emitting a sequence writes memory, the access record and `P`, nothing else. -/
theorem emitAll_go_frame : ∀ {vs : List Code} {s t : State}, emitAll vs s = .go () t →
    t = { s with memory := t.memory, busLog := t.busLog, outCount := t.outCount }
  | [], s, t, h => by cases h; rfl
  | v :: vs, s, t, h => by
    obtain ⟨_, s1, h1, h2⟩ := Eng.andThen_eq_go h
    have ih := emitAll_go_frame h2
    rcases emit_cases v s with ⟨_, _, _, he⟩ | ⟨_, _, _, he⟩ | ⟨_, _, he⟩ | ⟨_, he⟩ <;> rw [he] at h1 <;> cases h1 <;>
      exact ih

/-! ### The dictionary engine (R155, R156) -/

theorem alloc_room {s : State} (h : s.nextKey.toNat < Config.maxEntries) :
    alloc s = { s with dict := Dict.write s.dict s.nextKey.toNat ⟨s.prevCode, s.lastCode⟩, nextKey := s.nextKey + 1 } := by
  unfold alloc; rw [if_pos h]

theorem alloc_full {s : State} (h : Config.maxEntries ≤ s.nextKey.toNat) : alloc s = s := by
  unfold alloc; rw [if_neg (by omega)]

theorem allocGrow_full {s : State} (h : Config.maxEntries ≤ s.nextKey.toNat) : allocGrow s = s := by
  unfold allocGrow; rw [if_neg (by omega)]

theorem allocGrow_room {s : State} (h : s.nextKey.toNat < Config.maxEntries) :
    allocGrow s = grow { s with dict := Dict.write s.dict s.nextKey.toNat ⟨s.prevCode, s.lastCode⟩,
                                nextKey := s.nextKey + 1 } := by
  unfold allocGrow; rw [if_pos h, alloc_room h]

/-! ### The walk (R150, R151) -/

theorem resolveWalk_unallocated {s : State} {c : Code} (h : s.allocated c.toNat = false) (room : Nat) (stack : List Code) :
    resolveWalk s room c stack = none := by
  cases room with
  | zero => rfl
  | succ n => unfold resolveWalk; rw [if_neg (by simp [h])]

/-- The walk ends at a literal. -/
theorem resolveWalk_literal {s : State} {c : Code} (h : c.toNat < s.clear) (room : Nat) (stack : List Code) :
    resolveWalk s (room + 1) c stack = some ((s.entry c.toNat).suf :: stack) := by
  unfold resolveWalk
  rw [if_pos (by simp [State.allocated, h]), if_pos (by omega)]

/-- The walk follows the link of an allocated entry past END. -/
theorem resolveWalk_link {s : State} {c : Code} (h : s.allocated c.toNat = true) (hc : s.clear < c.toNat) (room : Nat)
    (stack : List Code) :
    resolveWalk s (room + 1) c stack = resolveWalk s room (s.entry c.toNat).pre ((s.entry c.toNat).suf :: stack) := by
  conv => lhs; unfold resolveWalk
  rw [if_pos h, if_neg (by omega)]

/-- What lies under the stack stays under the result. -/
theorem resolveWalk_append {s : State} : ∀ (room : Nat) (c : Code) (st base seq : List Code),
    resolveWalk s room c st = some seq → resolveWalk s room c (st ++ base) = some (seq ++ base)
  | 0, _, _, _, _, h => by cases h
  | room + 1, c, st, base, seq, h => by
    unfold resolveWalk at h ⊢
    split at h
    case isFalse => cases h
    case isTrue ha =>
      rw [if_pos ha]
      split at h
      case isTrue hc => cases h; rw [if_pos hc]; simp
      case isFalse hc => rw [if_neg hc]; exact resolveWalk_append room _ _ base _ h

/-- A walk puts at least one value, and at most as many as there was room for, on what was on the stack. -/
theorem resolveWalk_length {s : State} : ∀ {room : Nat} {c : Code} {stack r : List Code},
    resolveWalk s room c stack = some r → stack.length < r.length ∧ r.length ≤ stack.length + room
  | 0, _, _, _, h => by cases h
  | room + 1, c, stack, r, h => by
    unfold resolveWalk at h
    split at h
    case isFalse => cases h
    case isTrue =>
      split at h
      case isTrue => cases h; simp
      case isFalse =>
        have := resolveWalk_length h
        simp only [List.length_cons] at this
        omega

/-- A resolved sequence is never empty (R150). -/
theorem resolve_ne_nil {s : State} {c : Code} {seq : List Code} (h : resolve c s = some seq) : seq ≠ [] := by
  have := (resolveWalk_length h).1
  rintro rfl
  simp at this

/-- A literal resolves to its own suffix (R152). -/
theorem resolve_literal {s : State} {c : Code} (h : c.toNat < s.clear) : resolve c s = some [(s.entry c.toNat).suf] :=
  resolveWalk_literal h _ _

/-! ### START -/

theorem startJob_busy {s : State} (h : s.phase ≠ .idle) : startJob s = .next s := by
  unfold startJob; rw [if_neg h]

end Sys2Proof.Machine
end

