-- ==== Sys2Proof/Laws/BitReader.lean ====
section
/-! SUPPORT. The bit-unpacker: READ returns the stream bits at the stream position and advances it (40_bitreader.md R124 to R128). -/

namespace Sys2Proof.Machine

/-- A value whose bits from `k` on are 0 is below `2^k`. -/
theorem lt_two_pow_of_bits {n : Nat} {x : BitVec n} {k : Nat} (h : ∀ t, k ≤ t → x.getLsbD t = false) : x.toNat < 2 ^ k := by
  apply Nat.lt_pow_two_of_testBit
  intro i hi
  exact h i hi

/-- The bits of a value below `2^k` are 0 from `k` on. -/
theorem bits_of_lt {n : Nat} {x : BitVec n} {k : Nat} (h : x.toNat < 2 ^ k) : ∀ t, k ≤ t → x.getLsbD t = false := by
  intro t ht
  exact Nat.testBit_lt_two_pow (Nat.lt_of_lt_of_le h (Nat.pow_le_pow_right (by decide) ht))

/-- A number whose low `w` bits are the stream bits from `pos` has the stream's value as its remainder (R62). -/
theorem mod_eq_streamValue (s : State) : ∀ (w x pos : Nat), (∀ t, t < w → x.testBit t = s.streamBit (pos + t)) →
    x % 2 ^ w = s.streamValue pos w
  | 0, x, pos, _ => by simp [State.streamValue, Nat.mod_one]
  | w + 1, x, pos, h => by
    have h0 := h 0 (by omega)
    have ih := mod_eq_streamValue s w (x / 2) (pos + 1) (fun t ht => by
      rw [← Nat.testBit_succ, h (t + 1) (by omega)]; congr 1; omega)
    unfold State.streamValue
    rw [← ih, Nat.pow_succ, Nat.mul_comm, Nat.mod_mul, ← show x.testBit 0 = s.streamBit pos from by simpa using h0]
    congr 1
    rw [Nat.testBit_zero]
    rcases Nat.mod_two_eq_zero_or_one x with h | h <;> simp [h]

/-- Extraction is the remainder by `2^width` (R125). -/
theorem lowCode_toNat {s : State} (hw : s.width.toNat ≤ 12) : (lowCode s).toNat = s.cache.toNat % 2 ^ s.width.toNat := by
  unfold lowCode
  have h1 : 2 ^ s.width.toNat ≤ 2 ^ 12 := Nat.pow_le_pow_right (by decide) hw
  have h0 : 0 < 2 ^ s.width.toNat := by positivity
  rw [BitVec.toNat_setWidth, BitVec.toNat_and, BitVec.toNat_ofNat, Nat.mod_eq_of_lt (by omega : 2 ^ s.width.toNat - 1 < 2 ^ 19),
    Nat.and_two_pow_sub_one_eq_mod, Nat.mod_eq_of_lt]
  exact Nat.lt_of_lt_of_le (Nat.mod_lt _ h0) h1

/-- The part of the unpacker's invariant that the fill loop keeps at every pass. -/
structure FillInv (s : State) : Prop where
  cacheBound : s.cache.toNat < 2 ^ s.bitCount.toNat
  pulled : s.inPos.toNat ≤ s.srcLen.toNat
  pulledEnough : s.bitCount.toNat ≤ 8 * s.inPos.toNat
  cacheIsStream : ∀ t, t < s.bitCount.toNat → s.cache.getLsbD t = s.streamBit (s.bitPos + t)
/-- The engine's reads so far are the bytes pulled, in order (R82). -/
def ReadsInOrder (s : State) : Prop := s.readsMade = (List.range s.inPos.toNat).map (s.srcAddr.toNat + ·)

/-- One pull keeps the unpacker's invariant and the stream position (R124, R127). -/
theorem pull_inv {s : State} (h : FillInv s) (hb : s.bitCount.toNat ≤ 11) (hi : s.inPos.toNat < s.srcLen.toNat) :
    let t := pushByte (s.memory.read (s.srcAddr.toNat + s.inPos.toNat))
        { s with busLog := s.busLog ++ [.read (s.srcAddr.toNat + s.inPos.toNat)] }
    FillInv t ∧ t.bitCount.toNat = s.bitCount.toNat + 8 ∧ t.inPos.toNat = s.inPos.toNat + 1 ∧ t.bitPos = s.bitPos
      ∧ (ReadsInOrder s → ReadsInOrder t) := by
  intro t
  have hbc : t.bitCount.toNat = s.bitCount.toNat + 8 := by
    simp only [t, pushByte_bitCount, BitVec.toNat_add]; simp; omega
  have hip : t.inPos.toNat = s.inPos.toNat + 1 := by
    have := s.srcLen.isLt
    simp only [t, pushByte_inPos, BitVec.toNat_add]; simp; omega
  have hpe := h.pulledEnough
  have hpos : t.bitPos = s.bitPos := by unfold State.bitPos; rw [hbc, hip]; omega
  have hbit : ∀ i, t.streamBit i = s.streamBit i := fun i => rfl
  have hc : ∀ i, i < 19 → t.cache.getLsbD i = (s.cache.getLsbD i ||
      (!decide (i < s.bitCount.toNat) && (s.memory.read (s.srcAddr.toNat + s.inPos.toNat)).getLsbD (i - s.bitCount.toNat))) := by
    intro i hi
    simp only [t, pushByte_cache, BitVec.getLsbD_or, BitVec.getLsbD_shiftLeft, BitVec.getLsbD_setWidth]
    simp [hi, show i - s.bitCount.toNat < 19 by omega]
  refine ⟨⟨?_, ?_, ?_, ?_⟩, hbc, hip, hpos, fun hrd => ?_⟩
  · rw [hbc]
    apply lt_two_pow_of_bits
    intro i hi
    by_cases h19 : i < 19
    · rw [hc i h19, bits_of_lt h.cacheBound i (by omega), BitVec.getLsbD_of_ge _ (i - s.bitCount.toNat) (by omega)]; simp
    · exact BitVec.getLsbD_of_ge _ _ (by omega)
  · rw [hip]; exact hi
  · rw [hbc, hip]; omega
  · intro i hi
    rw [hbc] at hi
    rw [hpos, hbit, hc i (by omega)]
    by_cases hlt : i < s.bitCount.toNat
    · rw [h.cacheIsStream i hlt]; simp [hlt]
    · rw [bits_of_lt h.cacheBound i (by omega)]
      simp only [hlt, decide_false, Bool.not_false, Bool.true_and, Bool.false_or]
      unfold State.streamBit
      have e : s.bitPos + i = 8 * s.inPos.toNat + (i - s.bitCount.toNat) := by unfold State.bitPos; omega
      rw [e, show (8 * s.inPos.toNat + (i - s.bitCount.toNat)) / 8 = s.inPos.toNat by omega,
        show (8 * s.inPos.toNat + (i - s.bitCount.toNat)) % 8 = i - s.bitCount.toNat by omega]
  · have hr : t.readsMade = s.readsMade ++ [s.srcAddr.toNat + s.inPos.toNat] := by simp [t, State.readsMade]
    unfold ReadsInOrder at hrd ⊢
    rw [hip, List.range_succ, List.map_append, hr, hrd]
    rfl

/-- The stream's value from `pos` on, taken in two parts (R62). -/
theorem streamValue_add (s : State) : ∀ (a b pos : Nat),
    s.streamValue pos (a + b) = s.streamValue pos a + 2 ^ a * s.streamValue (pos + a) b
  | 0, b, pos => by simp [State.streamValue]
  | a + 1, b, pos => by
    rw [show a + 1 + b = (a + b) + 1 by omega]
    show (s.streamBit pos).toNat + 2 * s.streamValue (pos + 1) (a + b)
      = (s.streamBit pos).toNat + 2 * s.streamValue (pos + 1) a + 2 ^ (a + 1) * s.streamValue (pos + (a + 1)) b
    rw [streamValue_add s a b (pos + 1), show pos + (a + 1) = pos + 1 + a by omega]
    ring

/-- A payload byte is the value of its eight stream bits (R62). -/
theorem streamValue_byte (s : State) (k : Nat) :
    s.streamValue (8 * k) 8 = (s.memory.read (s.srcAddr.toNat + k)).toNat := by
  rw [← mod_eq_streamValue s 8 (s.memory.read (s.srcAddr.toNat + k)).toNat (8 * k) fun t ht => by
    unfold State.streamBit
    rw [show (8 * k + t) / 8 = k by omega, show (8 * k + t) % 8 = t by omega]
    rfl]
  exact Nat.mod_eq_of_lt (s.memory.read (s.srcAddr.toNat + k)).isLt

/-- A byte pulled stands above the valid bits (R124). -/
theorem pushByte_cache_toNat {s : State} (b : Byte) (hb : s.bitCount.toNat ≤ 11) (hc : s.cache.toNat < 2 ^ s.bitCount.toNat) :
    (pushByte b s).cache.toNat = s.cache.toNat + 2 ^ s.bitCount.toNat * b.toNat := by
  have hlt : b.toNat < 2 ^ 8 := b.isLt
  have h2 : b.toNat * 2 ^ s.bitCount.toNat < 2 ^ 19 :=
    Nat.lt_of_lt_of_le (Nat.mul_lt_mul_of_pos_right hlt (by positivity))
      (by rw [← Nat.pow_add]; exact Nat.pow_le_pow_right (by decide) (by omega))
  rw [pushByte_cache, BitVec.toNat_or, BitVec.toNat_shiftLeft, BitVec.toNat_setWidth,
    Nat.mod_eq_of_lt (Nat.lt_trans hlt (by decide)), Nat.shiftLeft_eq, Nat.mod_eq_of_lt h2, Nat.or_comm, Nat.mul_comm, ← Nat.two_pow_add_eq_or_of_lt hc, Nat.add_comm]

/-- The fill loop when the bus takes `k` more bytes and refuses the next one that is needed (R127, R253). -/
theorem fillLoop_refused : ∀ (k fuel : Nat) (s : State), k < fuel → s.bitCount.toNat + 8 * k < s.width.toNat →
    s.inPos.toNat + k < s.srcLen.toNat → s.srcAddr.toNat + s.srcLen.toNat ≤ Config.busSize →
    (∀ i, i < k → s.platform.admits (s.srcAddr.toNat + s.inPos.toNat + i) 1 .read = true) →
    s.platform.admits (s.srcAddr.toNat + s.inPos.toNat + k) 1 .read = false →
    ∃ t, fillLoop fuel s = .ended t ∧ t.inPos.toNat = s.inPos.toNat + k ∧ t.bitCount.toNat = s.bitCount.toNat + 8 * k ∧
      (k = 0 → t.cache = s.cache) ∧
      (s.cache.toNat < 2 ^ s.bitCount.toNat →
        t.cache.toNat = s.cache.toNat + 2 ^ s.bitCount.toNat * s.streamValue (8 * s.inPos.toNat) (8 * k)) ∧
      t = { s with
        phase := .idle, cause := .busError, done := true, cache := t.cache, bitCount := t.bitCount, inPos := t.inPos,
        busLog := t.busLog }
  | _, 0, _, hk, _, _, _, _, _ => by omega
  | 0, fuel + 1, s, _, hw, hi, hf, _, hr => by
    refine ⟨{ s with
      phase := .idle, cause := .busError, done := true,
      busLog := s.busLog ++ [.readRefused (s.srcAddr.toNat + s.inPos.toNat)] }, ?_, rfl, rfl, fun _ => rfl,
      fun _ => by simp [State.streamValue], rfl⟩
    unfold fillLoop
    rw [if_pos (by omega), if_neg (by omega), memRead_refused (by omega) (by simpa using hr), terminate_completes rfl]
    rfl
  | k + 1, fuel + 1, s, hk, hw, hi, hf, ha, hr => by
    have hw4 := s.width.isLt
    have hl := s.srcLen.isLt
    set u := pushByte (s.memory.read (s.srcAddr.toNat + s.inPos.toNat))
      { s with busLog := s.busLog ++ [.read (s.srcAddr.toNat + s.inPos.toNat)] } with hu
    have hub : u.bitCount.toNat = s.bitCount.toNat + 8 := by
      simp only [hu, pushByte_bitCount, BitVec.toNat_add]; simp; omega
    have hui : u.inPos.toNat = s.inPos.toNat + 1 := by
      simp only [hu, pushByte_inPos, BitVec.toNat_add]; simp; omega
    have hadr : ∀ i, u.srcAddr.toNat + u.inPos.toNat + i = s.srcAddr.toNat + s.inPos.toNat + (i + 1) := fun i => by
      rw [hui, show u.srcAddr = s.srcAddr from rfl]; omega
    obtain ⟨t, e, e1, e2, _, e4, e5⟩ := fillLoop_refused k fuel u (by omega)
      (by rw [hub]; show _ < s.width.toNat; omega) (by rw [hui]; show _ < s.srcLen.toNat; omega) hf
      (fun i hlt => by rw [hadr]; exact ha _ (by omega)) (by rw [hadr]; exact hr)
    refine ⟨t, ?_, by omega, by omega, fun h => by omega, fun hc => ?_, e5⟩
    · unfold fillLoop
      rw [if_pos (by omega), if_neg (by omega), memRead_admitted (by omega) (by simpa using ha 0 (by omega)), Eng.andThen_go]
      exact e
    · have huc : u.cache.toNat = s.cache.toNat + 2 ^ s.bitCount.toNat * (s.memory.read (s.srcAddr.toNat + s.inPos.toNat)).toNat :=
        pushByte_cache_toNat (s := { s with busLog := s.busLog ++ [.read (s.srcAddr.toNat + s.inPos.toNat)] }) _
          (by show s.bitCount.toNat ≤ 11; omega) hc
      have hval : ∀ n pos, u.streamValue pos n = s.streamValue pos n := by
        intro n
        induction n with
        | zero => intro; rfl
        | succ n ih => intro pos; unfold State.streamValue; rw [ih]; rfl
      have hlt := (s.memory.read (s.srcAddr.toNat + s.inPos.toNat)).isLt
      have hub' : u.cache.toNat < 2 ^ u.bitCount.toNat := by
        rw [huc, hub, Nat.pow_add]
        have : 2 ^ s.bitCount.toNat * ((s.memory.read (s.srcAddr.toNat + s.inPos.toNat)).toNat + 1) ≤ 2 ^ s.bitCount.toNat * 2 ^ 8 :=
          Nat.mul_le_mul_left _ hlt
        rw [Nat.mul_add] at this
        omega
      rw [e4 hub', huc, hub, hui, hval, show 8 * (k + 1) = 8 + 8 * k by omega, streamValue_add, streamValue_byte,
        show 8 * (s.inPos.toNat + 1) = 8 * s.inPos.toNat + 8 by omega, Nat.pow_add]
      ring

/-- Everything the fill loop can do (R124, R126, R127). -/
theorem fillLoop_inv : ∀ (fuel : Nat) (s : State), FillInv s → s.bitCount.toNat + 8 * fuel ≤ 23 → s.width.toNat ≤ 12 →
    s.width.toNat ≤ s.bitCount.toNat + 8 * fuel →
    s.srcAddr.toNat + s.srcLen.toNat ≤ Config.busSize →
    (∃ t, fillLoop fuel s = .go true t ∧ FillInv t ∧ (ReadsInOrder s → ReadsInOrder t) ∧ t.bitPos = s.bitPos ∧
        s.width.toNat ≤ t.bitCount.toNat ∧
        t.bitCount.toNat ≤ max s.bitCount.toNat (s.width.toNat + 7) ∧ t.writesMade = s.writesMade ∧
        t = { s with cache := t.cache, bitCount := t.bitCount, inPos := t.inPos, busLog := t.busLog })
    ∨ (∃ t, fillLoop fuel s = .go false t ∧ FillInv t ∧ (ReadsInOrder s → ReadsInOrder t) ∧ t.bitPos = s.bitPos ∧ t.bitCount.toNat < s.width.toNat ∧
        t.writesMade = s.writesMade ∧ t.inPos = t.srcLen ∧
        t = { s with cache := t.cache, bitCount := t.bitCount, inPos := t.inPos, busLog := t.busLog })
    ∨ (∃ t, fillLoop fuel s = .ended t ∧ t.phase = .idle ∧ t.memory = s.memory ∧ t.dict = s.dict ∧
        t.resolveStack = s.resolveStack ∧ t.done = true ∧ t.cause = .busError ∧ t.writesMade = s.writesMade ∧
        t = { s with phase := .idle, cause := .busError, done := true, cache := t.cache, bitCount := t.bitCount, inPos := t.inPos,
                     busLog := t.busLog })
  | 0, s, h, _, _, hw, _ => .inl ⟨s, rfl, h, id, rfl, by omega, by omega, rfl, rfl⟩
  | fuel + 1, s, h, hf, hw, hwf, hsrc => by
    by_cases hbw : s.bitCount.toNat < s.width.toNat
    · by_cases hend : s.srcLen.toNat ≤ s.inPos.toNat
      · refine .inr (.inl ⟨s, ?_, h, id, rfl, hbw, rfl, ?_, rfl⟩)
        · unfold fillLoop; rw [if_pos hbw, if_pos hend]
        · exact BitVec.eq_of_toNat_eq (Nat.le_antisymm h.pulled hend)
      · have hi : s.inPos.toNat < s.srcLen.toNat := by omega
        have ha : s.srcAddr.toNat + s.inPos.toNat < Config.busSize := by omega
        have hu : fillLoop (fuel + 1) s = (memRead (s.srcAddr.toNat + s.inPos.toNat) s).andThen
            fun b s => fillLoop fuel (pushByte b s) := by
          conv => lhs; unfold fillLoop
          rw [if_pos hbw, if_neg hend]
        cases had : s.platform.admits (s.srcAddr.toNat + s.inPos.toNat) 1 .read
        · refine .inr (.inr ⟨_, by rw [hu, memRead_refused ha had]; rfl, ?_⟩)
          rw [terminate_completes rfl]
          exact ⟨rfl, rfl, rfl, rfl, rfl, rfl, by simp [State.writesMade], rfl⟩
        · rw [hu, memRead_admitted ha had, Eng.andThen_go]
          obtain ⟨h1, h2, h3, h4, h5⟩ := pull_inv h (by omega) hi
          have ih := fillLoop_inv fuel _ h1 (by rw [h2]; omega) hw (by simp only [pushByte_width]; omega) hsrc
          have hwr : (pushByte (s.memory.read (s.srcAddr.toNat + s.inPos.toNat))
              { s with busLog := s.busLog ++ [.read (s.srcAddr.toNat + s.inPos.toNat)] }).writesMade = s.writesMade := by
            simp [State.writesMade]
          rcases ih with ⟨t, e1, e2, er, e3, e4, e5, e6, e7⟩ | ⟨t, e1, e2, er, e3, e4, e5, e6, e7⟩ | ⟨t, e1, e2⟩
          · refine .inl ⟨t, e1, e2, er ∘ h5, e3.trans h4, e4, ?_, e6.trans hwr, e7⟩
            rw [h2] at e5; simp only [pushByte_width] at e5; omega
          · exact .inr (.inl ⟨t, e1, e2, er ∘ h5, e3.trans h4, e4, e5.trans hwr, e6, e7⟩)
          · exact .inr (.inr ⟨t, e1, e2.1, e2.2.1, e2.2.2.1, e2.2.2.2.1, e2.2.2.2.2.1, e2.2.2.2.2.2.1,
              e2.2.2.2.2.2.2.1.trans hwr, e2.2.2.2.2.2.2.2⟩)
    · refine .inl ⟨s, ?_, h, id, rfl, by omega, by omega, rfl, rfl⟩
      unfold fillLoop; rw [if_neg hbw]

/-- Extraction keeps the unpacker's invariant and advances the stream position by the width (R125, R33). -/
theorem drop_inv {s : State} (h : FillInv s) (hw : s.width.toNat ≤ s.bitCount.toNat) (hw' : s.width.toNat ≤ 12) :
    FillInv (dropCode s) ∧ (ReadsInOrder s → ReadsInOrder (dropCode s)) ∧ (dropCode s).bitCount.toNat = s.bitCount.toNat - s.width.toNat ∧
      (dropCode s).bitPos = s.bitPos + s.width.toNat := by
  have hbc : (dropCode s).bitCount.toNat = s.bitCount.toNat - s.width.toNat := by
    have := s.bitCount.isLt
    rw [dropCode_bitCount, BitVec.toNat_sub, BitVec.toNat_setWidth]; omega
  have hpe := h.pulledEnough
  have hpos : (dropCode s).bitPos = s.bitPos + s.width.toNat := by
    unfold State.bitPos; rw [hbc, dropCode_inPos]; omega
  refine ⟨⟨?_, h.pulled, ?_, ?_⟩, id, hbc, hpos⟩
  · rw [hbc]
    apply lt_two_pow_of_bits
    intro t ht
    rw [dropCode_cache, BitVec.getLsbD_ushiftRight]
    exact bits_of_lt h.cacheBound _ (by omega)
  · rw [hbc, dropCode_inPos]; omega
  · intro t ht
    rw [hbc] at ht
    rw [dropCode_cache, BitVec.getLsbD_ushiftRight, h.cacheIsStream _ (by omega), hpos,
      show s.bitPos + s.width.toNat + t = s.bitPos + (s.width.toNat + t) by omega]
    rfl

/-- The extracted code is the stream's value at the stream position (R62, R125). -/
theorem lowCode_stream {s : State} (h : FillInv s) (hw : s.width.toNat ≤ s.bitCount.toNat) (hw' : s.width.toNat ≤ 12) :
    (lowCode s).toNat = s.streamValue s.bitPos s.width.toNat := by
  rw [lowCode_toNat hw']
  exact mod_eq_streamValue s _ _ _ fun t ht => h.cacheIsStream t (by omega)

/-- What extraction leaves alone. -/
theorem drop_frame {s : State} : ∀ {t : State} {ca bc ip bl},
    t = { s with cache := ca, bitCount := bc, inPos := ip, busLog := bl } →
    dropCode t = { s with cache := (dropCode t).cache, bitCount := (dropCode t).bitCount, inPos := (dropCode t).inPos,
                          busLog := (dropCode t).busLog, codeCount := s.codeCount + 1 } := by
  rintro _ _ _ _ _ rfl; rfl

/-- Everything READ can do from a state of the unpacker's invariant (R124 to R127). -/
theorem readCode_inv {s : State} (h : FillInv s) (hb : s.bitCount.toNat ≤ 7) (hw : s.width.toNat ≤ 12)
    (hsrc : s.srcAddr.toNat + s.srcLen.toNat ≤ Config.busSize) :
    (∃ c t, readCode s = .go (some c) t ∧ FillInv t ∧ (ReadsInOrder s → ReadsInOrder t) ∧ c.toNat = s.streamValue s.bitPos s.width.toNat ∧
        t.bitPos = s.bitPos + s.width.toNat ∧ t.bitCount.toNat ≤ 7 ∧ t.writesMade = s.writesMade ∧
        t = { s with cache := t.cache, bitCount := t.bitCount, inPos := t.inPos, busLog := t.busLog, codeCount := s.codeCount + 1 })
    ∨ (∃ t, readCode s = .go none t ∧ FillInv t ∧ (ReadsInOrder s → ReadsInOrder t) ∧ t.bitPos = s.bitPos ∧ t.bitCount.toNat < s.width.toNat ∧
        t.writesMade = s.writesMade ∧ t.inPos = t.srcLen ∧
        t = { s with cache := t.cache, bitCount := t.bitCount, inPos := t.inPos, busLog := t.busLog })
    ∨ (∃ t, readCode s = .ended t ∧ t.phase = .idle ∧ t.memory = s.memory ∧ t.dict = s.dict ∧
        t.resolveStack = s.resolveStack ∧ t.done = true ∧ t.cause = .busError ∧ t.writesMade = s.writesMade ∧
        t = { s with phase := .idle, cause := .busError, done := true, cache := t.cache, bitCount := t.bitCount, inPos := t.inPos,
                     busLog := t.busLog }) := by
  unfold readCode fill
  rcases fillLoop_inv 2 s h (by omega) hw (by omega) hsrc with
    ⟨t, e1, e2, er, e3, e4, e5, e6, e7⟩ | ⟨t, e1, e2, er, e3, e4, e5, e6, e7⟩ | ⟨t, e1, e2⟩
  · have tw : t.width = s.width := by rw [e7]
    obtain ⟨d1, dr, d2, d3⟩ := drop_inv e2 (by rw [tw]; exact e4) (by rw [tw]; exact hw)
    refine .inl ⟨lowCode t, dropCode t, by rw [e1]; rfl, d1, dr ∘ er, ?_, ?_, ?_, ?_, ?_⟩
    · rw [lowCode_stream e2 (by rw [tw]; exact e4) (by rw [tw]; exact hw), e3, tw]
      have : ∀ n pos, t.streamValue pos n = s.streamValue pos n := by
        intro n; induction n with
        | zero => intro; rfl
        | succ n ih => intro pos; unfold State.streamValue; rw [ih, show t.streamBit pos = s.streamBit pos from by unfold State.streamBit; rw [e7]]
      exact this _ _
    · rw [d3, e3, tw]
    · rw [d2, tw]; omega
    · simpa [State.writesMade] using e6
    · exact drop_frame e7
  · exact .inr (.inl ⟨t, by rw [e1]; rfl, e2, er, e3, e4, e5, e6, e7⟩)
  · exact .inr (.inr ⟨t, by rw [e1]; rfl, e2⟩)

/-- The fill loop of a readable payload meets no bus error. -/
theorem fillLoop_notEnded : ∀ (fuel : Nat) {s : State}, s.Readable → (∃ b t, fillLoop fuel s = .go b t)
  | 0, s, _ => ⟨_, _, rfl⟩
  | fuel + 1, s, h => by
    unfold fillLoop
    split
    · split
      · exact ⟨_, _, rfl⟩
      · rw [memRead_admitted (by have := h.sourceFits; omega) (h.admitted _ (by omega)), Eng.andThen_go]
        exact fillLoop_notEnded fuel ⟨h.1, h.2⟩
    · exact ⟨_, _, rfl⟩

/-- READ of a readable payload meets no bus error. -/
theorem readCode_notEnded {s : State} (h : s.Readable) : ∃ c t, readCode s = .go c t := by
  obtain ⟨b, t, e⟩ := fillLoop_notEnded 2 h
  unfold readCode fill
  rw [e, Eng.andThen_go]
  cases b
  · exact ⟨_, _, rfl⟩
  · exact ⟨_, _, rfl⟩

/-- READ of a readable payload: a code exactly when the payload still holds a whole one (R124 to R126). -/
theorem readCode_readable {s : State} (h : FillInv s) (hb : s.bitCount.toNat ≤ 7) (hw : s.width.toNat ≤ 12) (hr : s.Readable) :
    (∃ c t, readCode s = .go (some c) t ∧ FillInv t ∧ (ReadsInOrder s → ReadsInOrder t) ∧ c.toNat = s.streamValue s.bitPos s.width.toNat ∧
        t.bitPos = s.bitPos + s.width.toNat ∧ t.bitCount.toNat ≤ 7 ∧ t.writesMade = s.writesMade ∧
        t = { s with cache := t.cache, bitCount := t.bitCount, inPos := t.inPos, busLog := t.busLog, codeCount := s.codeCount + 1 } ∧
        s.bitPos + s.width.toNat ≤ 8 * s.srcLen.toNat)
    ∨ (∃ t, readCode s = .go none t ∧ FillInv t ∧ (ReadsInOrder s → ReadsInOrder t) ∧ t.bitPos = s.bitPos ∧ t.bitCount.toNat < s.width.toNat ∧
        t.writesMade = s.writesMade ∧ t.inPos = t.srcLen ∧
        t = { s with cache := t.cache, bitCount := t.bitCount, inPos := t.inPos, busLog := t.busLog } ∧
        8 * s.srcLen.toNat < s.bitPos + s.width.toNat) := by
  rcases readCode_inv h hb hw hr.1 with ⟨c, t, e, f, fr, e1, e2, e3, e4, e5⟩ | ⟨t, e, f, fr, e1, e2, e3, e4, e5⟩ | ⟨t, e, _⟩
  · refine .inl ⟨c, t, e, f, fr, e1, e2, e3, e4, e5, ?_⟩
    rw [← e2]
    have := f.pulled
    have e6 : t.srcLen = s.srcLen := by rw [e5]
    rw [← e6]
    unfold State.bitPos
    omega
  · refine .inr ⟨t, e, f, fr, e1, e2, e3, e4, e5, ?_⟩
    rw [← e1]
    have h7 := f.pulledEnough
    have e6 : t.srcLen = s.srcLen := by rw [e5]
    unfold State.bitPos
    rw [e4] at h7 ⊢
    rw [e6] at h7 ⊢
    omega
  · obtain ⟨c, u, e'⟩ := readCode_notEnded hr
    rw [e'] at e; cases e

end Sys2Proof.Machine
end

