-- ==== Sys2Proof/Laws/Output.lean ====
section
/-! SUPPORT. The output writer: the output map and the invariants `emit` and PAD_STEP keep (42_output.md R180 to R190). -/

namespace Sys2Proof.Machine

/-- Every arrival row goes to a row of the frame (R183). -/
theorem deintRow_lt {h k : Nat} (hk : k < h) : deintRow h k < h := by
  unfold deintRow; simp only; split_ifs <;> omega

/-- No two arrival rows go to one row (R183). -/
theorem deintRow_inj {h k l : Nat} (hk : k < h) (hl : l < h) (e : deintRow h k = deintRow h l) : k = l := by
  unfold deintRow at e; simp only at e; split_ifs at e <;> omega

/-- Every arrival position goes to an element of the frame (R183). -/
theorem deint_lt {w h j : Nat} (hj : j < w * h) : deint w h j < w * h := by
  unfold deint
  have hw : 0 < w := Nat.pos_of_ne_zero (by rintro rfl; omega)
  have h1 : j / w < h := Nat.div_lt_of_lt_mul hj
  have h2 := deintRow_lt h1
  have h3 := Nat.mod_lt j hw
  calc _ < deintRow h (j / w) * w + w := by omega
    _ = (deintRow h (j / w) + 1) * w := by ring
    _ ≤ h * w := Nat.mul_le_mul_right _ h2
    _ = w * h := Nat.mul_comm _ _

/-- No two arrival positions go to one element (R183). -/
theorem deint_inj {w h i j : Nat} (hi : i < w * h) (hj : j < w * h) (e : deint w h i = deint w h j) : i = j := by
  unfold deint at e
  have hw : 0 < w := Nat.pos_of_ne_zero (by rintro rfl; omega)
  have m1 := Nat.mod_lt i hw
  have m2 := Nat.mod_lt j hw
  have e1 : deintRow h (i / w) = deintRow h (j / w) := by
    have := congrArg (· / w) e
    simpa [Nat.mul_comm _ w, Nat.mul_add_div hw, Nat.div_eq_of_lt m1, Nat.div_eq_of_lt m2] using this
  have e2 : i % w = j % w := by rw [e1] at e; omega
  have e3 := deintRow_inj (Nat.div_lt_of_lt_mul hi) (Nat.div_lt_of_lt_mul hj) e1
  rw [← Nat.div_add_mod i w, ← Nat.div_add_mod j w, e2, e3]

/-- `dest` stays inside the output (R181). -/
theorem dest_lt {s : State} {j : Nat} (hj : j < s.pixelCount) : s.dest j < s.pixelCount := by
  unfold State.dest; split
  · exact deint_lt hj
  · exact hj

/-- `dest` is injective (R181). -/
theorem dest_inj {s : State} {i j : Nat} (hi : i < s.pixelCount) (hj : j < s.pixelCount) (e : s.dest i = s.dest j) : i = j := by
  unfold State.dest at e; split at e
  · exact deint_inj hi hj e
  · exact e
/-- `N` fits in 32 bits (R23). -/
theorem pixelCount_lt (s : State) : s.pixelCount < 2 ^ 32 := by
  unfold State.pixelCount
  have h1 := s.dimWidth.isLt
  have h2 := s.dimHeight.isLt
  calc _ ≤ (2^16 - 1) * (2^16 - 1) := Nat.mul_le_mul (by omega) (by omega)
    _ < _ := by norm_num

/-- Disjoint buffers share no byte (R77). -/
theorem overlap_false {s : State} (h : s.buffersOverlap = false) {k d : Nat} (hk : k < s.srcLen.toNat) (hd : d < s.pixelCount) :
    s.srcAddr.toNat + k ≠ s.dstAddr.toNat + 2 * d ∧ s.srcAddr.toNat + k ≠ s.dstAddr.toNat + 2 * d + 1 := by
  unfold State.buffersOverlap at h
  simp only [Bool.and_eq_false_iff, decide_eq_false_iff_not] at h
  omega

/-- An output address lies inside the bus space (R71). -/
theorem destAddr_fits {s : State} (hc : s.ConfigOk) {j : Nat} (hj : j < s.pixelCount) : s.destAddr j + 1 < Config.busSize := by
  have := hc.outputFits
  have := dest_lt hj
  unfold State.destAddr; omega

/-- Two output elements share no byte. -/
theorem destAddr_apart {s : State} {i j : Nat} (hi : i < s.pixelCount) (hj : j < s.pixelCount) (h : i ≠ j) :
    s.destAddr i + 1 < s.destAddr j ∨ s.destAddr j + 1 < s.destAddr i := by
  have : s.dest i ≠ s.dest j := fun e => h (dest_inj hi hj e)
  unfold State.destAddr; omega

/-- A write inside the output buffer keeps the unpacker's invariant (R77). -/
theorem unpacker_write {s : State} (hc : s.ConfigOk) (h : s.UnpackerInv) {j : Nat} (hj : j < s.pixelCount) (v : Half)
    {t : State} (ht : t = { s with memory := s.memory.writeHalf (s.destAddr j) v, busLog := t.busLog, outCount := t.outCount, padPos := t.padPos }) :
    t.UnpackerInv := by
  have hs : ∀ i, i < 8 * s.srcLen.toNat → t.streamBit i = s.streamBit i := by
    intro i hi
    rw [ht]
    unfold State.streamBit
    simp only
    rw [Memory.read_writeHalf_other]
    · exact (overlap_false hc.disjoint (by omega) (dest_lt hj)).1
    · exact (overlap_false hc.disjoint (by omega) (dest_lt hj)).2
  have hb : t.bitPos = s.bitPos := by rw [ht]; rfl
  constructor
  · rw [ht]; exact h.widthLow
  · rw [ht]; exact h.widthHigh
  · rw [ht]; exact h.cacheBound
  · rw [ht]; exact h.bitsLow
  · rw [ht]; exact h.bitsAtEnd
  · rw [ht]; exact h.pulled
  · rw [ht]; exact h.pulledEnough
  · intro i hi
    have h1 : t.cache = s.cache := by rw [ht]
    have h2 : t.bitCount = s.bitCount := by rw [ht]
    rw [h2] at hi
    rw [h1, h.cacheIsStream i hi, hb, hs]
    have := h.pulled
    have := h.pulledEnough
    unfold State.bitPos
    omega

/-- A DECODE step that ends the job keeps what the output writer has written (R191, R253). -/
theorem State.OutputInv.ended {s : State} (ho : s.OutputInv) (hph : s.phase = .decode) {c : Cause} {log : List BusEvent}
    (hr : ({ s with busLog := log } : State).readsMade = s.readsMade)
    (hw : ({ s with busLog := log } : State).writesMade = s.writesMade) :
    ({ s with cause := c, busLog := log, phase := .idle, done := true } : State).OutputInv := by
  have harr : s.arrived = s.outCount.toNat := by simp [State.arrived, hph]
  have hw' : ({ s with cause := c, busLog := log, phase := .idle, done := true } : State).writesMade = s.writesMade := hw
  refine ⟨ho.countBound, fun h => (by cases h), fun h => (by cases h), hr.trans ho.reads, ?_, fun j hj => ?_, ho.values,
    fun j h1 h2 => ?_⟩
  · rw [hw', ho.writes, harr]; rfl
  · rw [hw']; exact ho.landed j (by rw [harr]; exact hj)
  · exact ho.zeros j h1 (by rw [harr]; exact h2)

/-- Everything `emit` can do in a running job: it goes on with the invariants, or the job has ended. -/
theorem emit_inv {s : State} (hph : s.phase = .decode) (hc : s.ConfigOk) (hu : s.UnpackerInv) (ho : s.OutputInv)
    (hm : s.memory.wf) {v : Code} (hv : v.toNat < s.clear ∨ v.toNat = s.clear + 2) :
    (∃ t, emit v s = .go () t ∧ t.UnpackerInv ∧ t.OutputInv ∧ t.memory.wf ∧
        t = { s with memory := t.memory, busLog := t.busLog, outCount := t.outCount })
    ∨ (∃ t, emit v s = .ended t ∧ t.phase = .idle ∧ t.memory.wf ∧ t.dict = s.dict ∧ t.resolveStack = s.resolveStack ∧ t.done = true
        ∧ t.OutputInv) := by
  rcases emit_cases v s with ⟨hN, ha, had, he⟩ | ⟨hN, ha, had, he⟩ | ⟨hN, ha, he⟩ | ⟨hN, he⟩
  · refine .inl ⟨_, he, unpacker_write hc hu hN _ rfl, ?_, Memory.writeHalf_wf hm ha _, rfl⟩
    have hP : (s.outCount + 1).toNat = s.outCount.toNat + 1 := by
      have := pixelCount_lt s
      rw [BitVec.toNat_add]; simp; omega
    have harr : s.arrived = s.outCount.toNat := by simp [State.arrived, hph]
    have hread : ∀ j, j < s.outCount.toNat →
        (s.memory.writeHalf (s.destAddr s.outCount.toNat) (v.setWidth 16)).readHalf (s.destAddr j)
          = s.memory.readHalf (s.destAddr j) := fun j hj =>
      Memory.readHalf_writeHalf_other _ _ (destAddr_apart (by omega) hN (by omega))
    have hsame := Memory.readHalf_writeHalf_same hm.1 (s.destAddr s.outCount.toNat) (v.setWidth 16)
    have hvn : (v.setWidth 16).toNat = v.toNat := by simp; omega
    have hlen : s.writesMade.length = s.outCount.toNat := by
      have := congrArg List.length ho.writes
      simpa [harr] using this
    set t : State := { s with
            memory := s.memory.writeHalf (s.destAddr s.outCount.toNat) (v.setWidth 16)
            busLog := s.busLog ++ [.write (s.destAddr s.outCount.toNat) (v.setWidth 16)]
            outCount := s.outCount + 1 } with ht
    have hta : t.arrived = s.outCount.toNat + 1 := by
      show (if s.phase = .pad then s.padPos.toNat else (s.outCount + 1).toNat) = _
      rw [if_neg (by simp [hph]), hP]
    have htw : t.writesMade = s.writesMade ++ [(s.destAddr s.outCount.toNat, v.setWidth 16)] := by
      simp [State.writesMade, ht]
    constructor
    · show (s.outCount + 1).toNat ≤ s.pixelCount
      rw [hP]; omega
    · intro h; rw [ht] at h; simp [hph] at h
    · intro h; rw [ht] at h; simp [hph] at h
    · have : t.readsMade = s.readsMade := by simp [State.readsMade, ht]
      rw [this]; exact ho.reads
    · rw [hta, htw, List.map_append, ho.writes, harr, List.range_succ, List.map_append]; rfl
    · intro j hj
      rw [hta] at hj
      rw [htw]
      by_cases hjP : j = s.outCount.toNat
      · subst hjP
        rw [List.getElem?_append_right (by omega), hlen]
        simp only [Nat.sub_self, List.getElem?_cons_zero, Option.map_some, Option.some.injEq]
        exact hsame.symm
      · rw [List.getElem?_append_left (by omega), ho.landed j (by omega)]
        exact congrArg some (hread j (by omega)).symm
    · intro j hj
      have hj : j < (s.outCount + 1).toNat := hj
      rw [hP] at hj
      show ((s.memory.writeHalf (s.destAddr s.outCount.toNat) (v.setWidth 16)).readHalf (s.destAddr j)).toNat < s.clear
        ∨ ((s.memory.writeHalf (s.destAddr s.outCount.toNat) (v.setWidth 16)).readHalf (s.destAddr j)).toNat = s.clear + 2
      by_cases hjP : j = s.outCount.toNat
      · subst hjP; rw [hsame, hvn]; exact hv
      · rw [hread j (by omega)]; exact ho.values j (by omega)
    · intro j h1 h2
      have h1 : (s.outCount + 1).toNat ≤ j := h1
      omega
  · refine .inr ⟨_, he, by simp [Cause.pads], by simpa using hm, by simp, by simp, by simp [Cause.pads], ?_⟩
    rw [terminate_completes rfl]
    exact ho.ended hph (by simp [State.readsMade]) (by simp [State.writesMade])
  · exact absurd (destAddr_fits hc hN) (by omega)
  · exact .inl ⟨s, he, hu, ho, hm, rfl⟩

/-- The same for a sequence. -/
theorem emitAll_inv : ∀ (vs : List Code) {s : State}, s.phase = .decode → s.ConfigOk → s.UnpackerInv → s.OutputInv →
    s.memory.wf → (∀ v ∈ vs, v.toNat < s.clear ∨ v.toNat = s.clear + 2) →
    (∃ t, emitAll vs s = .go () t ∧ t.UnpackerInv ∧ t.OutputInv ∧ t.memory.wf ∧
        t = { s with memory := t.memory, busLog := t.busLog, outCount := t.outCount })
    ∨ (∃ t, emitAll vs s = .ended t ∧ t.phase = .idle ∧ t.memory.wf ∧ t.dict = s.dict ∧ t.resolveStack = s.resolveStack ∧ t.done = true
        ∧ t.OutputInv)
  | [], s, _, _, hu, ho, hm, _ => .inl ⟨s, rfl, hu, ho, hm, rfl⟩
  | v :: vs, s, hph, hc, hu, ho, hm, hv => by
    rcases emit_inv hph hc hu ho hm (hv v (by simp)) with ⟨t, e, hu', ho', hm', ht⟩ | ⟨t, e, h⟩
    · have hph' : t.phase = .decode := by rw [ht]; exact hph
      have hc' : t.ConfigOk := by rw [ht]; exact ⟨hc.1, hc.2, hc.3, hc.4, hc.5⟩
      have hcl : t.clear = s.clear := by rw [ht]; rfl
      rcases emitAll_inv vs hph' hc' hu' ho' hm' (fun w hw => by rw [hcl]; exact hv w (by simp [hw])) with
        ⟨u, e', hu'', ho'', hm'', hu3⟩ | ⟨u, e', h⟩
      · refine .inl ⟨u, by unfold emitAll; rw [e]; exact e', hu'', ho'', hm'', ?_⟩
        rw [hu3, ht]
      · refine .inr ⟨u, by unfold emitAll; rw [e]; exact e', h.1, h.2.1, ?_, ?_, h.2.2.2.2⟩
        · rw [h.2.2.1, ht]
        · rw [h.2.2.2.1, ht]
    · exact .inr ⟨t, by unfold emitAll; rw [e]; rfl, h⟩

/-- Everything PAD_STEP can do in a running job (R185). -/
theorem padStep_inv {s : State} (hph : s.phase = .pad) (hc : s.ConfigOk) (hu : s.UnpackerInv) (ho : s.OutputInv)
    (hm : s.memory.wf) :
    (∃ t, padStep s = .go () t ∧ t = complete s ∧ s.pixelCount ≤ s.padPos.toNat)
    ∨ (∃ t, padStep s = .go () t ∧ t.UnpackerInv ∧ t.OutputInv ∧ t.memory.wf ∧ t.padPos.toNat = s.padPos.toNat + 1 ∧
        s.padPos.toNat < s.pixelCount ∧
        t = { s with memory := t.memory, busLog := t.busLog, padPos := t.padPos })
    ∨ (∃ t, padStep s = .ended t ∧ t.phase = .idle ∧ t.memory.wf ∧ t.dict = s.dict ∧ t.resolveStack = s.resolveStack ∧ t.done = true) := by
  rcases padStep_cases s with ⟨hN, he⟩ | ⟨hN, ha, had, he⟩ | ⟨hN, ha, had, he⟩ | ⟨hN, ha, he⟩
  · exact .inl ⟨_, he, rfl, hN⟩
  · have hP : (s.padPos + 1).toNat = s.padPos.toNat + 1 := by
      have := pixelCount_lt s
      rw [BitVec.toNat_add]; simp; omega
    refine .inr (.inl ⟨_, he, unpacker_write hc hu hN _ rfl, ?_, Memory.writeHalf_wf hm ha 0, hP, hN, rfl⟩)
    have harr : s.arrived = s.padPos.toNat := by simp [State.arrived, hph]
    have hread : ∀ j, j < s.padPos.toNat →
        (s.memory.writeHalf (s.destAddr s.padPos.toNat) 0).readHalf (s.destAddr j)
          = s.memory.readHalf (s.destAddr j) := fun j hj =>
      Memory.readHalf_writeHalf_other _ _ (destAddr_apart (by omega) hN (by omega))
    have hsame := Memory.readHalf_writeHalf_same hm.1 (s.destAddr s.padPos.toNat) 0
    have hlen : s.writesMade.length = s.padPos.toNat := by
      have := congrArg List.length ho.writes
      simpa [harr] using this
    have hPP := ho.padLow hph
    set t : State := { s with
            memory := s.memory.writeHalf (s.destAddr s.padPos.toNat) 0
            busLog := s.busLog ++ [.write (s.destAddr s.padPos.toNat) 0]
            padPos := s.padPos + 1 } with ht
    have hta : t.arrived = s.padPos.toNat + 1 := by
      show (if s.phase = .pad then (s.padPos + 1).toNat else s.outCount.toNat) = _
      rw [if_pos hph, hP]
    have htw : t.writesMade = s.writesMade ++ [(s.destAddr s.padPos.toNat, 0)] := by
      simp [State.writesMade, ht]
    constructor
    · exact ho.countBound
    · intro _; show _ ≤ (s.padPos + 1).toNat; rw [hP]; exact Nat.le_succ_of_le hPP
    · intro _; show (s.padPos + 1).toNat ≤ s.pixelCount; rw [hP]; exact hN
    · have : t.readsMade = s.readsMade := by simp [State.readsMade, ht]
      rw [this]; exact ho.reads
    · rw [hta, htw, List.map_append, ho.writes, harr, List.range_succ, List.map_append]; rfl
    · intro j hj
      rw [hta] at hj
      rw [htw]
      by_cases hjP : j = s.padPos.toNat
      · subst hjP
        rw [List.getElem?_append_right (by omega), hlen]
        simp only [Nat.sub_self, List.getElem?_cons_zero, Option.map_some, Option.some.injEq]
        exact hsame.symm
      · rw [List.getElem?_append_left (by omega), ho.landed j (by omega)]
        exact congrArg some (hread j (by omega)).symm
    · intro j hj
      have hj : j < s.outCount.toNat := hj
      show ((s.memory.writeHalf (s.destAddr s.padPos.toNat) 0).readHalf (s.destAddr j)).toNat < s.clear
        ∨ ((s.memory.writeHalf (s.destAddr s.padPos.toNat) 0).readHalf (s.destAddr j)).toNat = s.clear + 2
      rw [hread j (by omega)]; exact ho.values j (by omega)
    · intro j h1 h2
      rw [hta] at h2
      show (s.memory.writeHalf (s.destAddr s.padPos.toNat) 0).readHalf (s.destAddr j) = 0
      by_cases hjP : j = s.padPos.toNat
      · subst hjP; exact hsame
      · rw [hread j (by omega)]; exact ho.zeros j h1 (by omega)
  · refine .inr (.inr ⟨_, he, by simp [Cause.pads], ?_, by simp, by simp, by simp [Cause.pads]⟩)
    simpa using hm
  · exact absurd (destAddr_fits hc hN) (by omega)

/-- `P` below `N` is counted without wrapping. -/
theorem outCount_succ {s : State} (h : s.outCount.toNat < s.pixelCount) : (s.outCount + 1).toNat = s.outCount.toNat + 1 := by
  have := pixelCount_lt s
  rw [BitVec.toNat_add]; simp; omega

/-- A halfword write keeps the keys rising. -/
theorem Memory.writeHalf_rising {m : Memory} (h : Sparse.Rising m) (a : Nat) (v : Half) : Sparse.Rising (m.writeHalf a v) :=
  Memory.write_rising (Memory.write_rising h _ _) _ _

/-- An output address lies inside the bus space when the output buffer does (R71). -/
theorem destAddr_lt {s : State} (h : s.dstAddr.toNat + 2 * s.pixelCount ≤ Config.busSize) {j : Nat} (hj : j < s.pixelCount) : s.destAddr j + 1 < Config.busSize := by
  have := dest_lt hj
  unfold State.destAddr; omega

/-- `emit` into a writable output with room (R180). -/
theorem emit_writable {s : State} (h : s.Writable) (hN : s.outCount.toNat < s.pixelCount) (v : Code) :
    emit v s = .go () { s with
            memory := s.memory.writeHalf (s.destAddr s.outCount.toNat) (v.setWidth 16)
            busLog := s.busLog ++ [.write (s.destAddr s.outCount.toNat) (v.setWidth 16)]
            outCount := s.outCount + 1 } := by
  rcases emit_cases v s with ⟨_, ha, had, he⟩ | ⟨_, ha, had, he⟩ | ⟨_, ha, he⟩ | ⟨hN', he⟩
  · exact he
  · rw [h.admitted _ hN] at had; cases had
  · have := destAddr_lt h.1 hN; omega
  · omega

/-- `emit` with the output full (R189). -/
theorem emit_full {s : State} (hN : s.pixelCount ≤ s.outCount.toNat) (v : Code) : emit v s = .go () s := by
  unfold emit; rw [if_neg (by omega)]

/-- One element written, then the rest of the sequence emitted. -/
theorem State.Emitted.cons {s t : State} {v : Code} {vs : List Code} {log : List BusEvent} (hm : Sparse.Rising s.memory)
    (h : s.outCount.toNat < s.pixelCount)
    (ht : State.Emitted { s with
      memory := s.memory.writeHalf (s.destAddr s.outCount.toNat) (v.setWidth 16), busLog := log,
      outCount := s.outCount + 1 } t vs) : s.Emitted t (v :: vs) := by
  have hP := outCount_succ h
  set u : State := { s with
    memory := s.memory.writeHalf (s.destAddr s.outCount.toNat) (v.setWidth 16), busLog := log,
    outCount := s.outCount + 1 }
  have huP : u.outCount.toNat = s.outCount.toNat + 1 := hP
  have hd : ∀ j, u.destAddr j = s.destAddr j := fun _ => rfl
  have hpc : u.pixelCount = s.pixelCount := rfl
  refine ⟨?_, fun k w hk hl => ?_, fun a ha => ?_⟩
  · rw [ht.count, huP, hpc]; simp; omega
  · cases k with
    | zero =>
      simp at hk; subst hk
      have hx : ∀ a, (a = s.destAddr s.outCount.toNat ∨ a = s.destAddr s.outCount.toNat + 1) →
          t.memory.read a = u.memory.read a := by
        intro a ha
        apply ht.otherBytes
        intro j j1 j2 j3
        rw [hd]
        have := destAddr_apart (s := s) h j3 (by omega)
        omega
      show t.memory.readHalf (s.destAddr s.outCount.toNat) = _
      unfold Memory.readHalf
      rw [hx _ (.inl rfl), hx _ (.inr rfl)]
      exact Memory.readHalf_writeHalf_same hm _ _
    | succ k =>
      have := ht.elements k w (by simpa using hk) (by rw [huP, hpc]; omega)
      rw [hd, huP] at this
      rw [show s.outCount.toNat + (k + 1) = s.outCount.toNat + 1 + k by omega]; exact this
  · rw [ht.otherBytes a (fun j j1 j2 j3 => by rw [hd]; exact ha j (by omega) (by simp; omega) j3)]
    have := ha s.outCount.toNat (Nat.le_refl _) (by simp) h
    exact Memory.read_writeHalf_other _ _ this.1 this.2

/-- Emitting a sequence into a writable output (R157, R180, R189). -/
theorem emitAll_writable : ∀ (vs : List Code) (s : State), Sparse.Rising s.memory → s.outCount.toNat ≤ s.pixelCount → s.Writable →
    ∃ t, emitAll vs s = .go () t ∧ s.Emitted t vs ∧ t = { s with memory := t.memory, busLog := t.busLog, outCount := t.outCount }
  | [], s, _, hN, _ => by
    refine ⟨s, rfl, ⟨by simp; omega, fun k v h => by simp at h, fun _ _ => rfl⟩, rfl⟩
  | v :: vs, s, hm, hN, hw => by
    by_cases h : s.outCount.toNat < s.pixelCount
    · have hP := outCount_succ h
      obtain ⟨t, h1, h2, h3⟩ := emitAll_writable vs { s with
            memory := s.memory.writeHalf (s.destAddr s.outCount.toNat) (v.setWidth 16)
            busLog := s.busLog ++ [.write (s.destAddr s.outCount.toNat) (v.setWidth 16)]
            outCount := s.outCount + 1 } (Memory.writeHalf_rising hm _ _)
        (by show (s.outCount + 1).toNat ≤ s.pixelCount; omega) ⟨hw.1, hw.2⟩
      exact ⟨t, by unfold emitAll; rw [emit_writable hw h v]; exact h1, .cons hm h h2, h3⟩
    · obtain ⟨t, h1, h2, h3⟩ := emitAll_writable vs s hm hN hw
      refine ⟨t, by unfold emitAll; rw [emit_full (by omega)]; exact h1, ⟨?_, ?_, ?_⟩, h3⟩
      · rw [h2.count]; simp; omega
      · intro k w hk hl; omega
      · intro a ha
        exact h2.otherBytes a (fun j j1 j2 j3 => by omega)

/-- `emit` of an element the bus refuses (R65, R267): nothing is written or counted. -/
theorem emit_refused {s : State} (h : s.RefusesAfter 0) (v : Code) :
    emit v s = .ended { s with
      phase := .idle, cause := .busError, done := true,
      busLog := s.busLog ++ [.writeRefused (s.destAddr s.outCount.toNat) (v.setWidth 16)] } := by
  have hr := h.refused
  have hN := h.room
  rw [Nat.add_zero] at hr hN
  unfold emit
  rw [if_pos hN, memWrite_refused (destAddr_lt h.outputFits hN) hr, terminate_completes rfl]
  rfl

/-- Emitting a sequence of which the bus refuses the element after the first `k` (R191, R253, R267). -/
theorem emitAll_refused : ∀ (vs : List Code) (k : Nat) (s : State), Sparse.Rising s.memory → k < vs.length → s.RefusesAfter k →
    ∃ t, emitAll vs s = .ended t ∧ s.Emitted t (vs.take k) ∧
      t = { s with
        phase := .idle, cause := .busError, done := true, memory := t.memory, busLog := t.busLog, outCount := t.outCount }
  | [], _, _, _, hk, _ => by simp at hk
  | v :: vs, 0, s, _, _, h => by
    have hN := h.room
    have he : emitAll (v :: vs) s = .ended { s with
        phase := .idle, cause := .busError, done := true,
        busLog := s.busLog ++ [.writeRefused (s.destAddr s.outCount.toNat) (v.setWidth 16)] } := by
      unfold emitAll; rw [emit_refused h, Eng.andThen_ended]
    refine ⟨_, he, ⟨?_, fun k w hk => by simp at hk, fun _ _ => rfl⟩, rfl⟩
    simp; omega
  | v :: vs, k + 1, s, hm, hk, h => by
    have hN : s.outCount.toNat < s.pixelCount := by have := h.room; omega
    have hP := outCount_succ hN
    have he : emit v s = .go () { s with
        memory := s.memory.writeHalf (s.destAddr s.outCount.toNat) (v.setWidth 16)
        busLog := s.busLog ++ [.write (s.destAddr s.outCount.toNat) (v.setWidth 16)]
        outCount := s.outCount + 1 } := by
      unfold emit
      rw [if_pos hN, memWrite_admitted (destAddr_lt h.outputFits hN) (h.admitted _ (Nat.le_refl _) (by omega))]
      rfl
    obtain ⟨t, h1, h2, h3⟩ := emitAll_refused vs k { s with
        memory := s.memory.writeHalf (s.destAddr s.outCount.toNat) (v.setWidth 16)
        busLog := s.busLog ++ [.write (s.destAddr s.outCount.toNat) (v.setWidth 16)]
        outCount := s.outCount + 1 } (Memory.writeHalf_rising hm _ _) (by simpa using hk)
      ⟨h.outputFits, by show (s.outCount + 1).toNat + k < s.pixelCount; have := h.room; omega,
        fun j h1 h2 => h.admitted j (by have h1 : (s.outCount + 1).toNat ≤ j := h1; omega)
          (by have h2 : j < (s.outCount + 1).toNat + k := h2; omega),
        by
          show s.platform.admits (s.destAddr ((s.outCount + 1).toNat + k)) 2 .write = false
          rw [hP, show s.outCount.toNat + 1 + k = s.outCount.toNat + (k + 1) by omega]; exact h.refused⟩
    exact ⟨t, by unfold emitAll; rw [he]; exact h1, .cons hm hN h2, h3⟩

/-! ### What a part of a step may write -/

/-- From `s` to `t` only elements of the arrival positions from `P` of `s` to `P` of `t` changed, and not the output buffer's
place (R190). -/
structure State.Advances (s t : State) : Prop where
  count : s.outCount.toNat ≤ t.outCount.toNat
  place : t.dstAddr = s.dstAddr ∧ t.interlace = s.interlace ∧ t.dimWidth = s.dimWidth ∧ t.dimHeight = s.dimHeight
  bytes : ∀ a, s.outside s.outCount.toNat t.outCount.toNat a → t.memory.read a = s.memory.read a

theorem State.Advances.destAddr {s t : State} (h : s.Advances t) : t.destAddr = s.destAddr ∧ t.pixelCount = s.pixelCount := by
  obtain ⟨h1, h2, h3, h4⟩ := h.place
  constructor
  · funext j; unfold State.destAddr State.dest; rw [h1, h2, h3, h4]
  · unfold State.pixelCount; rw [h3, h4]

/-- Nothing written. -/
theorem State.Advances.quiet {s t : State} (hm : t.memory = s.memory) (hc : t.outCount = s.outCount)
    (hp : t.dstAddr = s.dstAddr ∧ t.interlace = s.interlace ∧ t.dimWidth = s.dimWidth ∧ t.dimHeight = s.dimHeight) :
    s.Advances t := ⟨by rw [hc], hp, fun a _ => by rw [hm]⟩

theorem State.Advances.trans {s t u : State} (h1 : s.Advances t) (h2 : t.Advances u) : s.Advances u := by
  obtain ⟨hd, hpc⟩ := h1.destAddr
  have c1 := h1.count
  have c2 := h2.count
  obtain ⟨p1, p2, p3, p4⟩ := h1.place
  obtain ⟨q1, q2, q3, q4⟩ := h2.place
  refine ⟨by omega, ⟨q1.trans p1, q2.trans p2, q3.trans p3, q4.trans p4⟩, fun a ha => ?_⟩
  rw [h2.bytes a (fun j j1 j2 j3 => by rw [hd]; exact ha j (by omega) j2 (by rw [← hpc]; exact j3)),
    h1.bytes a (fun j j1 j2 j3 => ha j j1 (by omega) j3)]

/-- `emit` writes at most the element of `P`. -/
theorem emit_advances {v : Code} {s t : State} (h : emit v s = .go () t ∨ emit v s = .ended t) : s.Advances t := by
  rcases emit_cases v s with ⟨hN, _, _, he⟩ | ⟨_, _, _, he⟩ | ⟨_, _, he⟩ | ⟨_, he⟩ <;> rw [he] at h <;> rcases h with h | h <;>
    cases h
  · have hP := outCount_succ hN
    refine ⟨by show _ ≤ (s.outCount + 1).toNat; omega, ⟨rfl, rfl, rfl, rfl⟩, fun a ha => ?_⟩
    have := ha s.outCount.toNat (Nat.le_refl _) (by show _ < (s.outCount + 1).toNat; omega) hN
    exact Memory.read_writeHalf_other _ _ this.1 this.2
  · rw [terminate_completes rfl]; exact .quiet rfl rfl ⟨rfl, rfl, rfl, rfl⟩
  · exact .quiet rfl rfl ⟨rfl, rfl, rfl, rfl⟩

/-- Emitting a sequence writes elements from `P` on. -/
theorem emitAll_advances : ∀ {vs : List Code} {s t : State}, (emitAll vs s = .go () t ∨ emitAll vs s = .ended t) → s.Advances t
  | [], s, t, h => by rcases h with h | h <;> cases h; exact .quiet rfl rfl ⟨rfl, rfl, rfl, rfl⟩
  | v :: vs, s, t, h => by
    rcases h with h | h
    · obtain ⟨_, u, h1, h2⟩ := Eng.andThen_eq_go h
      exact (emit_advances (.inl h1)).trans (emitAll_advances (.inl h2))
    · rcases Eng.andThen_eq_ended h with h | ⟨_, u, h1, h2⟩
      · exact emit_advances (.inr h)
      · exact (emit_advances (.inl h1)).trans (emitAll_advances (.inr h2))

end Sys2Proof.Machine
end

