-- ==== Sys2Proof/Laws/Dictionary.lean ====
section
/-! SUPPORT. The dictionary engine: what a resolved sequence holds, and the invariant step 6 keeps (41_lzw_codes.md R149 to R161). -/

namespace Sys2Proof.Machine

/-- `CLEAR` is at most 2048 for an accepted `m`. -/
theorem clear_le {s : State} (h : s.m ≤ Config.maxMincode) : s.clear ≤ 2048 := by
  unfold State.clear
  calc 2 ^ s.m ≤ 2 ^ 11 := Nat.pow_le_pow_right (by decide) h
    _ = 2048 := by norm_num

/-- The suffix of an allocated entry is a literal (R161). -/
theorem entry_suf_low {s : State} (hm : s.m ≤ Config.maxMincode) (h : s.DictInv) {c : Nat} (ha : s.allocated c = true) :
    (s.entry c).suf.toNat < s.clear := by
  unfold State.allocated at ha
  simp only [Bool.or_eq_true, decide_eq_true_eq, Bool.and_eq_true] at ha
  rcases ha with ha | ⟨h1, h2⟩
  · rw [h.seeded c ha]
    have := clear_le hm
    simp only [BitVec.toNat_ofNat]; omega
  · exact h.sufLow c h1 h2

/-- A walk collects literals only (R161). -/
theorem resolveWalk_low {s : State} (hm : s.m ≤ Config.maxMincode) (h : s.DictInv) : ∀ (room : Nat) (c : Code) (st r : List Code),
    resolveWalk s room c st = some r → (∀ v ∈ st, v.toNat < s.clear) → ∀ v ∈ r, v.toNat < s.clear
  | 0, _, _, _, e, _ => by cases e
  | room + 1, c, st, r, e, hst => by
    unfold resolveWalk at e
    split at e
    case isFalse => cases e
    case isTrue ha =>
      have hcons : ∀ v ∈ (s.entry c.toNat).suf :: st, v.toNat < s.clear := by
        intro v hv
        rcases List.mem_cons.1 hv with rfl | hv
        · exact entry_suf_low hm h ha
        · exact hst v hv
      split at e
      · cases e; exact hcons
      · exact resolveWalk_low hm h room _ _ r e hcons

/-- A resolved sequence holds literals only (R161). -/
theorem resolve_low {s : State} (hm : s.m ≤ Config.maxMincode) (h : s.DictInv) {c : Code} {seq : List Code} (e : resolve c s = some seq) :
    ∀ v ∈ seq, v.toNat < s.clear := resolveWalk_low hm h _ _ _ _ e (by simp)

/-- Only an allocated index resolves (R151). -/
theorem resolve_allocated {s : State} {c : Code} {seq : List Code} (e : resolve c s = some seq) : s.allocated c.toNat = true := by
  by_contra h
  rw [resolve, resolveWalk_unallocated (by simpa using h)] at e
  cases e

/-- Everything GROW can do (R156). -/
theorem grow_cases (s : State) : (s.maxVal < s.nextKey.toNat ∧ s.width.toNat < 12 ∧ grow s = { s with width := s.width + 1 }) ∨
    ((s.nextKey.toNat ≤ s.maxVal ∨ 12 ≤ s.width.toNat) ∧ grow s = s) := by
  unfold grow Config.maxWidth
  split
  · next h => exact .inl ⟨h.1, h.2, rfl⟩
  · next h => exact .inr ⟨by omega, rfl⟩

/-- What step 6 leaves (R155 to R157): the dictionary, `nextKey` and `width`, with the invariant. -/
theorem allocGrow_inv {s : State} (hm : s.m ≤ Config.maxMincode) (h : s.DictInv) (hdf : s.dict.wf) (hw : s.m + 1 ≤ s.width.toNat)
    (hw' : s.width.toNat ≤ 12) (hp : s.prevNone = false) {x : Code} (hx : x.toNat < s.clear) {code : Code}
    (hcode : code.toNat < s.clear ∨ (s.clear + 2 ≤ code.toNat ∧ code.toNat < s.nextKey.toNat) ∨ code.toNat = s.nextKey.toNat) :
    ∃ d nk w, allocGrow { s with lastCode := x } = { s with lastCode := x, dict := d, nextKey := nk, width := w } ∧ d.wf ∧
      s.m + 1 ≤ w.toNat ∧ w.toNat ≤ 12 ∧
      ({ s with lastCode := x, dict := d, nextKey := nk, width := w, prevCode := code } : State).DictInv := by
  have hnk := h.nextKeyHigh
  have hnl := h.nextKeyLow
  by_cases hroom : s.nextKey.toNat < Config.maxEntries
  · -- an allocation
    have hK : (s.nextKey + 1).toNat = s.nextKey.toNat + 1 := by
      unfold Config.maxEntries at hroom; rw [BitVec.toNat_add]; simp; omega
    set d := Dict.write s.dict s.nextKey.toNat ⟨s.prevCode, x⟩ with hd
    have hdwf : d.wf := Dict.write_wf hdf hroom _
    have key : ∀ w : BitVec 4, s.m + 1 ≤ w.toNat → 
        (w.toNat = Config.maxWidth ∨ s.nextKey.toNat + 1 < 2 ^ w.toNat
          ∨ (s.m ≤ 1 ∧ s.nextKey.toNat + 1 = s.clear + 2) ∨ (s.m = 0 ∧ s.nextKey.toNat + 1 = 4 ∧ w.toNat = 2)) →
        ({ s with lastCode := x, dict := d, nextKey := s.nextKey + 1, width := w, prevCode := code } : State).DictInv := by
      intro w _ hwk
      have hlow : ∀ i, i ≠ s.nextKey.toNat → Dict.read s.dictEra d i = s.entry i := fun i hi =>
        Dict.read_write_other _ _ _ hi
      have hsame : Dict.read s.dictEra d s.nextKey.toNat = ⟨s.prevCode, x⟩ := Dict.read_write_same _ _ _ _
      have hprev := h.prev hp
      constructor
      · show s.clear + 2 ≤ (s.nextKey + 1).toNat; omega
      · show (s.nextKey + 1).toNat ≤ _; omega
      · intro i hi
        have hi : i < s.clear := hi
        show Dict.read s.dictEra d i = _
        rw [hlow i (by omega)]; exact h.seeded i hi
      · intro i h1 h2
        have h1 : s.clear + 2 ≤ i := h1
        have h2 : i < (s.nextKey + 1).toNat := h2
        show (Dict.read s.dictEra d i).pre.toNat ≤ i
        by_cases hi : i = s.nextKey.toNat
        · subst hi; rw [hsame]; show s.prevCode.toNat ≤ _; omega
        · rw [hlow i hi]; exact h.linkLow i h1 (by omega)
      · intro i h1 h2
        have h1 : s.clear + 2 ≤ i := h1
        have h2 : i < (s.nextKey + 1).toNat := h2
        show (Dict.read s.dictEra d i).pre.toNat = i → i = s.clear + 2
        by_cases hi : i = s.nextKey.toNat
        · subst hi; rw [hsame]; show s.prevCode.toNat = _ → _; omega
        · rw [hlow i hi]; exact h.linkSelf i h1 (by omega)
      · intro i h1 h2
        have h1 : s.clear + 2 ≤ i := h1
        have h2 : i < (s.nextKey + 1).toNat := h2
        show (Dict.read s.dictEra d i).pre.toNat < s.clear ∨ s.clear + 2 ≤ (Dict.read s.dictEra d i).pre.toNat
        by_cases hi : i = s.nextKey.toNat
        · subst hi; rw [hsame]; show s.prevCode.toNat < _ ∨ _ ≤ s.prevCode.toNat; omega
        · rw [hlow i hi]; exact h.linkKind i h1 (by omega)
      · intro i h1 h2
        have h1 : s.clear + 2 ≤ i := h1
        have h2 : i < (s.nextKey + 1).toNat := h2
        show (Dict.read s.dictEra d i).suf.toNat < s.clear
        by_cases hi : i = s.nextKey.toNat
        · subst hi; rw [hsame]; exact hx
        · rw [hlow i hi]; exact h.sufLow i h1 (by omega)
      · intro _
        show code.toNat < s.clear ∨ (s.clear + 2 ≤ code.toNat ∧ code.toNat < (s.nextKey + 1).toNat) ∨ _
        omega
      · intro _; exact .inl hx
      · intro hc; have hc : s.prevNone = true := hc; rw [hp] at hc; cases hc
      · show w.toNat = Config.maxWidth ∨ (s.nextKey + 1).toNat < 2 ^ w.toNat
          ∨ (s.m ≤ 1 ∧ (s.nextKey + 1).toNat = s.clear + 2) ∨ (s.m = 0 ∧ (s.nextKey + 1).toNat = 4 ∧ w.toNat = 2)
        rw [hK]; exact hwk
    have hroom' : ({ s with lastCode := x } : State).nextKey.toNat < Config.maxEntries := hroom
    have hwk := h.widthKey
    unfold Config.maxWidth at *
    rw [allocGrow_room hroom']
    rcases grow_cases { s with lastCode := x, dict := d, nextKey := s.nextKey + 1 } with ⟨g1, g2, g⟩ | ⟨g1, g⟩
    · have g1 : 2 ^ s.width.toNat - 1 < (s.nextKey + 1).toNat := g1
      have g2 : s.width.toNat < 12 := g2
      have hW : (s.width + 1).toNat = s.width.toNat + 1 := by rw [BitVec.toNat_add]; simp; omega
      refine ⟨d, s.nextKey + 1, s.width + 1, g, hdwf, by omega, by omega, key _ (by omega) ?_⟩
      rw [hW]
      have hpow : 2 ^ (s.width.toNat + 1) = 2 * 2 ^ s.width.toNat := by ring
      have hpos : 0 < 2 ^ s.width.toNat := by positivity
      rcases hwk with hwk | hwk | ⟨h1, h2⟩ | ⟨h1, h2, h3⟩
      · omega
      · exact .inr (.inl (by omega))
      · have hcl : s.clear = 2 ^ s.m := rfl
        rcases Nat.le_one_iff_eq_zero_or_eq_one.1 h1 with h0 | h0
        · rw [h0] at hcl
          by_cases hw1 : s.width.toNat = 1
          · refine .inr (.inr (.inr ⟨h0, by omega, by omega⟩))
          · have : 2 ^ 2 ≤ 2 ^ s.width.toNat := Nat.pow_le_pow_right (by decide) (by omega)
            exact .inr (.inl (by omega))
        · rw [h0] at hcl
          have : 2 ^ 2 ≤ 2 ^ s.width.toNat := Nat.pow_le_pow_right (by decide) (by omega)
          exact .inr (.inl (by omega))
      · have : 2 ^ 2 ≤ 2 ^ s.width.toNat := Nat.pow_le_pow_right (by decide) (by omega)
        exact .inr (.inl (by omega))
    · have g1 : (s.nextKey + 1).toNat ≤ 2 ^ s.width.toNat - 1 ∨ 12 ≤ s.width.toNat := g1
      have hpos : 0 < 2 ^ s.width.toNat := by positivity
      refine ⟨d, s.nextKey + 1, s.width, g, hdwf, hw, hw', key _ hw ?_⟩
      rcases g1 with g1 | g1
      · exact .inr (.inl (by omega))
      · exact .inl (by omega)
  · refine ⟨s.dict, s.nextKey, s.width, allocGrow_full (by show _ ≤ s.nextKey.toNat; omega), hdf, hw, hw', ?_⟩
    have hlt := code.isLt
    unfold Config.maxEntries at hroom
    exact ⟨h.nextKeyLow, h.nextKeyHigh, h.seeded, h.linkLow, h.linkSelf, h.linkKind, h.sufLow,
      fun _ => by show code.toNat < s.clear ∨ (s.clear + 2 ≤ code.toNat ∧ code.toNat < s.nextKey.toNat) ∨ _; omega, fun _ => .inl hx,
      (fun hc => by rw [show s.prevNone = true from hc] at hp; cases hp), h.widthKey⟩

/-- More room does not change a walk that ended. -/
theorem resolveWalk_mono {s : State} : ∀ {r1 r2 : Nat} {c : Code} {st q : List Code}, r1 ≤ r2 → resolveWalk s r1 c st = some q → resolveWalk s r2 c st = some q
  | 0, _, _, _, _, _, h => by cases h
  | r1 + 1, 0, _, _, _, h, _ => by omega
  | r1 + 1, r2 + 1, c, st, q, hle, h => by
    unfold resolveWalk at h ⊢
    split at h
    case isFalse => cases h
    case isTrue ha =>
      rw [if_pos ha]
      split at h
      · next hc => rw [if_pos hc]; exact h
      · next hc => rw [if_neg hc]; exact resolveWalk_mono (by omega) h

/-- A chain that comes to an index from which every walk fails makes every walk fail (R151). -/
theorem resolveWalk_reaches_none {s : State} {c d : Code} (h : s.Reaches c d)
    (bad : ∀ room stack, resolveWalk s room d stack = none) : ∀ room stack, resolveWalk s room c stack = none := by
  induction h with
  | here => exact bad
  | @link c d hc _ ih =>
    intro room stack
    cases ha : s.allocated c.toNat with
    | false => exact resolveWalk_unallocated ha _ _
    | true =>
      cases room with
      | zero => rfl
      | succ n => rw [resolveWalk_link ha (by omega)]; exact ih bad _ _

/-- Every walk from an entry that links to itself fails: it runs out of room, or the entry is not allocated (R151, R160). -/
theorem resolveWalk_selfLink {s : State} {d : Code} (h1 : s.clear + 2 ≤ d.toNat) (h2 : (s.entry d.toNat).pre = d) :
    ∀ room stack, resolveWalk s room d stack = none
  | 0, _ => rfl
  | n + 1, stack => by
    cases ha : s.allocated d.toNat with
    | false => exact resolveWalk_unallocated ha _ _
    | true => rw [resolveWalk_link ha (by omega), h2]; exact resolveWalk_selfLink h1 h2 n _

/-- A link of an allocated entry other than a self-linked `CLEAR + 2` leads down to an allocated index (R149, R160). -/
theorem link_descends {s : State} (hd : s.DictInv) {c : Code} (ha : s.allocated c.toNat = true) (hc : ¬ c.toNat < s.clear)
    (hs : c.toNat = s.clear + 2 → (s.entry c.toNat).pre ≠ c) :
    s.clear + 2 ≤ c.toNat ∧ (s.entry c.toNat).pre.toNat < c.toNat ∧ s.allocated (s.entry c.toNat).pre.toNat = true := by
  simp only [State.allocated, Bool.or_eq_true, decide_eq_true_eq, Bool.and_eq_true] at ha ⊢
  have h1 : s.clear + 2 ≤ c.toNat := by omega
  have h2 : c.toNat < s.nextKey.toNat := by omega
  have hlow := hd.linkLow _ h1 h2
  have hkind := hd.linkKind _ h1 h2
  have hne : (s.entry c.toNat).pre.toNat ≠ c.toNat := fun e =>
    hs (hd.linkSelf _ h1 h2 e) (BitVec.eq_of_toNat_eq e)
  exact ⟨h1, by omega, by omega⟩

/-- The walk from an allocated index ends, unless its chain comes to an entry `CLEAR + 2` that links to itself (R150, R160). -/
theorem resolveWalk_some {s : State} (hd : s.DictInv) :
    ∀ (n : Nat) (c : Code), c.toNat ≤ n → s.allocated c.toNat = true →
      (∀ d, s.Reaches c d → d.toNat = s.clear + 2 → (s.entry d.toNat).pre ≠ d) →
      ∃ q, resolveWalk s (c.toNat + 1) c [] = some q
  | 0, c, h, _, _ => by
    refine ⟨_, resolveWalk_literal ?_ _ _⟩
    have : 0 < s.clear := by unfold State.clear; positivity
    omega
  | n + 1, c, h, ha, hs => by
    by_cases hc : c.toNat < s.clear
    · exact ⟨_, resolveWalk_literal hc _ _⟩
    · obtain ⟨h1, hlt, hpa⟩ := link_descends hd ha hc (hs c (.here c))
      obtain ⟨q, hq⟩ := resolveWalk_some hd n _ (by omega) hpa fun d hr => hs d (.link h1 hr)
      rw [resolveWalk_link ha (by omega)]
      exact ⟨_, resolveWalk_mono (by omega) (resolveWalk_append _ _ _ [(s.entry c.toNat).suf] _ hq)⟩

/-- What step 6 leaves after `lastCode` has been set (R155 to R157). -/
theorem allocGrow_steppedSix {s : State} (x : Code) : ∃ d nk w, allocGrow { s with lastCode := x } = { s with lastCode := x, dict := d, nextKey := nk, width := w } ∧
    s.SteppedSix { s with lastCode := x, dict := d, nextKey := nk, width := w } x := by
  by_cases hroom : s.nextKey.toNat < Config.maxEntries
  · have hK : (s.nextKey + 1).toNat = s.nextKey.toNat + 1 := by
      unfold Config.maxEntries at hroom; rw [BitVec.toNat_add]; simp; omega
    rw [allocGrow_room (s := { s with lastCode := x }) hroom]
    have mk : ∀ w : BitVec 4, w.toNat = (if s.nextKey.toNat < Config.maxEntries ∧ 2 ^ s.width.toNat ≤ s.nextKey.toNat + 1 ∧ s.width.toNat < Config.maxWidth then s.width.toNat + 1 else s.width.toNat) →
      s.SteppedSix { s with lastCode := x, dict := Dict.write s.dict s.nextKey.toNat ⟨s.prevCode, x⟩, nextKey := s.nextKey + 1, width := w } x := by
      intro w hw
      refine ⟨by rw [if_pos hroom]; exact hK, fun _ => Dict.read_write_same _ _ _ _, fun i _ hi => Dict.read_write_other _ _ _ hi, fun i hi => by omega, hw⟩
    have hpos : 0 < 2 ^ s.width.toNat := by positivity
    rcases grow_cases { s with lastCode := x, dict := Dict.write s.dict s.nextKey.toNat ⟨s.prevCode, x⟩, nextKey := s.nextKey + 1 } with ⟨a, b, c⟩ | ⟨a, c⟩
    · refine ⟨_, _, _, c, mk _ ?_⟩
      have a : 2 ^ s.width.toNat - 1 < (s.nextKey + 1).toNat := a
      have b : s.width.toNat < 12 := b
      unfold Config.maxWidth
      rw [if_pos ⟨hroom, by omega, b⟩]
      show (s.width + 1).toNat = _
      rw [BitVec.toNat_add]; simp; omega
    · refine ⟨_, _, _, c, mk _ ?_⟩
      have a : (s.nextKey + 1).toNat ≤ 2 ^ s.width.toNat - 1 ∨ 12 ≤ s.width.toNat := a
      unfold Config.maxWidth
      rw [if_neg (by omega)]
  · refine ⟨s.dict, s.nextKey, s.width, allocGrow_full (by show _ ≤ s.nextKey.toNat; omega), by rw [if_neg hroom], fun h => absurd h hroom, fun i h => absurd h hroom, fun _ _ => rfl, by rw [if_neg (by omega)]⟩

end Sys2Proof.Machine
end

