-- ==== Sys2Proof/Laws/Codes.lean ====
section
/-! SUPPORT. The code operations: every code completes and keeps the invariant of a decoding job (41_lzw_codes.md R142 to R157). -/

namespace Sys2Proof.Machine

/-- The invariant of a decoding job, with the memory's and the dictionary's forms. -/
structure DecInv (s : State) : Prop where
  memory : s.memory.wf
  dictForm : s.dict.wf
  stack : s.resolveStack = []
  phase : s.phase = .decode
  cause : s.cause = .none
  done : s.done = false
  config : s.ConfigOk
  unpacker : s.UnpackerInv
  dictionary : s.DictInv
  output : s.OutputInv

theorem DecInv.inv {s : State} (h : DecInv s) : s.Inv :=
  ⟨h.memory, h.dictForm, h.stack, fun _ => ⟨h.config, h.unpacker, h.dictionary, h.output, h.done, fun _ => h.cause,
    fun hp => by rw [h.phase] at hp; cases hp⟩⟩

/-- The invariant while idle. -/
theorem inv_idle {s : State} (hm : s.memory.wf) (hd : s.dict.wf) (hs : s.resolveStack = []) (hp : s.phase = .idle) : s.Inv :=
  ⟨hm, hd, hs, fun h => absurd hp h⟩

theorem State.Inv.dec {s : State} (h : s.Inv) (hp : s.phase = .decode) : DecInv s := by
  have j := h.job (by simp [hp])
  exact ⟨h.memory, h.dictForm, h.stack, hp, j.decodeCause hp, j.notDone, j.config, j.unpacker, j.dictionary, j.output⟩

theorem State.ConfigOk.congr {s t : State} (h : s.ConfigOk) (h1 : t.mincode = s.mincode) (h2 : t.dstAddr = s.dstAddr)
    (h3 : t.srcAddr = s.srcAddr) (h4 : t.srcLen = s.srcLen) (h5 : t.dimWidth = s.dimWidth) (h6 : t.dimHeight = s.dimHeight) :
    t.ConfigOk := by
  constructor
  · have := h.1; unfold State.m at *; rw [h1]; exact this
  · rw [h2]; exact h.2
  · rw [h3, h4]; exact h.3
  · have := h.4; unfold State.pixelCount at *; rw [h2, h5, h6]; exact this
  · have := h.5; unfold State.buffersOverlap State.pixelCount at *; rw [h2, h3, h4, h5, h6]; exact this

/-- Ending the decode with a padding cause keeps the invariant (R255). -/
theorem terminate_inv {s : State} (h : DecInv s) {c : Cause} (hc : c.pads = true) (hne : c ≠ .endOfData) : (terminate c s).Inv := by
  rw [terminate_pads hc]
  refine ⟨h.memory, h.dictForm, h.stack, fun _ => ⟨h.config.congr rfl rfl rfl rfl rfl rfl, ?_, ?_, ?_, h.done, ?_, fun _ => hc⟩⟩
  · have u := h.unpacker
    exact ⟨u.1, u.2, u.3, fun _ => u.4 (by rw [h.cause]; decide), fun e => absurd e hne, u.6, u.7, u.8⟩
  · have d := h.dictionary
    exact ⟨d.1, d.2, d.3, d.4, d.5, d.6, d.7, d.8, d.9, d.10, d.11⟩
  · have o := h.output
    have ha : s.arrived = s.outCount.toNat := by simp [State.arrived, h.phase]
    refine ⟨o.1, fun _ => Nat.le_refl _, fun _ => o.1, o.4, ?_, ?_, o.7, ?_⟩
    · have := o.5; rw [ha] at this; exact this
    · have := o.6; rw [ha] at this; exact this
    · intro j h1 h2
      have h1 : s.outCount.toNat ≤ j := h1
      have h2 : j < s.outCount.toNat := h2
      omega
  · intro e; cases e

/-- Ending the decode for want of data keeps the invariant (R126, R255). -/
theorem eod_inv {s : State} (h : DecInv s) {t : State} (f : FillInv t) (ho4 : ReadsInOrder t) (hb : t.bitCount.toNat < s.width.toNat)
    (hw : t.writesMade = s.writesMade)
    (ht : t = { s with cache := t.cache, bitCount := t.bitCount, inPos := t.inPos, busLog := t.busLog }) :
    (terminate .endOfData t).Inv := by
  rw [terminate_pads (by rfl)]
  have u := h.unpacker
  have d := h.dictionary
  have o := h.output
  have ha : s.arrived = s.outCount.toNat := by simp [State.arrived, h.phase]
  generalize hca : t.cache = ca at ht
  generalize hbc : t.bitCount = bc at ht
  generalize hip : t.inPos = ip at ht
  generalize hbl : t.busLog = bl at ht
  subst ht
  refine ⟨h.memory, h.dictForm, h.stack, fun _ => ⟨h.config.congr rfl rfl rfl rfl rfl rfl, ?_, ?_, ?_, h.done, ?_, fun _ => rfl⟩⟩
  · exact ⟨u.1, u.2, f.1, fun e => absurd rfl e, fun _ => hb, f.2, f.3, f.4⟩
  · exact ⟨d.1, d.2, d.3, d.4, d.5, d.6, d.7, d.8, d.9, d.10, d.11⟩
  · refine ⟨o.1, fun _ => Nat.le_refl _, fun _ => o.1, ho4, ?_, ?_, o.7, ?_⟩
    · have := o.5; rw [ha, ← hw] at this; exact this
    · have := o.6; rw [ha, ← hw] at this; exact this
    · intro j h1 h2
      have h1 : s.outCount.toNat ≤ j := h1
      have h2 : j < s.outCount.toNat := h2
      omega
  · intro e; cases e

/-- A state after READ is a state of a decoding job. -/
theorem read_dec {s : State} (h : DecInv s) {t : State} (f : FillInv t) (ho4 : ReadsInOrder t) (hb : t.bitCount.toNat ≤ 7)
    (hw : t.writesMade = s.writesMade)
    (ht : t = { s with cache := t.cache, bitCount := t.bitCount, inPos := t.inPos, busLog := t.busLog, codeCount := s.codeCount + 1 }) :
    DecInv t := by
  have u := h.unpacker
  have d := h.dictionary
  have o := h.output
  generalize hca : t.cache = ca at ht
  generalize hbc : t.bitCount = bc at ht
  generalize hip : t.inPos = ip at ht
  generalize hbl : t.busLog = bl at ht
  subst ht
  refine ⟨h.memory, h.dictForm, h.stack, h.phase, h.cause, h.done, h.config.congr rfl rfl rfl rfl rfl rfl, ?_, ?_, ?_⟩
  · exact ⟨u.1, u.2, f.1, fun _ => hb, fun e => (by have h1 : s.cause = .endOfData := e; rw [h.cause] at h1; cases h1), f.2, f.3, f.4⟩
  · exact ⟨d.1, d.2, d.3, d.4, d.5, d.6, d.7, d.8, d.9, d.10, d.11⟩
  · refine ⟨o.1, o.2, o.3, ho4, ?_, ?_, o.7, o.8⟩
    · have := o.5; rw [← hw] at this; exact this
    · have := o.6; rw [← hw] at this; exact this

/-- The unpacker's invariant does not see the dictionary. -/
theorem unp_congr {s : State} (u : s.UnpackerInv) {d nk w pc pn lc} (h1 : s.m + 1 ≤ BitVec.toNat w) (h2 : BitVec.toNat w ≤ 12) (hc : s.cause = .none) :
    ({ s with dict := d, nextKey := nk, width := w, prevCode := pc, prevNone := pn, lastCode := lc } : State).UnpackerInv :=
  ⟨h1, h2, u.3, u.4, fun e => (by rw [show s.cause = _ from e] at hc; cases hc), u.6, u.7, u.8⟩

/-- The output's invariant does not see the dictionary. -/
theorem out_congr {s : State} (o : s.OutputInv) {d nk w pc pn lc} :
    ({ s with dict := d, nextKey := nk, width := w, prevCode := pc, prevNone := pn, lastCode := lc } : State).OutputInv :=
  ⟨o.1, o.2, o.3, o.4, o.5, o.6, o.7, o.8⟩

/-- The configuration's invariant does not see the dictionary. -/
theorem cfg_congr {s : State} (o : s.ConfigOk) {d nk w pc pn lc} :
    ({ s with dict := d, nextKey := nk, width := w, prevCode := pc, prevNone := pn, lastCode := lc } : State).ConfigOk :=
  ⟨o.1, o.2, o.3, o.4, o.5⟩

/-- `CLEAR + 2` fits `nextKey` for an accepted `m`. -/
theorem clear_toNat {s : State} (h : s.m ≤ 11) : (BitVec.ofNat 13 (s.clear + 2)).toNat = s.clear + 2 := by
  have := clear_le (s := s) h
  simp; omega

/-- `m + 1` fits `width` for an accepted `m`. -/
theorem width_toNat {s : State} (h : s.m ≤ 11) : (BitVec.ofNat 4 (s.m + 1)).toNat = s.m + 1 := by simp; omega

/-- How the initial `nextKey` relates to the initial width (R94). -/
theorem clearWidthKey {m : Nat} (h : m ≤ 11) : m + 1 = 12 ∨ 2 ^ m + 2 < 2 ^ (m + 1) ∨ m ≤ 1 := by
  rcases Nat.lt_or_ge 1 m with h1 | h1
  · have : 2 ^ 2 ≤ 2 ^ m := Nat.pow_le_pow_right (by decide) h1
    rw [Nat.pow_succ]; omega
  · exact .inr (.inr h1)

/-- CLEAR keeps the invariant (R147). -/
theorem clear_dec {s : State} (h : DecInv s) :
    DecInv { resetWidth s with nextKey := BitVec.ofNat 13 (s.clear + 2), prevNone := true } := by
  have hm := h.config.mincode
  have hw := width_toNat hm
  have hk := clear_toNat hm
  have hcl := clear_le hm
  have d := h.dictionary
  refine ⟨h.memory, h.dictForm, h.stack, h.phase, h.cause, h.done, cfg_congr h.config,
    unp_congr h.unpacker (by show _ ≤ (BitVec.ofNat 4 (s.m + 1)).toNat; omega) (by show (BitVec.ofNat 4 (s.m + 1)).toNat ≤ 12; unfold Config.maxMincode at hm; omega) h.cause, ?_, out_congr h.output⟩
  show ({ s with width := BitVec.ofNat 4 (s.m + 1), nextKey := BitVec.ofNat 13 (s.clear + 2), prevNone := true } : State).DictInv
  have vac : ∀ i, s.clear + 2 ≤ i → i < (BitVec.ofNat 13 (s.clear + 2)).toNat → False := by intro i; rw [hk]; omega
  refine ⟨?_, ?_, d.seeded, fun i h1 h2 => (vac i h1 h2).elim, fun i h1 h2 => (vac i h1 h2).elim, fun i h1 h2 => (vac i h1 h2).elim,
    fun i h1 h2 => (vac i h1 h2).elim, fun e => (by cases e), fun e => (by cases e), fun _ => hk, ?_⟩
  · exact Nat.le_of_eq hk.symm
  · show (BitVec.ofNat 13 (s.clear + 2)).toNat ≤ 4096
    omega
  · show (BitVec.ofNat 4 (s.m + 1)).toNat = 12 ∨ (BitVec.ofNat 13 (s.clear + 2)).toNat < 2 ^ (BitVec.ofNat 4 (s.m + 1)).toNat ∨
      (s.m ≤ 1 ∧ (BitVec.ofNat 13 (s.clear + 2)).toNat = s.clear + 2) ∨ _
    rw [hw, hk]
    rcases clearWidthKey hm with h | h | h
    · exact .inl h
    · exact .inr (.inl h)
    · exact .inr (.inr (.inl ⟨h, rfl⟩))

/-- FIRST completes and keeps the invariant (R148). -/
theorem first_inv {s : State} (h : DecInv s) {code : Code} (h1 : code.toNat ≤ s.nextKey.toNat) (h2 : code.toNat ≠ s.endCode)
    (h3 : code.toNat ≠ s.clear) (hp : s.prevNone = true) : ∃ t, execFirst code s = .next t ∧ t.Inv := by
  have d := h.dictionary
  have hf := d.fresh hp
  unfold State.endCode at h2
  have hv : code.toNat < s.clear ∨ code.toNat = s.clear + 2 := by omega
  unfold execFirst
  rcases emit_inv h.phase h.config h.unpacker h.output h.memory hv with ⟨t, e, hu, ho, hm, ht⟩ | ⟨t, e, e1, e2, e3, e4, e5⟩
  · refine ⟨_, by rw [e]; rfl, DecInv.inv ?_⟩
    generalize hca : t.memory = ca at ht hm
    generalize hbc : t.outCount = bc at ht
    generalize hbl : t.busLog = bl at ht
    subst ht
    refine ⟨hm, h.dictForm, h.stack, h.phase, h.cause, h.done, h.config.congr rfl rfl rfl rfl rfl rfl, ?_, ?_, ?_⟩
    · exact ⟨hu.1, hu.2, hu.3, hu.4, hu.5, hu.6, hu.7, hu.8⟩
    · refine ⟨d.1, d.2, d.3, d.4, d.5, d.6, d.7, fun _ => ?_, fun _ => ?_, fun e => (by cases e), d.11⟩
      · show code.toNat < s.clear ∨ (s.clear + 2 ≤ code.toNat ∧ code.toNat < s.nextKey.toNat) ∨ (code.toNat = s.clear + 2 ∧ s.nextKey.toNat = s.clear + 2)
        omega
      · show code.toNat < s.clear ∨ (code.toNat = s.clear + 2 ∧ s.nextKey.toNat = s.clear + 2)
        omega
    · exact ⟨ho.1, ho.2, ho.3, ho.4, ho.5, ho.6, ho.7, ho.8⟩
  · exact ⟨t, by rw [e]; rfl, inv_idle e2 (by rw [e3]; exact h.dictForm) (by rw [e4]; exact h.stack) e1⟩

/-- TAIL completes and keeps the invariant (R157). -/
theorem tail_inv {s : State} (h : DecInv s) (hp : s.prevNone = false) {code : Code} {seq : List Code} (hne : seq ≠ [])
    (hseq : ∀ v ∈ seq, v.toNat < s.clear)
    (hcode : code.toNat < s.clear ∨ (s.clear + 2 ≤ code.toNat ∧ code.toNat < s.nextKey.toNat) ∨ code.toNat = s.nextKey.toNat) :
    ∃ t, (tail code seq s).outcome = .next t ∧ t.Inv := by
  obtain ⟨x, rest, rfl⟩ := List.exists_cons_of_ne_nil hne
  obtain ⟨d, nk, w, e, hd, hw, hw', hdi⟩ := allocGrow_inv h.config.mincode h.dictionary h.dictForm h.unpacker.widthLow h.unpacker.widthHigh hp
    (hseq x (by simp)) hcode
  unfold tail
  show ∃ t, ((emitAll (x :: rest) (allocGrow { s with lastCode := x })).andThen _).outcome = _ ∧ _
  rw [e]
  rcases emitAll_inv (x :: rest) (s := { s with lastCode := x, dict := d, nextKey := nk, width := w }) h.phase (cfg_congr h.config)
    (unp_congr h.unpacker hw hw' h.cause) (out_congr h.output) h.memory (fun v hv => .inl (hseq v hv)) with
    ⟨t, e, hu, ho, hm, ht⟩ | ⟨t, e, e1, e2, e3, e4, e5⟩
  · refine ⟨_, by rw [e]; rfl, DecInv.inv ?_⟩
    generalize hca : t.memory = ca at ht hm
    generalize hbc : t.outCount = bc at ht
    generalize hbl : t.busLog = bl at ht
    subst ht
    refine ⟨hm, hd, h.stack, h.phase, h.cause, h.done, h.config.congr rfl rfl rfl rfl rfl rfl, ?_, ?_, ?_⟩
    · exact ⟨hu.1, hu.2, hu.3, hu.4, hu.5, hu.6, hu.7, hu.8⟩
    · exact ⟨hdi.1, hdi.2, hdi.3, hdi.4, hdi.5, hdi.6, hdi.7, hdi.8, hdi.9, hdi.10, hdi.11⟩
    · exact ⟨ho.1, ho.2, ho.3, ho.4, ho.5, ho.6, ho.7, ho.8⟩
  · exact ⟨t, by rw [e]; rfl, inv_idle e2 (by rw [e3]; exact hd) (by rw [e4]; exact h.stack) e1⟩

/-- TAIL of a resolution, failed or not, completes and keeps the invariant (R151, R157). -/
theorem tailOf_inv {s : State} (h : DecInv s) (hp : s.prevNone = false) {code : Code} {o : Option (List Code)}
    (hne : ∀ seq, o = some seq → seq ≠ [])
    (hseq : ∀ seq, o = some seq → ∀ v ∈ seq, v.toNat < s.clear)
    (hcode : code.toNat < s.clear ∨ (s.clear + 2 ≤ code.toNat ∧ code.toNat < s.nextKey.toNat) ∨ code.toNat = s.nextKey.toNat) :
    ∃ t, (tailOf code o s).outcome = .next t ∧ t.Inv := by
  cases o with
  | none => exact ⟨_, rfl, terminate_inv h rfl (by decide)⟩
  | some seq => exact tail_inv h hp (hne _ rfl) (hseq _ rfl) hcode

/-- Every code completes and keeps the invariant (R142). -/
theorem class_inv {s : State} (h : DecInv s) (code : Code) : ∃ t, runClass (classify s.codeCtx code) code s = .next t ∧ t.Inv := by
  have hm := h.config.mincode
  unfold classify
  show ∃ t, runClass (if s.nextKey.toNat < code.toNat then _ else if code.toNat = s.endCode then _ else if code.toNat = s.clear then _ else
    if s.prevNone = true then _ else if code.toNat = s.nextKey.toNat then _ else if code.toNat < s.clear then _ else _) code s = _ ∧ _
  split_ifs with c1 c2 c3 c4 c5 c6
  · exact ⟨_, rfl, terminate_inv h rfl (by decide)⟩
  · exact ⟨_, rfl, terminate_inv h rfl (by decide)⟩
  · exact ⟨_, rfl, (clear_dec h).inv⟩
  · exact first_inv h (by omega) c2 c3 c4
  · have hp : s.prevNone = false := by simpa using c4
    refine tailOf_inv h hp ?_ ?_ (by omega)
    · intro seq e; obtain ⟨q, -, rfl⟩ := Option.map_eq_some_iff.1 e; simp
    · intro seq e; obtain ⟨q, hq, rfl⟩ := Option.map_eq_some_iff.1 e
      intro v hv
      rcases List.mem_append.1 hv with hv | hv
      · exact resolve_low hm h.dictionary hq v hv
      · rw [List.mem_singleton.1 hv]
        rcases h.dictionary.last hp with hl | ⟨hl, hl'⟩
        · exact hl
        · have := resolve_allocated hq
          simp only [State.allocated, Bool.or_eq_true, decide_eq_true_eq, Bool.and_eq_true] at this
          omega
  · have hp : s.prevNone = false := by simpa using c4
    exact tailOf_inv h hp (fun _ e => resolve_ne_nil e) (fun _ e => resolve_low hm h.dictionary e) (by omega)
  · have hp : s.prevNone = false := by simpa using c4
    unfold State.endCode at c2
    exact tailOf_inv h hp (fun _ e => resolve_ne_nil e) (fun _ e => resolve_low hm h.dictionary e) (by omega)

/-- A decoding job meets the unpacker's invariant. -/
theorem fillInv_of {s : State} (h : DecInv s) : FillInv s :=
  ⟨h.unpacker.3, h.unpacker.6, h.unpacker.7, h.unpacker.8⟩

theorem decodeStep_inv {s : State} (h : DecInv s) : ∃ t, execDecodeStep s = .next t ∧ t.Inv := by
  unfold execDecodeStep
  split_ifs with hN
  · exact ⟨_, rfl, terminate_inv h rfl (by decide)⟩
  · rcases readCode_inv (fillInv_of h) (h.unpacker.4 (by rw [h.cause]; decide)) h.unpacker.2 h.config.3 with
      ⟨c, t, e, f, fr, e1, e2, e3, e4, e5⟩ | ⟨t, e, f, fr, e1, e2, e3, e4, e5⟩ | ⟨t, e, e1, e2, e3, e4, e5⟩
    · rw [e]
      exact class_inv (read_dec h f (fr h.output.4) e3 e4 e5) c
    · rw [e]
      exact ⟨_, rfl, eod_inv h f (fr h.output.4) e2 e3 e5⟩
    · rw [e]
      exact ⟨_, rfl, inv_idle (by rw [e2]; exact h.memory) (by rw [e3]; exact h.dictForm) (by rw [e4]; exact h.stack) e1⟩

theorem padStep_step_inv {s : State} (h : s.Inv) (hp : s.phase = .pad) : ∃ t, execPadStep s = .next t ∧ t.Inv := by
  have j := h.job (by simp [hp])
  unfold execPadStep
  rcases padStep_inv hp j.config j.unpacker j.output h.memory with ⟨t, e, rfl, hN⟩ | ⟨t, e, hu, ho, hm, _, _, ht⟩ | ⟨t, e, e1, e2, e3, e4, e5⟩
  · exact ⟨complete s, by rw [e]; rfl, inv_idle h.memory h.dictForm h.stack rfl⟩
  · refine ⟨_, by rw [e]; rfl, ?_⟩
    generalize hca : t.memory = ca at ht hm
    generalize hbc : t.padPos = bc at ht
    generalize hbl : t.busLog = bl at ht
    subst ht
    have d := j.dictionary
    exact ⟨hm, h.dictForm, h.stack, fun _ => ⟨j.config.congr rfl rfl rfl rfl rfl rfl, hu,
      ⟨d.1, d.2, d.3, d.4, d.5, d.6, d.7, d.8, d.9, d.10, d.11⟩, ho, j.notDone, j.decodeCause, j.padCause⟩⟩
  · exact ⟨_, by rw [e]; rfl, inv_idle e2 (by rw [e3]; exact h.dictForm) (by rw [e4]; exact h.stack) e1⟩

theorem engine_inv {s : State} (h : s.Inv) : ∃ t, engineTurn s = .next t ∧ t.Inv := by
  unfold engineTurn
  cases hp : s.phase with
  | idle => exact ⟨s, rfl, h⟩
  | decode => exact decodeStep_inv (h.dec hp)
  | pad => exact padStep_step_inv h hp

/-- TAIL of a sequence of which the bus refuses the element after the first `k` (R157, R191, R253). -/
theorem tail_refused {s : State} (hm : s.memory.wf) (code x : Code) (rest : List Code) (k : Nat) (hk : k < (x :: rest).length)
    (h : s.RefusesAfter k) :
    ∃ t, (tail code (x :: rest) s).outcome = .next t ∧ s.CutShort t x ((x :: rest).take k) := by
  obtain ⟨d, nk, w, e, h6⟩ := allocGrow_steppedSix (s := s) x
  obtain ⟨t, h1, h2, h3⟩ := emitAll_refused (x :: rest) k { s with lastCode := x, dict := d, nextKey := nk, width := w } hm.1 hk ⟨h.1, h.2, h.3, h.4⟩
  have f1 : t.dict = d := by rw [h3]
  have f2 : t.nextKey = nk := by rw [h3]
  have f3 : t.width = w := by rw [h3]
  have hera : t.dictEra = s.dictEra := by rw [h3]
  have en : ∀ i, t.entry i = ({ s with lastCode := x, dict := d, nextKey := nk, width := w } : State).entry i := by intro i; unfold State.entry; rw [f1, hera]
  refine ⟨t, ?_, ?_, ⟨by rw [f2]; exact h6.1, fun h => by rw [en]; exact h6.2 h, fun i h h' => by rw [en]; exact h6.3 i h h', fun i h => by rw [en]; exact h6.4 i h, by rw [f3]; exact h6.5⟩, ⟨h2.1, h2.2, h2.3⟩⟩
  · unfold tail
    show ((emitAll (x :: rest) (allocGrow { s with lastCode := x })).andThen _).outcome = _
    rw [e, h1]; rfl
  · rw [f1, f2, f3]; exact h3

end Sys2Proof.Machine
end

