-- ==== Sys2Proof/Laws/HostCommands.lean ====
section
/-! SUPPORT. The host commands and memory turns keep the invariant (43_host_commands.md R200 to R216, 20_memory.md R76). -/

namespace Sys2Proof.Machine

/-- START keeps the invariant (R203). -/
theorem start_inv {s : State} (h : s.Inv) : ∀ {t}, startJob s = .next t → t.Inv := by
  intro t e
  unfold startJob at e
  split at e
  case isFalse => cases e; exact h
  case isTrue hp =>
    simp only at e
    split at e
    · cases e; exact inv_idle h.memory h.dictForm h.stack hp
    · next hcc =>
      split at e
      · cases e
      · next hov =>
        cases e
        apply DecInv.inv
        unfold configCheck at hcc
        split_ifs at hcc with c1 c2 c3
        simp only [State.pixelCount, not_or, Nat.not_lt] at c1 c2 c3
        have hc : s.ConfigOk := by
          refine ⟨c1, ?_, c3.1, c3.2, (Bool.eq_false_iff.2 hov : s.buffersOverlap = false)⟩
          simp [BitVec.getLsbD] at c2
          rcases Nat.mod_two_eq_zero_or_one s.dstAddr.toNat with h | h
          · exact h
          · simp [h] at c2
        have hm := hc.mincode
        have hcl := clear_le hm
        have hk := clear_toNat hm
        have hw := width_toNat hm
        have hdw := Dict.seed_wf h.dictForm (clear := s.clear) (by unfold Config.maxEntries; omega)
        refine ⟨h.memory, hdw, h.stack, rfl, rfl, rfl, hc.congr rfl rfl rfl rfl rfl rfl, ?_, ?_, ?_⟩
        · refine ⟨?_, ?_, ?_, fun _ => Nat.zero_le 7, fun e => (by cases e), Nat.zero_le _, Nat.zero_le _, ?_⟩
          · exact Nat.le_of_eq hw.symm
          · show (BitVec.ofNat 4 (s.m + 1)).toNat ≤ 12
            unfold Config.maxMincode at hm; omega
          · exact (by decide : (0 : Nat) < 2 ^ 0)
          · intro t ht; exact absurd ht (Nat.not_lt_zero t)
        · have vac : ∀ i, s.clear + 2 ≤ i → i < (BitVec.ofNat 13 (s.clear + 2)).toNat → False := by intro i; rw [hk]; omega
          refine ⟨?_, ?_, ?_, fun i h1 h2 => (vac i h1 h2).elim, fun i h1 h2 => (vac i h1 h2).elim, fun i h1 h2 => (vac i h1 h2).elim,
            fun i h1 h2 => (vac i h1 h2).elim, fun e => (by cases e), fun e => (by cases e), fun _ => hk, ?_⟩
          · exact Nat.le_of_eq hk.symm
          · show (BitVec.ofNat 13 (s.clear + 2)).toNat ≤ 4096
            omega
          · intro i hi
            exact Dict.read_seed_low _ _ hi
          · show (BitVec.ofNat 4 (s.m + 1)).toNat = 12 ∨ (BitVec.ofNat 13 (s.clear + 2)).toNat < 2 ^ (BitVec.ofNat 4 (s.m + 1)).toNat ∨
              (s.m ≤ 1 ∧ (BitVec.ofNat 13 (s.clear + 2)).toNat = s.clear + 2) ∨ _
            rw [hw, hk]
            rcases clearWidthKey hm with h | h | h
            · exact .inl h
            · exact .inr (.inl h)
            · exact .inr (.inr (.inl ⟨h, rfl⟩))
        · exact ⟨Nat.zero_le _, fun e => (by cases e), fun e => (by cases e), rfl, rfl,
            fun j hj => absurd hj (Nat.not_lt_zero j), fun j hj => absurd hj (Nat.not_lt_zero j),
            fun j _ hj => absurd hj (Nat.not_lt_zero j)⟩

/-- ABORT keeps the invariant (R206). -/
theorem abort_inv {s : State} (h : s.Inv) : (abortJob s).Inv := by
  unfold abortJob; split
  · exact h
  · exact inv_idle h.memory h.dictForm h.stack rfl

/-- The invariant does not see the interrupt enable, the read latch, the schedule or the draw counter. -/
theorem hostField_inv {s : State} (h : s.Inv) (ie : Bool) (rd : Word) (sch : List Turn) (dr : Nat) :
    ({ s with doneIe := ie, readData := rd, schedule := sch, draws := dr } : State).Inv :=
  ⟨h.memory, h.dictForm, h.stack, fun hp => by
    have j := h.job hp
    have u := j.unpacker
    have d := j.dictionary
    have o := j.output
    exact ⟨j.config.congr rfl rfl rfl rfl rfl rfl, ⟨u.1, u.2, u.3, u.4, u.5, u.6, u.7, u.8⟩,
      ⟨d.1, d.2, d.3, d.4, d.5, d.6, d.7, d.8, d.9, d.10, d.11⟩, ⟨o.1, o.2, o.3, o.4, o.5, o.6, o.7, o.8⟩, j.notDone, j.decodeCause, j.padCause⟩⟩

/-- ACK keeps the invariant (R207). -/
theorem ack_inv {s : State} (h : s.Inv) : ({ s with done := false } : State).Inv :=
  ⟨h.memory, h.dictForm, h.stack, fun hp => by
    have j := h.job hp
    have u := j.unpacker
    have d := j.dictionary
    have o := j.output
    exact ⟨j.config.congr rfl rfl rfl rfl rfl rfl, ⟨u.1, u.2, u.3, u.4, u.5, u.6, u.7, u.8⟩,
      ⟨d.1, d.2, d.3, d.4, d.5, d.6, d.7, d.8, d.9, d.10, d.11⟩, ⟨o.1, o.2, o.3, o.4, o.5, o.6, o.7, o.8⟩, rfl, j.decodeCause, j.padCause⟩⟩

/-- A configuration write keeps the invariant (R202). -/
theorem whenIdle_inv {s : State} (h : s.Inv) {f : State → State} (h1 : (f s).memory = s.memory) (h2 : (f s).dict = s.dict)
    (h3 : (f s).resolveStack = s.resolveStack) (h4 : (f s).phase = s.phase) : (whenIdle f s).Inv := by
  unfold whenIdle; split
  · next hp => exact inv_idle (by rw [h1]; exact h.memory) (by rw [h2]; exact h.dictForm) (by rw [h3]; exact h.stack) (by rw [h4]; exact hp)
  · exact h

/-- A host access decodes to a host command. -/
theorem decodeAccess_host {b : Word} {a : HostAccess} {i : Instr} (h : decodeAccess b a = .ok i) : 
    (∃ d, i = .start d) ∨ (∃ d, i = .abort d) ∨ (∃ d, i = .ctrlBoth d) ∨ (∃ d, i = .ack d) ∨ (∃ d, i = .wrIrqEn d)
    ∨ (∃ d, i = .wrConfig d) ∨ (∃ d, i = .wrSrcAddr d) ∨ (∃ d, i = .wrSrcLen d) ∨ (∃ d, i = .wrDstAddr d) ∨ (∃ d, i = .wrDim d)
    ∨ (∃ o d, i = .wrIgnored o d) ∨ (∃ o, i = .rd o) := by
  unfold decodeAccess at h
  split at h
  · simp only at h
    split at h
    · unfold decodeWrite at h
      split_ifs at h <;> try (cases h; simp)
      split at h <;> cases h <;> simp
    · unfold decodeRead at h
      split at h <;> cases h
      simp
  · cases h

theorem host_inv {s t : State} (h : s.Inv) {a : HostAccess} (e : hostTurn a s = .next t) : t.Inv := by
  unfold hostTurn at e
  split at e
  case h_2 => cases e
  next i hi =>
  rcases decodeAccess_host hi with ⟨d, rfl⟩ | ⟨d, rfl⟩ | ⟨d, rfl⟩ | ⟨d, rfl⟩ | ⟨d, rfl⟩ | ⟨d, rfl⟩ | ⟨d, rfl⟩ | ⟨d, rfl⟩ | ⟨d, rfl⟩ | ⟨d, rfl⟩ | ⟨o, d, rfl⟩ | ⟨o, rfl⟩
  · exact start_inv h e
  · cases e; exact abort_inv h
  · change execCtrlBoth d s = _ at e
    unfold execCtrlBoth at e
    split at e
    · exact start_inv h e
    · cases e; exact abort_inv h
  · cases e; split
    · exact ack_inv h
    · exact h
  · cases e; exact hostField_inv h _ _ _ _
  · cases e; exact whenIdle_inv h rfl rfl rfl rfl
  · cases e; exact whenIdle_inv h rfl rfl rfl rfl
  · cases e; exact whenIdle_inv h rfl rfl rfl rfl
  · cases e; exact whenIdle_inv h rfl rfl rfl rfl
  · cases e; exact whenIdle_inv h rfl rfl rfl rfl
  · cases e; exact h
  · cases e; exact hostField_inv h _ _ _ _

/-- A byte write leaves a halfword elsewhere alone. -/
theorem readHalf_write_other (m : Memory) {a i : Nat} (b : Byte) (h : i ≠ a) (h' : i + 1 ≠ a) : (m.write a b).readHalf i = m.readHalf i := by
  unfold Memory.readHalf; rw [Memory.read_write_other _ _ h, Memory.read_write_other _ _ h']

/-- A host memory write that is not refused keeps the invariant (R76, R80). -/
theorem memStore_inv {s t : State} (h : s.Inv) {a : Word} {b : Byte} (e : memStoreTurn a b s = .next t) : t.Inv := by
  unfold memStoreTurn at e
  split at e
  · cases e
  next hb =>
  cases e
  refine ⟨Memory.write_wf h.memory a.isLt b, h.dictForm, h.stack, fun hp => ?_⟩
  have hp : s.phase ≠ .idle := hp
  have j := h.job hp
  have u := j.unpacker
  have d := j.dictionary
  have o := j.output
  have hbusy : s.busy = true := by simp [State.busy, hp]
  rw [hbusy] at hb
  simp [State.inPayload, State.inOutput] at hb
  obtain ⟨hb1, hb2⟩ := hb
  have hj : ∀ j, j < s.pixelCount → (s.memory.write a.toNat b).readHalf (s.destAddr j) = s.memory.readHalf (s.destAddr j) := by
    intro j hj
    have := dest_lt hj
    unfold State.destAddr
    apply readHalf_write_other
    · intro e; have := hb2 (by omega); omega
    · intro e; have := hb2 (by omega); omega
  have harr : ∀ j, j < s.arrived → j < s.pixelCount := by
    intro j hj
    unfold State.arrived at hj
    have := o.1
    split at hj
    · next hpp => have := o.3 hpp; omega
    · omega
  refine ⟨j.config.congr rfl rfl rfl rfl rfl rfl, ⟨u.1, u.2, u.3, u.4, u.5, u.6, u.7, ?_⟩,
      ⟨d.1, d.2, d.3, d.4, d.5, d.6, d.7, d.8, d.9, d.10, d.11⟩, ⟨o.1, o.2, o.3, o.4, o.5, ?_, ?_, ?_⟩, j.notDone, j.decodeCause, j.padCause⟩
  · intro t ht
    have ht : t < s.bitCount.toNat := ht
    show s.cache.getLsbD t = ((s.memory.write a.toNat b).read (s.srcAddr.toNat + (s.bitPos + t) / 8)).getLsbD _
    rw [Memory.read_write_other]
    · exact u.8 t ht
    · have := u.6
      have := u.7
      have : (s.bitPos + t) / 8 < s.srcLen.toNat := by unfold State.bitPos; omega
      intro e
      have := hb1 (by omega)
      omega
  · intro j hj'
    have hj' : j < s.arrived := hj'
    show _ = some ((s.memory.write a.toNat b).readHalf (s.destAddr j))
    rw [hj j (harr j hj')]; exact o.6 j hj'
  · intro j hj'
    have hj' : j < s.outCount.toNat := hj'
    show ((s.memory.write a.toNat b).readHalf (s.destAddr j)).toNat < s.clear ∨ ((s.memory.write a.toNat b).readHalf (s.destAddr j)).toNat = s.clear + 2
    rw [hj j (by have := o.1; omega)]; exact o.7 j hj'
  · intro j h1 hj'
    have hj' : j < s.arrived := hj'
    show (s.memory.write a.toNat b).readHalf (s.destAddr j) = 0
    rw [hj j (harr j hj')]; exact o.8 j h1 hj'

/-- A host memory read keeps the invariant (R76). -/
theorem memLoad_inv {s t : State} (h : s.Inv) {a : Word} (e : memLoadTurn a s = .next t) : t.Inv := by
  unfold memLoadTurn at e
  split at e <;> cases e <;> exact hostField_inv h _ _ _ _

/-- Reset keeps the invariant (R280). -/
theorem resetBlock_inv {s : State} (h : s.Inv) : (resetBlock s).Inv :=
  inv_idle h.memory (Dict.nil_wf) rfl rfl

/-- START never faults (R201). -/
theorem startJob_nofault {s : State} {f : Fault} : startJob s ≠ .fault f := by
  unfold startJob
  split
  · simp only
    split
    · simp
    · split <;> simp
  · simp

end Sys2Proof.Machine
end

