-- ==== Sys2Proof/Laws/PerInstr.lean ====
section
/-! SUPPORT. What is proved of every instruction as syntax, one lemma per constructor. -/

namespace Sys2Proof.Laws.Encodable

/-- An instruction has an encoding exactly when it is no internal operation (30_encoding.md, R99). -/
def Statement (i : Instr) : Prop := ∀ ctx, (encode ctx i).isSome = !i.isInternal

theorem invalid (code : Code) : Statement (.invalid code) := fun _ => rfl
theorem endCode : Statement .endCode := fun _ => rfl
theorem clear : Statement .clear := fun _ => rfl
theorem first (code : Code) : Statement (.first code) := fun _ => rfl
theorem kwkwk (code : Code) : Statement (.kwkwk code) := fun _ => rfl
theorem literal (code : Code) : Statement (.literal code) := fun _ => rfl
theorem dict (code : Code) : Statement (.dict code) := fun _ => rfl
theorem start (data : Word) : Statement (.start data) := fun _ => rfl
theorem abort (data : Word) : Statement (.abort data) := fun _ => rfl
theorem ctrlBoth (data : Word) : Statement (.ctrlBoth data) := fun _ => rfl
theorem ack (data : Word) : Statement (.ack data) := fun _ => rfl
theorem wrIrqEn (data : Word) : Statement (.wrIrqEn data) := fun _ => rfl
theorem wrConfig (data : Word) : Statement (.wrConfig data) := fun _ => rfl
theorem wrSrcAddr (data : Word) : Statement (.wrSrcAddr data) := fun _ => rfl
theorem wrSrcLen (data : Word) : Statement (.wrSrcLen data) := fun _ => rfl
theorem wrDstAddr (data : Word) : Statement (.wrDstAddr data) := fun _ => rfl
theorem wrDim (data : Word) : Statement (.wrDim data) := fun _ => rfl
theorem wrIgnored (offset : Offset) (data : Word) : Statement (.wrIgnored offset data) := fun _ => rfl
theorem rd (offset : Offset) : Statement (.rd offset) := fun _ => rfl
theorem brInit : Statement .brInit := fun _ => rfl
theorem brResetWidth : Statement .brResetWidth := fun _ => rfl
theorem brWiden : Statement .brWiden := fun _ => rfl
theorem brMaxval : Statement .brMaxval := fun _ => rfl
theorem brRead : Statement .brRead := fun _ => rfl
theorem dictInit : Statement .dictInit := fun _ => rfl
theorem decodeStep : Statement .decodeStep := fun _ => rfl
theorem resolve (code : Code) : Statement (.resolve code) := fun _ => rfl
theorem alloc : Statement .alloc := fun _ => rfl
theorem grow : Statement .grow := fun _ => rfl
theorem tail (code : Code) (seq : List Code) : Statement (.tail code seq) := fun _ => rfl
theorem emit (value : Code) : Statement (.emit value) := fun _ => rfl
theorem padStep : Statement .padStep := fun _ => rfl

end Sys2Proof.Laws.Encodable
end

