-- ==== Sys2Proof/Tests/Slice0.lean ====
section
/-! SUPPORT. The model's own tests: the well-formedness smoke tests, the decoding of words written out from the spec's
encodings, single steps with expected results from the spec's examples, and for every statement a witness that meets its
hypotheses. -/

namespace Sys2Proof.Tests

open Sys2Proof.Machine

/-! ### Well-formedness: one ill-formed term for each check -/

theorem test_wf_invalid_not_above : Instr.wf tableCtx (.invalid 6) = false := by decide
theorem test_wf_code_too_wide : Instr.wf tableCtx (.invalid 8) = false := by decide
theorem test_wf_endCode_above_nextKey : Instr.wf ⟨2, 4, true, 3⟩ .endCode = false := by decide
theorem test_wf_endCode_does_not_fit : Instr.wf ⟨0, 3, true, 1⟩ .endCode = false := by decide
theorem test_wf_clear_above_nextKey : Instr.wf ⟨2, 3, true, 3⟩ .clear = false := by decide
theorem test_wf_clear_does_not_fit : Instr.wf ⟨2, 6, true, 2⟩ .clear = false := by decide
theorem test_wf_first_with_previous : Instr.wf ⟨2, 6, false, 3⟩ (.first 3) = false := by decide
theorem test_wf_first_above : Instr.wf tableCtx (.first 7) = false := by decide
theorem test_wf_first_end : Instr.wf tableCtx (.first 5) = false := by decide
theorem test_wf_first_clear : Instr.wf tableCtx (.first 4) = false := by decide
theorem test_wf_kwkwk_without_previous : Instr.wf tableCtx (.kwkwk 6) = false := by decide
theorem test_wf_kwkwk_not_nextKey : Instr.wf ⟨2, 6, false, 3⟩ (.kwkwk 3) = false := by decide
theorem test_wf_literal_clear : Instr.wf ⟨2, 6, false, 3⟩ (.literal 4) = false := by decide
theorem test_wf_literal_without_previous : Instr.wf tableCtx (.literal 3) = false := by decide
theorem test_wf_dict_end : Instr.wf ⟨2, 8, false, 4⟩ (.dict 5) = false := by decide
theorem test_wf_dict_unallocated : Instr.wf ⟨2, 8, false, 4⟩ (.dict 8) = false := by decide
theorem test_wf_start_without_bit : Instr.wf tableCtx (.start 2) = false := by decide
theorem test_wf_start_both : Instr.wf tableCtx (.start 3) = false := by decide
theorem test_wf_abort_without_bit : Instr.wf tableCtx (.abort 4) = false := by decide
theorem test_wf_ctrlBoth_one_bit : Instr.wf tableCtx (.ctrlBoth 1) = false := by decide
theorem test_wf_ack_without_bit : Instr.wf tableCtx (.ack 5) = false := by decide
theorem test_wf_wrIgnored_config : Instr.wf tableCtx (.wrIgnored 0x0C 0) = false := by decide
theorem test_wf_wrIgnored_start : Instr.wf tableCtx (.wrIgnored 0x00 1) = false := by decide
theorem test_wf_wrIgnored_ack : Instr.wf tableCtx (.wrIgnored 0x04 2) = false := by decide
theorem test_wf_rd_unaligned : Instr.wf tableCtx (.rd 0x02) = false := by decide
theorem test_wf_rd_outside : Instr.wf tableCtx (.rd 0x40) = false := by decide
theorem test_wf_widen_at_twelve : Instr.wf ⟨2, 6, true, 12⟩ .brWiden = false := by decide
theorem test_wf_tail_empty : Instr.wf tableCtx (.tail 0 []) = false := by decide

/-! ### Decoding: words written out from 30_encoding.md -/

/-- R91's example: bytes 5C 01, stream bits 001 110 101 (earliest first): codes 4, 3, 5. -/
theorem test_pack_example : packBytes [(4, 3), (3, 3), (5, 3)] = [0x5C, 0x01] := by decide
theorem test_decode_clear : decode tableCtx (.code 3 0b100) = .ok .clear := by decide
theorem test_decode_first : decode tableCtx (.code 3 0b011) = .ok (.first 3) := by decide
theorem test_decode_first_nextKey : decode tableCtx (.code 3 0b110) = .ok (.first 6) := by decide
theorem test_decode_end : decode tableCtx (.code 3 0b101) = .ok .endCode := by decide
theorem test_decode_invalid : decode tableCtx (.code 3 0b111) = .ok (.invalid 7) := by decide
theorem test_decode_kwkwk : decode ⟨2, 6, false, 3⟩ (.code 3 0b110) = .ok (.kwkwk 6) := by decide
theorem test_decode_literal : decode ⟨2, 6, false, 3⟩ (.code 3 0b010) = .ok (.literal 2) := by decide
theorem test_decode_dict : decode ⟨2, 8, false, 4⟩ (.code 4 0b0111) = .ok (.dict 7) := by decide
theorem test_decode_other_width : decode tableCtx (.code 4 0b0100) = .rejected .codeWidth := by decide
theorem test_decode_start : decodeBytes [0x00, 0x01, 0, 0, 0] = .ok (.start 1) := by decide
theorem test_decode_abort : decodeBytes [0x00, 0x02, 0, 0, 0] = .ok (.abort 2) := by decide
theorem test_decode_ctrlBoth : decodeBytes [0x00, 0x03, 0, 0, 0x80] = .ok (.ctrlBoth 0x80000003) := by decide
theorem test_decode_ctrl_none : decodeBytes [0x00, 0xFC, 0, 0, 0] = .ok (.wrIgnored 0 0xFC) := by decide
theorem test_decode_ack : decodeBytes [0x04, 0x02, 0, 0, 0] = .ok (.ack 2) := by decide
theorem test_decode_status_none : decodeBytes [0x04, 0x05, 0, 0, 0] = .ok (.wrIgnored 4 5) := by decide
theorem test_decode_wrConfig : decodeBytes [0x0C, 0x08, 0x01, 0, 0] = .ok (.wrConfig 0x108) := by decide
theorem test_decode_wrIrqEn : decodeBytes [0x10, 0x01, 0, 0, 0] = .ok (.wrIrqEn 1) := by decide
theorem test_decode_wrSrcAddr : decodeBytes [0x14, 0x00, 0x20, 0, 0] = .ok (.wrSrcAddr 0x2000) := by decide
theorem test_decode_wrSrcLen : decodeBytes [0x18, 0x02, 0, 0, 0] = .ok (.wrSrcLen 2) := by decide
theorem test_decode_wrDstAddr : decodeBytes [0x1C, 0x00, 0x10, 0, 0] = .ok (.wrDstAddr 0x1000) := by decide
theorem test_decode_wrDim : decodeBytes [0x20, 0x01, 0x00, 0x08, 0x00] = .ok (.wrDim 0x00080001) := by decide
theorem test_decode_wrIgnored : decodeBytes [0x3C, 1, 2, 3, 4] = .ok (.wrIgnored 0x3C 0x04030201) := by decide
theorem test_decode_rd : decodeBytes [0x34] = .ok (.rd 0x34) := by decide
theorem test_decode_rd_unaligned : decodeBytes [0x35] = .rejected .regAccessOther := by decide
theorem test_decode_length : decodeBytes [0, 0, 0] = .rejected .frameLength := by decide
theorem test_decode_table_word : decodeTableWord 40 0x10000C = some (.wrConfig 0x1000) := by decide

/-! ### States -/

/-- An idle block with a configuration and a memory. -/
def cfg (m : BitVec 8) (src len dst : Word) (w h : BitVec 16) (mem : Memory) : State :=
  { State.reset with
    mincode := m, srcAddr := src, srcLen := len, dstAddr := dst, dimWidth := w, dimHeight := h, memory := mem }

/-- The state after an accepted START. -/
def started (s : State) : State := { jobInit { s with done := false, cause := .none } with phase := .decode }

/-- The field of a next state. -/
def after {α : Type} (f : State → α) : Host.Outcome State Fault Refusal → Option α
  | .next t => some (f t)
  | .fault _ | .refused _ => none

/-- The spec's example V1: `m = 2`, payload 5C 01 at 0x2000, five pixels at 0x1000. -/
def idle1 : State := cfg 2 0x2000 2 0x1000 5 1 [(0x2000, 0x5C), (0x2001, 0x01)]
def job1 : State := started idle1

/-- The same block inside an epoch: FIRST 1 has been taken (R148's example). -/
def job2 : State := { job1 with prevNone := false, prevCode := 1, lastCode := 1 }

/-- And after LITERAL 2 (R152's example): entry 6 = (1, 2). -/
def job3 : State := { job1 with prevNone := false, prevCode := 2, lastCode := 2, nextKey := 7, dict := Dict.write job1.dict 6 ⟨1, 2⟩ }

/-- A platform that admits no halfword write at 0x1000 and no byte read at 0x2000. -/
def holed (s : State) : State :=
  { s with platform := ⟨0, 0, [⟨0x1000, 0x1000, 2, .write⟩, ⟨0x2000, 0x2000, 1, .read⟩]⟩ }

/-! ### Single steps -/

/-- R203's example. -/
theorem test_start : after (fun t => (t.regValue 0x04, t.regValue 0x08, t.phase)) (exec (.start 1) idle1) =
    some (1, 0, .decode) := by decide
/-- R203: START while busy has no effect. -/
theorem test_start_busy : after (fun t => (t.done, t.phase)) (exec (.start 1) { job1 with phase := .pad, done := true }) =
    some (true, .pad) := by decide
/-- R206's example. -/
theorem test_abort : after (fun t => (t.regValue 0x04, t.regValue 0x08)) (exec (.abort 2) job1) = some (6, 6) := by decide
/-- R209. -/
theorem test_ctrlBoth_idle : after (fun t => t.phase) (exec (.ctrlBoth 3) idle1) = some .decode := by decide
theorem test_ctrlBoth_busy : after (fun t => t.cause) (exec (.ctrlBoth 3) job1) = some .aborted := by decide
/-- R207's example. -/
theorem test_ack : after (fun t => (t.regValue 0x04, t.cause)) (exec (.ack 2) { idle1 with done := true, cause := .pixelsDone }) =
    some (0, .pixelsDone) := by decide
/-- R208's example. -/
theorem test_wrIrqEn : after (fun t => t.irq) (exec (.wrIrqEn 1) { idle1 with done := true }) = some true := by decide
/-- R212's example. -/
theorem test_wrConfig : after (fun t => (t.mincode, t.interlace)) (exec (.wrConfig 0x108) idle1) = some (8, true) := by decide
/-- R202. -/
theorem test_wrConfig_busy : after (fun t => (t.mincode, t.interlace)) (exec (.wrConfig 0x108) job1) = some (2, false) := by
  decide
/-- R213 to R216's examples. -/
theorem test_wrSrcAddr : after (fun t => t.srcAddr) (exec (.wrSrcAddr 0x2000) State.reset) = some 0x2000 := by decide
theorem test_wrSrcLen : after (fun t => t.srcLen) (exec (.wrSrcLen 2) State.reset) = some 2 := by decide
theorem test_wrDstAddr_odd : after (fun t => t.dstAddr) (exec (.wrDstAddr 0x1001) State.reset) = some 0x1001 := by decide
theorem test_wrDim : after (fun t => (t.dimWidth, t.dimHeight, t.pixelCount)) (exec (.wrDim 0x00080001) State.reset) =
    some (1, 8, 8) := by decide
/-- R211. -/
theorem test_wrIgnored : after (fun t => t.cause) (exec (.wrIgnored 0x08 5) State.reset) = some .none := by decide
/-- R200's example. -/
theorem test_rd : after (fun t => t.readData) (exec (.rd 0x34) State.reset) = some 0x80000000 := by decide
/-- R120's example. -/
theorem test_brInit : after (fun t => (t.width, t.cache, t.bitCount, t.inPos))
    (exec .brInit { idle1 with cache := 5, bitCount := 3, inPos := 7 }) = some (3, 0, 0, 0) := by decide
/-- R121's example. -/
theorem test_brResetWidth : after (fun t => t.width) (exec .brResetWidth { job1 with width := 5 }) = some 3 := by decide
/-- R122's example. -/
theorem test_brWiden : after (fun t => t.width) (exec .brWiden job1) = some 4 := by decide
/-- R123's example and corner. -/
theorem test_brMaxval : after (fun t => t.opResult) (exec .brMaxval job1) = some (.maxVal 7) := by decide
theorem test_brMaxval_twelve : after (fun t => t.opResult) (exec .brMaxval { job1 with width := 12 }) =
    some (.maxVal 4095) := by decide
/-- R125's example. -/
theorem test_brRead_extract : after (fun t => (t.opResult, t.cache, t.bitCount))
    (exec .brRead { job1 with cache := 0x5C, bitCount := 8, inPos := 1 }) = some (.code 4, 0x0B, 5) := by decide
/-- R124's example: cache 0b01, two bits, next byte 0x01 gives 0b101. -/
theorem test_brRead_fill : after (fun t => (t.opResult, t.cache, t.bitCount, t.inPos))
    (exec .brRead { job1 with cache := 1, bitCount := 2, inPos := 1 }) = some (.code 5, 0, 7, 2) := by decide
/-- R140 at `m = 2`. -/
theorem test_dictInit : after (fun t => (t.nextKey, t.prevNone)) (exec .dictInit { job2 with nextKey := 9 }) =
    some (6, true) := by decide
/-- R142 on V1: the first code is CLEAR; R126: at the payload's end the decode ends with END_OF_DATA. -/
theorem test_decodeStep : after (fun t => (t.codeCount, t.inPos, t.cache, t.bitCount, t.phase)) (exec .decodeStep job1) =
    some (1, 1, 0x0B, 5, .decode) := by decide
theorem test_decodeStep_endOfData : after (fun t => (t.cause, t.phase, t.codeCount))
    (exec .decodeStep { job1 with inPos := 2 }) = some (.endOfData, .pad, 0) := by decide
/-- R150: entry 6 = [1, 2]; R151 (a): CLEAR is never allocated. -/
theorem test_resolve : after (fun t => t.resolveStack) (exec (.resolve 6) job3) = some [1, 2] := by decide
theorem test_resolve_clear : after (fun t => t.cause) (exec (.resolve 4) job3) = some .corruptChain := by decide
/-- R155. -/
theorem test_alloc : after (fun t => (t.entry 6, t.nextKey)) (exec .alloc { job2 with lastCode := 2 }) =
    some (⟨1, 2⟩, 7) := by decide
theorem test_alloc_full : after (fun t => t.nextKey) (exec .alloc { job2 with nextKey := 4096 }) = some 4096 := by decide
/-- R156. -/
theorem test_grow : after (fun t => t.width) (exec .grow { job2 with nextKey := 8 }) = some 4 := by decide
theorem test_grow_not : after (fun t => t.width) (exec .grow { job2 with nextKey := 7 }) = some 3 := by decide
/-- R157. -/
theorem test_tail : after (fun t => (t.prevCode, t.lastCode, t.outCount, t.entry 6)) (exec (.tail 6 [1, 1]) job2) =
    some (6, 1, 2, ⟨1, 1⟩) := by decide
/-- R180's example. -/
theorem test_emit : after (fun t => (t.memory.readHalf 0x1000, t.outCount)) (exec (.emit 3) job1) = some (3, 1) := by decide
/-- R189: a full output discards. -/
theorem test_emit_full : after (fun t => t.outCount) (exec (.emit 3) { job1 with outCount := 5 }) = some 5 := by decide
/-- R185. -/
theorem test_padStep : after (fun t => (t.padPos, t.phase)) (exec .padStep { job1 with phase := .pad, padPos := 4 }) =
    some (5, .pad) := by decide
theorem test_padStep_completes : after (fun t => (t.phase, t.done)) (exec .padStep { job1 with phase := .pad, padPos := 5 }) =
    some (.idle, true) := by decide
/-- R145's example. -/
theorem test_invalid : after (fun t => (t.cause, t.phase, t.padPos)) (exec (.invalid 7) job1) =
    some (.corruptCode, .pad, 0) := by decide
/-- R255's example. -/
theorem test_endCode : after (fun t => (t.cause, t.phase, t.padPos)) (exec .endCode { job1 with outCount := 1 }) =
    some (.endCode, .pad, 1) := by decide
/-- R147's example. -/
theorem test_clear : after (fun t => (t.width, t.nextKey, t.prevNone)) (exec .clear { job2 with width := 4, nextKey := 9 }) =
    some (3, 6, true) := by decide
/-- R148's example. -/
theorem test_first : after (fun t => (t.memory.readHalf 0x1000, t.prevCode, t.lastCode, t.nextKey, t.prevNone))
    (exec (.first 1) job1) = some (1, 1, 1, 6, false) := by decide
/-- R152's example. -/
theorem test_literal : after (fun t => (t.memory.readHalf 0x1000, t.entry 6, t.nextKey, t.width)) (exec (.literal 2) job2) =
    some (2, ⟨1, 2⟩, 7, 3) := by decide
/-- R153's example. -/
theorem test_dict : after (fun t => (t.memory.readHalf 0x1002, t.entry 7, t.nextKey, t.width, t.lastCode))
    (exec (.dict 6) job3) = some (2, ⟨2, 1⟩, 8, 4, 1) := by decide
/-- R154's example. -/
theorem test_kwkwk : after (fun t => (t.outCount, t.memory.readHalf 0x1002, t.entry 6, t.nextKey)) (exec (.kwkwk 6) job2) =
    some (2, 1, ⟨1, 1⟩, 7) := by decide
/-- R160: KWKWK right after a FIRST code of `CLEAR + 2` ends with CORRUPT_CHAIN. -/
theorem test_kwkwk_unallocated : after (fun t => (t.cause, t.outCount))
    (exec (.kwkwk 6) { job2 with prevCode := 6, lastCode := 6 }) = some (.corruptChain, 0) := by decide
/-- EX2d: a halfword write the bus refuses leaves the element 0xEEEE, and the job has ended with BUS_ERROR. -/
theorem test_memWrite_refused :
    after (fun t => (t.memory.readHalf 0x1000, t.cause, t.phase)) ((memWrite 0x1000 3
      { holed job1 with memory := [(0x1000, 0xEE), (0x1001, 0xEE)] }).outcome) = some (0xEEEE, .busError, .idle) := by decide
/-- R53, U1: a reset turn begins a new era of unspecified dictionary contents. -/
theorem test_reset_new_era : after (fun t => (t.dict, t.dictEra)) (step { job3 with schedule := [.reset] }) = some ([], 1) := by
  decide
/-- A word placed where step fetches is the next one to run. -/
theorem test_fetch_write : after (fun t => t.mincode) (step (State.reset.withFetchWord 40 0x10C)) = some 1 := by decide
theorem test_fetch_code : after (fun t => (t.codeCount, t.width, t.prevNone)) (step (State.reset.withFetchWord 16 4)) =
    some (1, 3, true) := by decide

/-! ### Witnesses: states and operands that meet the hypotheses of the statements -/

theorem readable_of_open {s : State} (h : s.srcAddr.toNat + s.srcLen.toNat ≤ Config.busSize) (hp : s.platform.holes = []) :
    s.Readable := ⟨h, fun _ _ => by simp [Platform.admits, hp]⟩

theorem writable_of_open {s : State} (h : s.dstAddr.toNat + 2 * s.pixelCount ≤ Config.busSize) (hp : s.platform.holes = []) :
    s.Writable := ⟨h, fun _ _ => by simp [Platform.admits, hp]⟩

/-- An accepted START of an idle block with canonical memory and dictionary gives the invariant. -/
theorem started_inv {s t : State} (hm : s.memory.wf) (hd : s.dict.wf) (hs : s.resolveStack = []) (hp : s.phase = .idle)
    (h : startJob s = .next t) : t.Inv := start_inv (inv_idle hm hd hs hp) h

theorem idle1_start : startJob idle1 = .next job1 := rfl
theorem job1_inv : job1.Inv := started_inv (by decide) (by decide) rfl rfl idle1_start
theorem job1_job : job1.JobInv := job1_inv.job (by decide)
theorem job1_readable : job1.Readable := readable_of_open (by decide) rfl
theorem job1_writable : job1.Writable := writable_of_open (by decide) rfl

/-- A running job whose payload is empty. -/
def idle0 : State := cfg 2 0x2000 0 0x1000 5 1 []
def job0 : State := started idle0
theorem job0_inv : job0.Inv := started_inv (s := idle0) (by decide) (by decide) rfl rfl rfl
theorem job0_job : job0.JobInv := job0_inv.job (by decide)

/-- A running job whose one code fills its payload: `m = 7`, width 8, one byte. -/
def idle8 : State := cfg 7 0x2000 1 0x1000 5 1 [(0x2000, 0x80)]
def job8 : State := started idle8
theorem job8_inv : job8.Inv := started_inv (s := idle8) (by decide) (by decide) rfl rfl rfl
theorem job8_job : job8.JobInv := job8_inv.job (by decide)

/-- A block in PAD whose frame is complete: no pixels. -/
def pad0 : State := terminate .pixelsDone (started (cfg 2 0x2000 2 0x1000 0 1 []))
theorem pad0_inv : pad0.Inv :=
  terminate_inv ((started_inv (s := cfg 2 0x2000 2 0x1000 0 1 []) (by decide) (by decide) rfl rfl rfl).dec rfl) rfl (by decide)

/-- A running job with a full dictionary: `m = 11`, every entry from 2050 on links to 0. -/
@[irreducible] def fullDict : Dict := (List.range 4096).map fun i => (i, ⟨0, if i < 2048 then BitVec.ofNat 12 i else 0⟩)
def idleFull : State := cfg 11 0x2000 2 0x1000 5 1 []
theorem idleFull_start : startJob idleFull = .next (started idleFull) := rfl
def jobFull : State :=
  { started idleFull with dict := fullDict, nextKey := 4096, prevNone := false }

theorem fullDict_read (era i : Nat) (h : i < 4096) : Dict.read era fullDict i = ⟨0, if i < 2048 then BitVec.ofNat 12 i else 0⟩ := by
  unfold fullDict Dict.read
  rw [Dict.find?_map_range, if_pos h]; rfl

theorem fullDict_wf : fullDict.wf := by
  constructor
  · unfold fullDict Sparse.Rising
    rw [List.map_map]
    have : (Prod.fst ∘ fun i : Nat => (i, (⟨0, if i < 2048 then BitVec.ofNat 12 i else 0⟩ : DictEntry))) = id := rfl
    rw [this, List.map_id]
    exact List.pairwise_lt_range
  · intro c hc
    unfold fullDict at hc
    obtain ⟨i, hi, rfl⟩ := List.mem_map.1 hc
    exact List.mem_range.1 hi

theorem jobFull_inv : jobFull.Inv := by
  have base := (started_inv (by decide) (by decide) rfl rfl idleFull_start).job (by decide)
  have hr : ∀ i, i < 4096 → jobFull.entry i = ⟨0, if i < 2048 then BitVec.ofNat 12 i else 0⟩ := by
    intro i hi
    have h1 : jobFull.dict = fullDict := by unfold jobFull; rfl
    unfold State.entry
    rw [h1]
    exact fullDict_read _ i hi
  have hc : jobFull.clear = 2048 := by decide
  have hk : jobFull.nextKey.toNat = 4096 := by decide
  have hd : jobFull.dict.wf := by unfold jobFull; exact fullDict_wf
  refine ⟨Memory.nil_wf, hd, rfl, fun _ => ⟨?_, ?_, ?_, ?_, rfl, fun _ => rfl, fun h => by cases h⟩⟩
  · exact base.config.congr rfl rfl rfl rfl rfl rfl
  · exact ⟨by decide, by decide, by decide, fun _ => by decide, fun h => (by cases h), by decide, by decide,
      fun k hk => absurd hk (Nat.not_lt_zero k)⟩
  · refine ⟨by rw [hc, hk]; decide, by rw [hk]; decide, fun i hi => ?_, fun i h1 h2 => ?_, fun i h1 h2 h3 => ?_,
      fun i h1 h2 => ?_, fun i h1 h2 => ?_, fun _ => .inl (by decide), fun _ => .inl (by decide), fun h => (by cases h), .inl (by decide)⟩
    · rw [hc] at hi; rw [hr i (by omega), if_pos hi]
    · rw [hk] at h2; rw [hr i h2]; exact Nat.zero_le i
    · rw [hc] at h1; rw [hk] at h2; rw [hr i h2] at h3
      have : (0 : Nat) = i := h3
      omega
    · rw [hk] at h2; rw [hr i h2, hc]; exact .inl (show (0 : Nat) < 2048 by decide)
    · rw [hc] at h1; rw [hk] at h2; rw [hr i h2, if_neg (by omega), hc]; decide
  · exact ⟨by decide, fun h => (by cases h), fun h => (by cases h), rfl, rfl, fun j hj => absurd hj (Nat.not_lt_zero j),
      fun j hj => absurd hj (Nat.not_lt_zero j), fun j _ hj => absurd hj (Nat.not_lt_zero j)⟩

/-- Entry 6 of job3 links below itself, so job3 meets the dictionary's invariant with an allocated entry. -/
theorem job3_dict : job3.DictInv := by
  have hc : job3.clear = 4 := by decide
  have hk : job3.nextKey.toNat = 7 := by decide
  have h6 : job3.entry 6 = ⟨1, 2⟩ := by decide
  have only : ∀ i, job3.clear + 2 ≤ i → i < job3.nextKey.toNat → i = 6 := by intro i h1 h2; omega
  refine ⟨by decide, by decide, ?_, fun i h1 h2 => ?_, fun i h1 h2 h3 => ?_, fun i h1 h2 => ?_, fun i h1 h2 => ?_,
    fun _ => .inl (by decide), fun _ => .inl (by decide), fun h => (by cases h), .inr (.inl (by decide))⟩
  · rw [hc]; decide
  · rw [only i h1 h2, h6]; decide
  · rw [only i h1 h2, h6] at h3; exact absurd h3 (by decide)
  · rw [only i h1 h2, h6, hc]; decide
  · rw [only i h1 h2, h6, hc]; decide

/-- A dictionary whose entry 6 links to itself (R160), with entry 7 above it and entry 8 above the literal 3. -/
def jobLoop : State :=
  { job3 with
    nextKey := 9, width := 4
    dict := Dict.write (Dict.write (Dict.write job1.dict 6 ⟨6, 1⟩) 7 ⟨6, 2⟩) 8 ⟨3, 1⟩ }

theorem jobLoop_dict : jobLoop.DictInv := by
  have hc : jobLoop.clear = 4 := by decide
  have hk : jobLoop.nextKey.toNat = 9 := by decide
  have key : ∀ i, jobLoop.clear + 2 ≤ i → i < jobLoop.nextKey.toNat → i = 6 ∨ i = 7 ∨ i = 8 := by intro i h1 h2; omega
  have h6 : jobLoop.entry 6 = ⟨6, 1⟩ := by decide
  have h7 : jobLoop.entry 7 = ⟨6, 2⟩ := by decide
  have h8 : jobLoop.entry 8 = ⟨3, 1⟩ := by decide
  refine ⟨by decide, by decide, by rw [hc]; decide, fun i h1 h2 => ?_, fun i h1 h2 h3 => ?_, fun i h1 h2 => ?_, fun i h1 h2 => ?_,
    fun _ => .inl (by decide), fun _ => .inl (by decide), fun h => (by cases h), .inr (.inl (by decide))⟩
  · rcases key i h1 h2 with rfl | rfl | rfl <;> simp only [h6, h7, h8] <;> decide
  · rw [hc]; rcases key i h1 h2 with rfl | rfl | rfl <;> simp only [h6, h7, h8] at h3 <;> revert h3 <;> decide
  · rw [hc]; rcases key i h1 h2 with rfl | rfl | rfl <;> simp only [h6, h7, h8] <;> decide
  · rw [hc]; rcases key i h1 h2 with rfl | rfl | rfl <;> simp only [h6, h7, h8] <;> decide

/-- The chain of entry 8 does not come to entry 6. -/
theorem jobLoop_eight (d : Code) (h : jobLoop.Reaches 8 d) : d = 8 ∨ d = 3 := by
  rcases h with _ | ⟨_, h⟩
  · exact .inl rfl
  · rw [show (jobLoop.entry (8 : Code).toNat).pre = 3 by decide] at h
    rcases h with _ | ⟨h1, _⟩
    · exact .inr rfl
    · exact absurd h1 (by decide)

theorem witness_DecodeUndoesEncode_encoded : Instr.wf tableCtx (.first 3) = true ∧ (Instr.first 3).isInternal = false := by
  decide
theorem witness_DecodeUndoesEncode_internal : Instr.wf tableCtx .brRead = true ∧ Instr.brRead.isInternal = true := by decide
theorem witness_EncodeUndoesDecode : decode tableCtx (.code 3 7) = .ok (.invalid 7) := by decide
/-- Both contexts meet the hypothesis; in them the codes 7, 5, 4, 6 (with and without a previous code), 3 and, with
`nextKey = 8`, 6 and 7 fall into the seven classes at their boundaries. -/
theorem witness_CodesSelectOneClass : tableCtx.clear + 2 ≤ tableCtx.nextKey ∧
    [7, 5, 4, 6].map (fun c => decodeCode tableCtx c) = [.invalid 7, .endCode, .clear, .first 6] ∧
    [6, 3, 0].map (fun c => decodeCode ⟨2, 6, false, 3⟩ c) = [.kwkwk 6, .literal 3, .literal 0] ∧
    [9, 8, 7, 6].map (fun c => decodeCode ⟨2, 8, false, 4⟩ c) = [.invalid 9, .kwkwk 8, .dict 7, .dict 6] := by decide
theorem witness_ClassesInARunningJob_first : job1.Inv ∧ job1.phase ≠ .idle ∧ decodeCode job1.codeCtx 6 = .first 6 :=
  ⟨job1_inv, by decide, by decide⟩
theorem witness_ClassesInARunningJob_full : jobFull.Inv ∧ jobFull.phase ≠ .idle ∧ jobFull.nextKey.toNat = 4096 :=
  ⟨jobFull_inv, by decide, by decide⟩
theorem witness_OnlyAlignedWordAccessesDecode :
    [(4, 0x3C), (4, 0x00), (4, 0x40), (4, 0x02), (2, 0x04), (1, 0x00)].map (fun p : Nat × Word =>
      decodeAccess 0 ⟨false, p.1, p.2, 0⟩) =
    [.ok (.rd 0x3C), .ok (.rd 0x00), .rejected .regAccessOther, .rejected .regAccessOther, .rejected .regAccessOther,
      .rejected .regAccessOther] := by decide
theorem witness_ConfigurationWritesStoreOnlyWhenIdle : idle1.phase = .idle ∧ job1.phase ≠ .idle := by decide
theorem witness_ReadOnlyRegisterWritesAreIgnored : (0x3C : Offset) ∈ [(0x08 : Offset), 0x24, 0x28, 0x2C, 0x30, 0x34, 0x38, 0x3C] := by
  decide
theorem witness_AckClearsDone : (2 : Word).getLsbD 1 = true ∧ (0xFFFFFFFD : Word).getLsbD 1 = false ∧ job1.Inv ∧ job1.phase ≠ .idle :=
  ⟨by decide, by decide, job1_inv, by decide⟩
theorem witness_AbortEndsARunningJob : job1.phase ≠ .idle ∧ idle1.phase = .idle := by decide
theorem witness_CtrlWriteByItsTwoBits :
    [(3 : Word), 1, 2, 0].map (fun d => (d.getLsbD 0, d.getLsbD 1)) = [(true, true), (true, false), (false, true), (false, false)] ∧
    idle1.phase = .idle ∧ job1.phase ≠ .idle := by decide
theorem witness_StartRefused_mincode : (cfg 12 0 0 0 0 0 []).phase = .idle ∧ 11 < (cfg 12 0 0 0 0 0 []).mincode.toNat := by decide
theorem witness_StartRefused_align : (cfg 11 0 0 1 0 0 []).phase = .idle ∧ ¬ 11 < (cfg 11 0 0 1 0 0 []).mincode.toNat ∧
    (cfg 11 0 0 1 0 0 []).dstAddr.toNat % 2 = 1 := by decide
/-- The first range is one byte too long, the second, on a second state, one element. -/
theorem witness_StartRefused_range :
    (let s := cfg 11 0xFFFFFFFE 3 0 0 0 []
     s.phase = .idle ∧ ¬ 11 < s.mincode.toNat ∧ ¬ s.dstAddr.toNat % 2 = 1 ∧ 2 ^ 32 < s.srcAddr.toNat + s.srcLen.toNat) ∧
    (let s := cfg 0 0 0 0xFFFFFFFE 2 1 []
     s.phase = .idle ∧ ¬ 11 < s.mincode.toNat ∧ ¬ s.dstAddr.toNat % 2 = 1 ∧ 2 ^ 32 < s.dstAddr.toNat + 2 * s.pixelCount) := by
  decide
/-- Both buffers end at the top of the bus space, one after the other. -/
theorem witness_AcceptedStartInitialisesTheJob :
    let s := cfg 11 0xFFFFFFFE 2 0xFFFFFFFC 1 1 []
    s.phase = .idle ∧ s.mincode.toNat ≤ 11 ∧ s.dstAddr.toNat % 2 = 0 ∧ s.srcAddr.toNat + s.srcLen.toNat ≤ 2 ^ 32 ∧
      s.dstAddr.toNat + 2 * s.pixelCount ≤ 2 ^ 32 ∧ s.buffersOverlap = false ∧ (0 < s.clear ∧ s.clear ≤ 2048) := by decide
/-- The payload's last byte is the output's first. -/
theorem witness_OverlappingBuffersAreRefused :
    let s := cfg 2 0xFFF 2 0x1000 1 1 []
    s.phase = .idle ∧ s.mincode.toNat ≤ 11 ∧ s.dstAddr.toNat % 2 = 0 ∧ s.srcAddr.toNat + s.srcLen.toNat ≤ 2 ^ 32 ∧
      s.dstAddr.toNat + 2 * s.pixelCount ≤ 2 ^ 32 ∧ s.srcAddr.toNat ≤ 0x1000 ∧ 0x1000 < s.srcAddr.toNat + s.srcLen.toNat ∧
      s.dstAddr.toNat ≤ 0x1000 ∧ 0x1000 < s.dstAddr.toNat + 2 * s.pixelCount := by decide
theorem witness_UnpackerWidthOperations : (cfg 11 0 0 0 0 0 []).m ≤ 11 ∧ ({ job1 with width := 11 } : State).m ≤ 11 ∧
    ({ job1 with width := 11 } : State).width.toNat < 12 := by decide
/-- The last whole code: its 8 bits end the payload. -/
theorem witness_ReadReturnsTheNextStreamBits : job8.UnpackerInv ∧ job8.cause ≠ .endOfData ∧ job8.Readable ∧
    job8.bitPos + job8.width.toNat = 8 * job8.srcLen.toNat :=
  ⟨job8_job.unpacker, by decide, readable_of_open (by decide) rfl, by decide⟩
theorem witness_ReadMeetsTheEndOfThePayload : job0.UnpackerInv ∧ job0.cause ≠ .endOfData ∧ job0.Readable ∧
    8 * job0.srcLen.toNat < job0.bitPos + job0.width.toNat :=
  ⟨job0_job.unpacker, by decide, readable_of_open (by decide) rfl, by decide⟩
theorem witness_ReadOfARefusedByteEndsTheJob_first : (holed job1).bitCount.toNat + 8 * 0 < (holed job1).width.toNat ∧
    (holed job1).inPos.toNat + 0 < (holed job1).srcLen.toNat ∧
    (holed job1).srcAddr.toNat + (holed job1).srcLen.toNat ≤ 2 ^ 32 ∧
    (holed job1).platform.admits ((holed job1).srcAddr.toNat + (holed job1).inPos.toNat + 0) 1 .read = false ∧
    (holed job1).outCount.toNat < (holed job1).pixelCount ∧ (holed job1).cache.toNat < 2 ^ (holed job1).bitCount.toNat := by
  decide
/-- Width 9: the first byte is admitted and the second, the payload's last, is not. -/
theorem witness_ReadOfARefusedByteEndsTheJob_second :
    let s : State := { started (cfg 8 0x1FFF 2 0x1000 5 1 []) with platform := (holed job1).platform }
    s.bitCount.toNat + 8 * 1 < s.width.toNat ∧ s.inPos.toNat + 1 < s.srcLen.toNat ∧
    s.srcAddr.toNat + s.srcLen.toNat ≤ 2 ^ 32 ∧
    (∀ i, i < 1 → s.platform.admits (s.srcAddr.toNat + s.inPos.toNat + i) 1 .read = true) ∧
    s.platform.admits (s.srcAddr.toNat + s.inPos.toNat + 1) 1 .read = false ∧
    s.outCount.toNat < s.pixelCount ∧ s.cache.toNat < 2 ^ s.bitCount.toNat := by decide
/-- The payload's last byte carries one code bit; its seven unused bits are filled with ones. -/
theorem witness_PackedCodesReadBack :
    let s : State := { job1 with memory := [(0x2000, 0x5C), (0x2001, 0xFF)] }
    (∀ c ∈ [(4, 3), (3, 3), (5, 3)], 1 ≤ c.2 ∧ c.2 ≤ 12 ∧ c.1 < 2 ^ c.2) ∧
    s.cache = 0 ∧ s.bitCount = 0 ∧ s.inPos = 0 ∧ s.Readable ∧
    s.srcLen.toNat = (packedBits [(4, 3), (3, 3), (5, 3)] + 7) / 8 ∧
    ∀ i, i < packedBits [(4, 3), (3, 3), (5, 3)] → s.streamBit i = (packCodes [(4, 3), (3, 3), (5, 3)]).testBit i :=
  ⟨by decide, by decide, by decide, by decide, readable_of_open (by decide) rfl, by decide, by decide⟩
theorem witness_DictionaryInit : (cfg 11 0 0 0 0 0 []).m ≤ 11 ∧ job2.m ≤ 11 := by decide
/-- A literal, and entry 8 of a dictionary in which entry 6 links to itself. -/
theorem witness_AllocatedIndicesResolve : jobLoop.m ≤ 11 ∧ jobLoop.DictInv ∧
    (jobLoop.allocated (3 : Code).toNat = true ∧ jobLoop.allocated (8 : Code).toNat = true) ∧
    (jobLoop.entry 6).pre = 6 ∧
    ∀ d, jobLoop.Reaches 8 d → d.toNat = jobLoop.clear + 2 → (jobLoop.entry d.toNat).pre ≠ d :=
  ⟨by decide, jobLoop_dict, by decide, by decide, fun d h e => by
    rcases jobLoop_eight d h with rfl | rfl <;> exact absurd e (by decide)⟩
/-- CLEAR, END and `nextKey` themselves; and entry 7, whose chain comes to the self-linked entry 6. -/
theorem witness_CorruptChainsEndTheDecode :
    (∀ c ∈ [(4 : Code), 5, 7], job3.Reaches c c ∧
      ¬ (c.toNat < job3.clear ∨ (job3.clear + 2 ≤ c.toNat ∧ c.toNat < job3.nextKey.toNat))) ∧
    (jobLoop.Reaches 7 6 ∧ jobLoop.clear + 2 ≤ (6 : Code).toNat ∧ (jobLoop.entry (6 : Code).toNat).pre = 6 ∧
      jobLoop.allocated (7 : Code).toNat = true) := by
  refine ⟨fun c hc => ⟨.here c, ?_⟩, .link (by decide) ?_, by decide, by decide, by decide⟩
  · revert c; decide
  · rw [show (jobLoop.entry (7 : Code).toNat).pre = 6 by decide]; exact .here 6
theorem witness_AllocationAndGrowth : ({ job2 with nextKey := 4095 } : State).nextKey.toNat < 4096 ∧
    4096 ≤ jobFull.nextKey.toNat ∧
    (2 ^ job2.width.toNat - 1 < ({ job2 with nextKey := 8 } : State).nextKey.toNat ∧ job2.width.toNat < 12) ∧
    ({ job2 with nextKey := 7 } : State).nextKey.toNat ≤ 2 ^ job2.width.toNat - 1 ∧ 12 ≤ jobFull.width.toNat := by decide
theorem witness_TailAllocatesThenEmits : job2.memory.wf ∧ job2.outCount.toNat ≤ job2.pixelCount ∧ job2.Writable :=
  ⟨by decide, by decide, writable_of_open (by decide) rfl⟩
theorem witness_ResolvedCodesEmitTheirSequence : job3.memory.wf ∧ job3.outCount.toNat ≤ job3.pixelCount ∧ job3.Writable ∧
    ((3 : Code).toNat < job3.clear ∧ (job3.entry 3).suf = 3) ∧ resolve 6 job3 = some [1, 2] ∧
    resolve job3.prevCode job3 = some [2] :=
  ⟨by decide, by decide, writable_of_open (by decide) rfl, by decide, by decide, by decide⟩
theorem witness_FailedResolutionEndsTheDecode : resolve 4 job3 = none ∧
    resolve ({ job1 with prevCode := 6 } : State).prevCode { job1 with prevCode := 6 } = none := by decide
theorem witness_FirstEmitsItsCode : job1.memory.wf ∧ job1.outCount.toNat < job1.pixelCount ∧ job1.Writable :=
  ⟨by decide, by decide, job1_writable⟩
theorem witness_ClearResetsTheEpoch : jobFull.m ≤ 11 ∧ job2.m ≤ 11 := by decide
theorem witness_DecodeStepStopsAtThePixelCount : ({ job1 with outCount := 5 } : State).pixelCount = 5 ∧
    ({ job1 with outCount := 5 } : State).outCount.toNat = 5 := by decide
theorem witness_DecodeStepRunsTheNextCode : job8.Inv ∧ job8.phase = .decode ∧ job8.outCount.toNat < job8.pixelCount ∧
    job8.Readable ∧ job8.bitPos + job8.width.toNat ≤ 8 * job8.srcLen.toNat :=
  ⟨job8_inv, by decide, by decide, readable_of_open (by decide) rfl, by decide⟩
theorem witness_DecodeStepEndsWithoutData : job0.Inv ∧ job0.phase = .decode ∧ job0.outCount.toNat < job0.pixelCount ∧
    job0.Readable ∧ 8 * job0.srcLen.toNat < job0.bitPos + job0.width.toNat :=
  ⟨job0_inv, by decide, by decide, readable_of_open (by decide) rfl, by decide⟩
/-- The last element that is written, and the first that is not. -/
theorem witness_EmitWritesOneElement : job1.memory.wf ∧
    (({ job1 with outCount := 4 } : State).outCount.toNat < job1.pixelCount ∧ ({ job1 with outCount := 4 } : State).Writable) ∧
    job1.pixelCount ≤ ({ job1 with outCount := 5 } : State).outCount.toNat :=
  ⟨by decide, ⟨by decide, writable_of_open (by decide) rfl⟩, by decide⟩
theorem witness_PadStepWritesZeroOrCompletes : job1.memory.wf ∧
    (({ job1 with padPos := 4 } : State).padPos.toNat < job1.pixelCount ∧ ({ job1 with padPos := 4 } : State).Writable) ∧
    job1.pixelCount ≤ ({ job1 with padPos := 5 } : State).padPos.toNat :=
  ⟨by decide, ⟨by decide, writable_of_open (by decide) rfl⟩, by decide⟩
/-- The bus refuses the element at 0x1000, and after it only the one at 0x1002, the last of the frame. -/
theorem witness_RefusedOutputWriteEndsTheJob : (holed job2).memory.wf ∧ (holed job2).RefusesAfter 0 ∧
    (let s : State := { job3 with dimWidth := 2, platform := ⟨0, 0, [⟨0x1002, 0x1002, 2, .write⟩]⟩ }
     s.memory.wf ∧ s.RefusesAfter 1 ∧ resolve 6 s = some [1, 2] ∧
      (resolve s.prevCode s).map (· ++ [s.lastCode]) = some [2, 2] ∧ 1 < [(2 : Code), 2].length) ∧
    resolve 3 (holed job2) = some [3] ∧
    ((holed job2).dstAddr.toNat + 2 * (holed job2).pixelCount ≤ 2 ^ 32 ∧ (holed job2).padPos.toNat < (holed job2).pixelCount ∧
      (holed job2).platform.admits ((holed job2).destAddr (holed job2).padPos.toNat) 2 .write = false) := by
  refine ⟨by decide, ⟨by decide, by decide, fun j h1 h2 => ?_, by decide⟩,
    ⟨by decide, ⟨by decide, by decide, fun j h1 h2 => ?_, by decide⟩, by decide, by decide, by decide⟩, by decide, by decide⟩
  · omega
  · have : j = 0 := by
      change 0 ≤ j at h1
      change j < 0 + 1 at h2
      omega
    subst this; decide
/-- Both maps, with the last arrival position of a frame of eight rows; the last arrival row of each pass. -/
theorem witness_OutputMapIsABijection : 4 < job1.pixelCount ∧ job1.interlace = false ∧
    (let s : State := { cfg 2 0 0 0 2 8 [] with interlace := true }
     s.interlace = true ∧ 15 < s.pixelCount ∧ s.dest 15 = 15 ∧ s.dest 3 = 9) ∧
    (0 < (8 + 7) / 8 ∧ 1 < (8 + 7) / 8 + (8 + 3) / 8 ∧ 3 < (8 + 7) / 8 + (8 + 3) / 8 + (8 + 1) / 4) ∧ 7 < 8 := by decide
theorem witness_StepRunsTheDecodedTurn :
    let a : HostAccess := ⟨false, 4, 0x3C, 0⟩
    ({ job1 with schedule := [.host a] } : State).schedule = .host a :: [] ∧ decodeAccess job1.platform.blockBase a = .ok (.rd 0x3C) ∧
    ({ job1 with schedule := [.engine] } : State).schedule = .engine :: [] ∧ job1.schedule = [] ∧
    job1.phase = .decode ∧ pad0.phase = .pad ∧ pad0.schedule = [] ∧ idle1.phase = .idle ∧ idle1.schedule = [] := by decide
theorem witness_ResetSetsEveryElement : ({ job3 with schedule := [.reset, .engine] } : State).schedule = .reset :: [.engine] := rfl
/-- The last byte of each buffer while busy, and the byte after it. -/
theorem witness_HostMemoryAccesses : job1.memory.wf ∧ job1.phase ≠ .idle ∧ job1.inPayload 0x2001 = true ∧
    job1.inOutput 0x1009 = true ∧ (job1.inPayload 0x2002 = false ∧ job1.inOutput 0x2002 = false) ∧
    (job1.inPayload 0x100A = false ∧ job1.inOutput 0x100A = false) ∧ idle1.phase = .idle := by decide
theorem witness_RegisterAccessesLeaveMemoryAlone : ∃ t, hostTurn ⟨true, 4, 0x00, 1⟩ idle1 = .next t := ⟨_, rfl⟩
theorem witness_OnlyStartBeginsAJob :
    let s : State := { idle1 with schedule := [.host ⟨true, 4, 0x00, 1⟩] }
    ∃ t, step s = .next t ∧ s.phase = .idle ∧ t.phase ≠ .idle := ⟨_, rfl, by decide, by decide⟩
theorem witness_EngineWritesOnlyTheOutputBuffer : ∃ t, engineTurn job1 = .next t ∧ job1.inOutput 0x100A = false ∧
    job1.inOutput 0x0FFF = false := by
  obtain ⟨t, e, _⟩ := engine_inv job1_inv
  exact ⟨t, e, by decide, by decide⟩
theorem witness_EveryStepKeepsTheInvariant : job1.Inv ∧ ∃ t, step job1 = .next t := by
  obtain ⟨t, e, _⟩ := engine_inv job1_inv
  exact ⟨job1_inv, t, e⟩
theorem witness_NoStepFaults : job1.Inv ∧ pad0.Inv := ⟨job1_inv, pad0_inv⟩
theorem witness_EveryJobEnds : job1.Inv ∧ job1.phase = .decode := ⟨job1_inv, by decide⟩
/-- A padded frame of no pixels, and after it one of a decoded and a padded pixel. -/
theorem witness_FinalContentsOfAPaddedFrame : pad0.Inv ∧ pad0.phase = .pad ∧ ∃ t, engineTurn pad0 = .next t ∧ t.phase = .idle ∧
    t.cause ≠ .busError := ⟨pad0_inv, by decide, _, rfl, by decide, by decide⟩
theorem witness_FramesAreIndependent :
    let s₂ : State := { idle1 with dict := [(6, ⟨6, 3⟩)], nextKey := 9, lastCode := 2, codeCount := 7, done := true }
    idle1.phase = .idle ∧ s₂.phase = .idle ∧ idle1.memory = s₂.memory ∧ idle1.platform = s₂.platform ∧
      ∃ t₁ t₂ u₁, exec (.start 1) idle1 = .next t₁ ∧ exec (.start 1) s₂ = .next t₂ ∧ engineRun 0 t₁ = .next u₁ :=
  ⟨by decide, by decide, by decide, by decide, _, _, _, rfl, rfl, rfl⟩
/-- A job in DECODE and one in PAD. -/
theorem witness_EngineTurnWritesTheNextElements :
    (job1.Inv ∧ job1.phase ≠ .idle ∧ ∃ t, engineTurn job1 = .next t) ∧
    (pad0.Inv ∧ pad0.phase ≠ .idle ∧ ∃ t, engineTurn pad0 = .next t) := by
  obtain ⟨t, e, _⟩ := engine_inv job1_inv
  obtain ⟨u, e', _⟩ := engine_inv pad0_inv
  exact ⟨⟨job1_inv, by decide, t, e⟩, pad0_inv, by decide, u, e'⟩

end Sys2Proof.Tests
end

/-! # Proofs: the state between transitions (10_state.md)

What a step runs, the reset values, the status flags, and that every step keeps the invariant of R52; and from that
invariant READ at the end of the payload (R126) and the resolution of allocated indices (R150). -/

namespace Sys2Proof.Machine

/-! ### Which turn a step takes (R20, R291) -/

/-- With no turn left the engine moves (R293). -/
theorem step_of_schedule_nil {s : State} (h : s.schedule = []) : step s = engineTurn s := by
  unfold step nextTransition; rw [h]

/-- The oldest turn is taken and leaves the schedule. -/
theorem step_of_schedule_cons {s : State} {t : Turn} {rest : List Turn} (h : s.schedule = t :: rest) :
    step s = takeTurn t { s with schedule := rest } := by
  unfold step nextTransition; rw [h]

theorem engineTurn_of_decode {s : State} (h : s.phase = .decode) : engineTurn s = exec .decodeStep s := by
  unfold engineTurn; rw [h]; rfl

theorem engineTurn_of_pad {s : State} (h : s.phase = .pad) : engineTurn s = exec .padStep s := by
  unfold engineTurn; rw [h]; rfl

theorem engineTurn_of_idle {s : State} (h : s.phase = .idle) : engineTurn s = .next s := by
  unfold engineTurn; rw [h]; rfl

/-- A host access runs the instruction it decodes to (R66, R99). -/
theorem hostTurn_of_decoded {s : State} {a : HostAccess} {i : Instr}
    (h : decodeAccess s.platform.blockBase a = .ok i) : hostTurn a s = exec i s := by
  unfold hostTurn; rw [h]

/-- Settles O40, by the first turn of the schedule and the phase. -/
theorem stepRunsTheDecodedTurn : Obligations.StepRunsTheDecodedTurn := by
  refine ⟨fun s a rest i hs hi => ?host, fun s rest hs => ?engine, fun s hs => ?empty⟩
  case host => rw [step_of_schedule_cons hs]; exact hostTurn_of_decoded hi
  case engine =>
    rw [step_of_schedule_cons hs]
    exact ⟨fun hp => engineTurn_of_decode hp, fun hp => engineTurn_of_pad hp, fun hp => engineTurn_of_idle hp⟩
  case empty =>
    rw [step_of_schedule_nil hs]
    exact ⟨engineTurn_of_decode, engineTurn_of_pad, engineTurn_of_idle⟩

/-! ### The invariant of R52 -/

/-- An engine turn keeps the invariant. -/
theorem engineTurn_keeps_inv {s t : State} (h : s.Inv) (e : engineTurn s = .next t) : t.Inv := by
  obtain ⟨u, eu, hu⟩ := engine_inv h
  obtain rfl : u = t := by rw [eu] at e; injection e
  exact hu

/-- Every turn keeps the invariant (R20, R291). -/
theorem takeTurn_keeps_inv {s t : State} (turn : Turn) (h : s.Inv) (e : takeTurn turn s = .next t) : t.Inv := by
  cases turn with
  | engine => exact engineTurn_keeps_inv h e
  | host a => exact host_inv h e
  | memStore a b => exact memStore_inv h e
  | memLoad a => exact memLoad_inv h e
  | reset => cases e; exact resetBlock_inv h

/-- The invariant does not see the turns to come. -/
theorem State.Inv.withSchedule {s : State} (h : s.Inv) (rest : List Turn) : ({ s with schedule := rest } : State).Inv :=
  hostField_inv h s.doneIe s.readData rest s.draws

/-- Settles O47: a step is the oldest turn, or the engine's, and every turn keeps the invariant. -/
theorem everyStepKeepsTheInvariant : Obligations.EveryStepKeepsTheInvariant := by
  intro s t h e
  cases hs : s.schedule with
  | nil => rw [step_of_schedule_nil hs] at e; exact engineTurn_keeps_inv h e
  | cons turn rest => rw [step_of_schedule_cons hs] at e; exact takeTurn_keeps_inv turn (h.withSchedule rest) e

/-- Settles O46: while idle the invariant asks only for canonical forms and an empty stack. -/
theorem invariantHoldsAtReset : Obligations.InvariantHoldsAtReset :=
  inv_idle Memory.nil_wf Dict.nil_wf rfl rfl

/-! ### Flags and the interrupt output (R50, R51) -/

theorem irq_eq_true_iff (s : State) : s.irq = true ↔ s.doneIe = true ∧ s.done = true := by
  unfold State.irq; rw [Bool.and_eq_true]

/-- Settles O9. -/
theorem interruptEnableAndOutput : Obligations.InterruptEnableAndOutput :=
  fun s _ => ⟨rfl, irq_eq_true_iff s⟩

/-- The causes that are no errors have the codes 0 to 2 (R251). -/
theorem Cause.isError_iff_code (c : Cause) : c.isError = true ↔ 3 ≤ c.code.toNat := by
  cases c <;> decide

theorem Cause.isError_iff_mem (c : Cause) : c.isError = true ↔
    c ∈ [Cause.endOfData, .corruptCode, .corruptChain, .aborted, .busError, .cfgMincode, .cfgAlign, .cfgRange] := by
  cases c <;> decide

/-- Settles O17, by the cause. -/
theorem errorFlagFollowsTheCause : Obligations.ErrorFlagFollowsTheCause :=
  fun s => ⟨s.cause.isError_iff_code, s.cause.isError_iff_mem, by decide⟩

/-! ### Reset (R53, R280) -/

/-- Of a block just reset, DBG_PREV reads PREV_NONE and every other offset reads 0 (R53). -/
theorem reset_regValue (o : Offset) : State.reset.regValue o = if o = Reg.dbgPrev then 0x80000000 else 0 := by
  revert o; decide

/-- No register shows what a reset turn keeps (R34, log 20). -/
theorem resetBlock_regValue (s : State) (o : Offset) : (resetBlock s).regValue o = State.reset.regValue o := rfl

/-- Settles O41: the step answers `resetBlock`, whose fields are those of R53's table. -/
theorem resetSetsEveryElement : Obligations.ResetSetsEveryElement := by
  intro s rest hs
  refine ⟨resetBlock { s with schedule := rest }, step_of_schedule_cons hs, ?_⟩
  refine ⟨rfl, rfl, rfl, rfl, rfl, rfl, rfl, rfl, rfl, rfl, rfl, rfl, rfl, rfl, rfl, rfl, rfl, rfl, rfl, rfl, rfl, rfl,
    rfl, rfl, rfl, rfl, ?registers, rfl, ?era, rfl, rfl, rfl, rfl⟩
  case registers => exact fun o _ => (resetBlock_regValue _ o).trans (reset_regValue o)
  case era => exact Nat.succ_ne_self s.dictEra

/-! ### READ at the end of the payload (R126) -/

theorem State.UnpackerInv.fillInv {s : State} (h : s.UnpackerInv) : FillInv s :=
  ⟨h.cacheBound, h.pulled, h.pulledEnough, h.cacheIsStream⟩

/-- The stream is a function of the memory and the payload's address (R62). -/
theorem streamBit_congr {s t : State} (hm : t.memory = s.memory) (ha : t.srcAddr = s.srcAddr) (i : Nat) :
    t.streamBit i = s.streamBit i := by
  unfold State.streamBit; rw [hm, ha]

/-- BR_READ leaves EndOfData in the model's result latch (log 11). -/
theorem exec_brRead_of_endOfData {s t : State} (h : readCode s = .go none t) :
    exec .brRead s = .next { t with opResult := .endOfData } := by
  show execBrRead s = _
  unfold execBrRead; rw [h]

/-- Settles O20: of what READ can do, only EndOfData is left when no whole code is. -/
theorem readMeetsTheEndOfThePayload : Obligations.ReadMeetsTheEndOfThePayload := by
  intro s hu hc hr hshort
  rcases readCode_readable hu.fillInv (hu.bitsLow hc) hu.widthHigh hr with
    ⟨_, _, _, _, _, _, _, _, _, _, hwhole⟩ | ⟨t, hread, hfill, _, hpos, hbits, _, hin, hframe, _⟩
  · omega
  · have hmem : t.memory = s.memory := by rw [hframe]
    have hsrc : t.srcAddr = s.srcAddr := by rw [hframe]
    have hlen : t.srcLen = s.srcLen := by rw [hframe]
    refine ⟨_, exec_brRead_of_endOfData hread, rfl, hin.trans hlen, hpos, hbits, fun k hk => ?_, ?_⟩
    · rw [← hpos, ← streamBit_congr hmem hsrc]
      exact hfill.cacheIsStream k hk
    · conv_lhs => rw [hframe]

/-! ### Resolution of allocated indices (R149, R150, R160) -/

/-- The chain of `c` does not come to an entry `CLEAR + 2` that links to itself (R160). -/
def State.ChainEnds (s : State) (c : Code) : Prop :=
  ∀ d, s.Reaches c d → d.toNat = s.clear + 2 → (s.entry d.toNat).pre ≠ d

/-- The chain of an entry's link is part of the entry's chain. -/
theorem State.ChainEnds.link {s : State} {c : Code} (h : s.ChainEnds c) (hc : s.clear + 2 ≤ c.toNat) :
    s.ChainEnds (s.entry c.toNat).pre := fun d hr => h d (.link hc hr)

/-- The walk from `c` needs at most `c + 1` places, since every link leads down, and the stack has 4096. -/
theorem resolve_eq_walk {s : State} {c : Code} {q : List Code} (h : resolveWalk s (c.toNat + 1) c [] = some q) :
    resolve c s = some q :=
  resolveWalk_mono c.isLt h

/-- An allocated index whose chain ends resolves. -/
theorem resolve_some {s : State} (hd : s.DictInv) {c : Code} (ha : s.allocated c.toNat = true) (hs : s.ChainEnds c) :
    ∃ q, resolve c s = some q := by
  obtain ⟨q, hq⟩ := resolveWalk_some hd c.toNat c (Nat.le_refl _) ha hs
  exact ⟨q, resolve_eq_walk hq⟩

/-- A literal resolves to itself (R141, R152). -/
theorem resolve_seeded {s : State} (hd : s.DictInv) {c : Code} (hc : c.toNat < s.clear) : resolve c s = some [c] := by
  rw [resolve_literal hc, hd.seeded _ hc]
  simp

/-- An entry resolves to its link's sequence followed by its suffix (R25, R150). -/
theorem resolve_entry {s : State} (hd : s.DictInv) {c : Code} (ha : s.allocated c.toNat = true) (hs : s.ChainEnds c)
    (hc : s.clear ≤ c.toNat) :
    ∃ q, resolve (s.entry c.toNat).pre s = some q ∧ resolve c s = some (q ++ [(s.entry c.toNat).suf]) := by
  obtain ⟨hpast, hdown, hpre⟩ := link_descends hd ha (by omega) (hs c (.here c))
  obtain ⟨q, hq⟩ := resolveWalk_some hd _ _ (Nat.le_refl _) hpre (hs.link hpast)
  refine ⟨q, resolve_eq_walk hq, resolve_eq_walk ?_⟩
  rw [resolveWalk_link ha (by omega)]
  exact resolveWalk_mono hdown (resolveWalk_append _ _ [] _ _ hq)

/-- The sequence of index `c` (R25), empty where the walk fails. -/
def State.sequenceOf (s : State) (c : Code) : List Code := (resolve c s).getD []

theorem State.sequenceOf_eq {s : State} {c : Code} {q : List Code} (h : resolve c s = some q) : s.sequenceOf c = q := by
  unfold State.sequenceOf; rw [h]; rfl

/-- RESOLVE leaves a resolved sequence on the stack (R29, log 11). -/
theorem exec_resolve_of_some {s : State} {c : Code} {q : List Code} (h : resolve c s = some q) :
    exec (.resolve c) s = .next { s with resolveStack := q } := by
  show execResolve c s = _
  unfold execResolve; rw [h]

/-- Settles O24: the walk's result satisfies R25's recursion. -/
theorem allocatedIndicesResolve : Obligations.AllocatedIndicesResolve := by
  intro s _ hd
  refine ⟨s.sequenceOf, fun c ha hs => ⟨?resolves, fun hc => ?literal, fun hc => ?entry⟩⟩
  case resolves =>
    obtain ⟨q, hq⟩ := resolve_some hd ha hs
    rw [State.sequenceOf_eq hq]; exact exec_resolve_of_some hq
  case literal => exact State.sequenceOf_eq (resolve_seeded hd hc)
  case entry =>
    obtain ⟨q, hpre, hq⟩ := resolve_entry hd ha hs hc
    rw [State.sequenceOf_eq hq, State.sequenceOf_eq hpre]

end Sys2Proof.Machine

/-! # Proofs: the memory port and who may write memory (20_memory.md)

What a host register access and a host memory access can do, that no turn faults from the invariant, and the bytes an
engine turn may write; then what READ takes from the payload (R62) and the output writes the bus refuses (R65). -/

namespace Sys2Proof.Machine

/-! ### START (R203, R204, R77) -/

/-- A START that fails a check completes at once (R204, R252). -/
theorem startJob_rejected {s : State} {c : Cause} (hp : s.phase = .idle) (hc : configCheck s = some c) :
    startJob s = .next { s with done := true, cause := c, outCount := 0, inPos := 0, codeCount := 0 } := by
  have hc' : configCheck { s with done := false, cause := .none, outCount := 0, inPos := 0, codeCount := 0 } = some c := hc
  unfold startJob
  simp only [if_pos hp, hc']

/-- An accepted START of overlapping buffers is refused (R77, log 16). -/
theorem startJob_overlapping {s : State} (hp : s.phase = .idle) (hc : configCheck s = none)
    (ho : s.buffersOverlap = true) : startJob s = .refused .overlappingBuffers := by
  have hc' : configCheck { s with done := false, cause := .none, outCount := 0, inPos := 0, codeCount := 0 } = none := hc
  unfold startJob
  simp only [if_pos hp, hc']
  exact if_pos ho

/-- An accepted START of disjoint buffers begins a job (R203, R205). -/
theorem startJob_accepted {s : State} (hp : s.phase = .idle) (hc : configCheck s = none)
    (ho : s.buffersOverlap = false) :
    startJob s = .next { jobInit { s with done := false, cause := .none, outCount := 0, inPos := 0, codeCount := 0 } with
      phase := .decode } := by
  have hc' : configCheck { s with done := false, cause := .none, outCount := 0, inPos := 0, codeCount := 0 } = none := hc
  unfold startJob
  simp only [if_pos hp, hc']
  exact if_neg (by rw [Bool.not_eq_true]; exact ho)

/-- A configuration within R204's bounds passes every check. -/
theorem configCheck_eq_none {s : State} (hm : s.mincode.toNat ≤ Config.maxMincode) (ha : s.dstAddr.toNat % 2 = 0)
    (hs : s.srcAddr.toNat + s.srcLen.toNat ≤ Config.busSize)
    (hd : s.dstAddr.toNat + 2 * s.pixelCount ≤ Config.busSize) : configCheck s = none := by
  have haligned : s.dstAddr.getLsbD 0 = false := by
    rw [BitVec.getLsbD, Nat.testBit_zero, ha]; rfl
  unfold configCheck
  rw [if_neg (by omega), if_neg (ne_true_of_eq_false haligned), if_neg (by omega)]

theorem State.inPayload_iff (s : State) (a : Nat) :
    s.inPayload a = true ↔ s.srcAddr.toNat ≤ a ∧ a < s.srcAddr.toNat + s.srcLen.toNat := by
  simp [State.inPayload]

theorem State.inOutput_iff (s : State) (a : Nat) :
    s.inOutput a = true ↔ s.dstAddr.toNat ≤ a ∧ a < s.dstAddr.toNat + 2 * s.pixelCount := by
  simp [State.inOutput]

/-- Buffers that share a byte overlap (R77). -/
theorem buffersOverlap_of_shared_byte {s : State} {a : Nat} (hp : s.inPayload a = true) (ho : s.inOutput a = true) :
    s.buffersOverlap = true := by
  rw [s.inPayload_iff] at hp
  rw [s.inOutput_iff] at ho
  simp only [State.buffersOverlap, Bool.and_eq_true, decide_eq_true_eq]
  omega

/-- Settles O15. -/
theorem overlappingBuffersAreRefused : Obligations.OverlappingBuffersAreRefused := by
  intro s d a hp hm ha hs hd hs1 hs2 hd1 hd2
  exact startJob_overlapping hp (configCheck_eq_none hm ha hs hd)
    (buffersOverlap_of_shared_byte ((s.inPayload_iff a).2 ⟨hs1, hs2⟩) ((s.inOutput_iff a).2 ⟨hd1, hd2⟩))

/-! ### Host register accesses (R66, R69, R99) -/

/-- What a host register access may answer: a refusal, or a next state on the same memory and platform, with the same
turns to come. -/
inductive HostAnswer (s : State) : Host.Outcome State Fault Refusal → Prop where
  | refused (r : Refusal) : HostAnswer s (.refused r)
  | next {t : State} (memory : t.memory = s.memory) (platform : t.platform = s.platform)
      (schedule : t.schedule = s.schedule) : HostAnswer s (.next t)

theorem HostAnswer.ne_fault {s : State} {o : Host.Outcome State Fault Refusal} (h : HostAnswer s o) (f : Fault) :
    o ≠ .fault f := by
  cases h <;> nofun

/-- START, by the phase, the checks and the overlap. -/
theorem startJob_answers (s : State) : HostAnswer s (startJob s) := by
  by_cases hp : s.phase = .idle
  · cases hc : configCheck s with
    | some c => rw [startJob_rejected hp hc]; exact .next rfl rfl rfl
    | none =>
      cases ho : s.buffersOverlap with
      | true => rw [startJob_overlapping hp hc ho]; exact .refused _
      | false => rw [startJob_accepted hp hc ho]; exact .next rfl rfl rfl
  · rw [startJob_busy hp]; exact .next rfl rfl rfl

theorem abortJob_answers (s : State) : HostAnswer s (.next (abortJob s)) := .next (by simp) (by simp) (by simp)

/-- A configuration write that stores none of the three leaves them (R202). -/
theorem whenIdle_answers {s : State} {store : State → State} (hm : (store s).memory = s.memory)
    (hp : (store s).platform = s.platform) (hs : (store s).schedule = s.schedule) :
    HostAnswer s (.next (whenIdle store s)) := by
  unfold whenIdle
  split
  · exact .next hm hp hs
  · exact .next rfl rfl rfl

theorem execCtrlBoth_answers (d : Word) (s : State) : HostAnswer s (execCtrlBoth d s) := by
  unfold execCtrlBoth
  split
  · exact startJob_answers s
  · exact abortJob_answers s

theorem execAck_answers (d : Word) (s : State) : HostAnswer s (execAck d s) := by
  unfold execAck
  split <;> exact .next rfl rfl rfl

/-- A host access that does not decode is refused (R66). -/
theorem hostTurn_of_rejected {s : State} {a : HostAccess} {e : DecodeError}
    (h : decodeAccess s.platform.blockBase a = .rejected e) : hostTurn a s = .refused .regAccessOther := by
  unfold hostTurn; rw [h]

/-- Every host register access, by the row it decodes to. -/
theorem hostTurn_answers (a : HostAccess) (s : State) : HostAnswer s (hostTurn a s) := by
  cases h : decodeAccess s.platform.blockBase a with
  | rejected e => rw [hostTurn_of_rejected h]; exact .refused _
  | ok i =>
    rw [hostTurn_of_decoded h]
    rcases decodeAccess_host h with ⟨d, rfl⟩ | ⟨d, rfl⟩ | ⟨d, rfl⟩ | ⟨d, rfl⟩ | ⟨d, rfl⟩ | ⟨d, rfl⟩ | ⟨d, rfl⟩ | ⟨d, rfl⟩ |
      ⟨d, rfl⟩ | ⟨d, rfl⟩ | ⟨o, d, rfl⟩ | ⟨o, rfl⟩
    · exact startJob_answers s
    · exact abortJob_answers s
    · exact execCtrlBoth_answers d s
    · exact execAck_answers d s
    · exact .next rfl rfl rfl
    · exact whenIdle_answers rfl rfl rfl
    · exact whenIdle_answers rfl rfl rfl
    · exact whenIdle_answers rfl rfl rfl
    · exact whenIdle_answers rfl rfl rfl
    · exact whenIdle_answers rfl rfl rfl
    · exact .next rfl rfl rfl
    · exact .next rfl rfl rfl

/-- Settles O43. -/
theorem registerAccessesLeaveMemoryAlone : Obligations.RegisterAccessesLeaveMemoryAlone := by
  intro s t a e
  have h := hostTurn_answers a s
  rw [e] at h
  cases h with
  | next hm hp hs => exact ⟨hm, hp, hs⟩

/-! ### Host memory accesses (R76, R80) -/

theorem State.busy_iff (s : State) : s.busy = true ↔ s.phase ≠ .idle := by
  unfold State.busy; rw [bne_iff_ne]

theorem State.busy_eq_false_iff (s : State) : s.busy = false ↔ s.phase = .idle := by
  unfold State.busy; rw [bne_eq_false_iff_eq]

/-- During a job the host's writes to either buffer are refused (R76, R80, U3). -/
theorem memStoreTurn_refused {s : State} {a : Word} (b : Byte) (hp : s.phase ≠ .idle)
    (ha : s.inPayload a.toNat = true ∨ s.inOutput a.toNat = true) :
    memStoreTurn a b s = .refused .busyBufferWrite := by
  unfold memStoreTurn
  rw [if_pos]
  rw [Bool.and_eq_true, Bool.or_eq_true]
  exact ⟨s.busy_iff.2 hp, ha⟩

/-- The host's other writes store the byte (R76). -/
theorem memStoreTurn_stored {s : State} {a : Word} (b : Byte)
    (h : s.phase = .idle ∨ (s.inPayload a.toNat = false ∧ s.inOutput a.toNat = false)) :
    memStoreTurn a b s = .next { s with memory := s.memory.write a.toNat b } := by
  unfold memStoreTurn
  rw [if_neg]
  rw [Bool.not_eq_true, Bool.and_eq_false_iff, Bool.or_eq_false_iff, s.busy_eq_false_iff]
  exact h

/-- During a job a read of the output buffer draws a free value (R76, U2, log 8). -/
theorem memLoadTurn_free {s : State} {a : Word} (hp : s.phase ≠ .idle) (ha : s.inOutput a.toNat = true) :
    memLoadTurn a s = .next { s with readData := (Config.busyRead s.draws).setWidth 32, draws := s.draws + 1 } := by
  unfold memLoadTurn
  rw [if_pos]
  rw [Bool.and_eq_true]
  exact ⟨s.busy_iff.2 hp, ha⟩

/-- The host's other reads return the byte (R76). -/
theorem memLoadTurn_byte {s : State} {a : Word} (h : s.phase = .idle ∨ s.inOutput a.toNat = false) :
    memLoadTurn a s = .next { s with readData := (s.memory.read a.toNat).setWidth 32 } := by
  unfold memLoadTurn
  rw [if_neg]
  rw [Bool.not_eq_true, Bool.and_eq_false_iff, s.busy_eq_false_iff]
  exact h

/-- A byte in the read latch stays a byte (log 18). -/
theorem setWidth_byte_lt (b : Byte) : (b.setWidth 32).toNat < 256 := by
  have := b.isLt
  rw [BitVec.toNat_setWidth]; omega

/-- Settles O42. -/
theorem hostMemoryAccesses : Obligations.HostMemoryAccesses := by
  intro s a b hm
  refine ⟨fun hp ha => memStoreTurn_refused b hp ha, fun h => ?store, ?load⟩
  case store =>
    exact ⟨_, memStoreTurn_stored b h, rfl, Memory.read_write_same hm.1 _ _, fun x hx => Memory.read_write_other _ _ hx⟩
  case load =>
    by_cases h : s.phase = .idle ∨ s.inOutput a.toNat = false
    · exact ⟨_, memLoadTurn_byte h, rfl, setWidth_byte_lt _, fun _ => rfl⟩
    · obtain ⟨hp, ho⟩ := not_or.1 h
      exact ⟨_, memLoadTurn_free hp (by simpa using ho), rfl, setWidth_byte_lt _, fun h' => absurd h' h⟩

/-! ### No fault (R71, R204) -/

/-- The engine's turn answers a next state from the invariant. -/
theorem engineTurn_ne_fault {s : State} (h : s.Inv) (f : Fault) : engineTurn s ≠ .fault f := by
  obtain ⟨t, e, -⟩ := engine_inv h
  rw [e]; nofun

/-- From the invariant no turn faults: only the engine forms addresses, and the invariant keeps them in the bus space. -/
theorem takeTurn_ne_fault {s : State} (h : s.Inv) (turn : Turn) (f : Fault) : takeTurn turn s ≠ .fault f := by
  cases turn with
  | engine => exact engineTurn_ne_fault h f
  | host a => exact (hostTurn_answers a s).ne_fault f
  | memStore a b => simp only [takeTurn, memStoreTurn]; split <;> nofun
  | memLoad a => simp only [takeTurn, memLoadTurn]; split <;> nofun
  | reset => nofun

/-- Settles O48, by the turn the step takes. -/
theorem noStepFaults : Obligations.NoStepFaults := by
  intro s h f
  cases hs : s.schedule with
  | nil => rw [step_of_schedule_nil hs]; exact engineTurn_ne_fault h f
  | cons turn rest => rw [step_of_schedule_cons hs]; exact takeTurn_ne_fault (h.withSchedule rest) turn f

/-! ### Which register accesses decode (R66) -/

/-- Every offset of the block is a register with a write of its own, or one whose writes are ignored (R34, R211). -/
theorem valid_offset_cases {o : Offset} (h : Reg.valid o = true) :
    o ∈ [Reg.ctrl, Reg.status, Reg.irqEn, Reg.config, Reg.srcAddr, Reg.srcLen, Reg.dstAddr, Reg.dim] ∨
      Reg.writeIgnored o = true := by
  revert o; decide

/-- Every write at an offset of the block decodes: those of a register with a row of its own to that row, the rest to
WR_IGNORED (R211). -/
theorem decodeWrite_of_valid {o : Offset} (h : Reg.valid o = true) (d : Word) : ∃ i, decodeWrite o d = .ok i := by
  unfold decodeWrite
  split_ifs with hctrl hstatus _ hirqEn hconfig hsrcAddr hsrcLen hdstAddr hdim hignored
  any_goals exact ⟨_, rfl⟩
  · split <;> exact ⟨_, rfl⟩
  · rcases valid_offset_cases h with hmem | hign
    · simp [hctrl, hstatus, hirqEn, hconfig, hsrcAddr, hsrcLen, hdstAddr, hdim] at hmem
    · exact absurd hign hignored

/-- A read at an offset of the block decodes to RD (R200). -/
theorem decodeRead_of_valid {o : Offset} (h : Reg.valid o = true) : decodeRead o = .ok (.rd o) := by
  unfold decodeRead; rw [if_pos h]

/-- An aligned distance below the block's size is an offset of the block (R34). -/
theorem valid_ofNat {n : Nat} (h : n < 64) (ha : n % 4 = 0) : Reg.valid (BitVec.ofNat 8 n) = true := by
  have hn : (BitVec.ofNat 8 n).toNat = n := by rw [BitVec.toNat_ofNat]; omega
  simp [Reg.valid, hn, ha, Config.blockSize, h]

/-- The accesses R66 allows, as `decodeAccess` tests them. -/
theorem decodeAccess_of_aligned {base : Word} {a : HostAccess}
    (h : a.size = 4 ∧ base.toNat ≤ a.addr.toNat ∧ a.addr.toNat - base.toNat < 64 ∧ (a.addr.toNat - base.toNat) % 4 = 0) :
    decodeAccess base a = if a.write then decodeWrite (BitVec.ofNat 8 (a.addr.toNat - base.toNat)) a.data
      else decodeRead (BitVec.ofNat 8 (a.addr.toNat - base.toNat)) := by
  unfold decodeAccess; exact if_pos h

/-- Every other access is refused (R66). -/
theorem decodeAccess_of_other {base : Word} {a : HostAccess}
    (h : ¬ (a.size = 4 ∧ base.toNat ≤ a.addr.toNat ∧ a.addr.toNat - base.toNat < 64 ∧
      (a.addr.toNat - base.toNat) % 4 = 0)) : decodeAccess base a = .rejected .regAccessOther := by
  unfold decodeAccess; exact if_neg h

/-- Settles O6. -/
theorem onlyAlignedWordAccessesDecode : Obligations.OnlyAlignedWordAccessesDecode := by
  intro s a off
  refine ⟨fun h => ?aligned, fun h => hostTurn_of_rejected (decodeAccess_of_other h)⟩
  case aligned =>
    have ⟨_, _, hlt, hmod⟩ := h
    have hvalid : Reg.valid (BitVec.ofNat 8 off) = true := valid_ofNat hlt hmod
    rw [decodeAccess_of_aligned h]
    cases a.write with
    | false => exact ⟨_, decodeRead_of_valid hvalid, fun _ => rfl⟩
    | true =>
      obtain ⟨i, hi⟩ := decodeWrite_of_valid hvalid a.data
      exact ⟨i, hi, nofun⟩

/-! ### What an engine turn may change (R70, R80, R190) -/

/-- From `s` to `t` no byte outside the output buffer changed, and of the other fields only those an engine turn writes. -/
structure State.EngineChange (s t : State) : Prop where
  bytes : ∀ a, s.inOutput a = false → t.memory.read a = s.memory.read a
  frame : t = { s with
    phase := t.phase, cache := t.cache, bitCount := t.bitCount, width := t.width, inPos := t.inPos, dict := t.dict,
    nextKey := t.nextKey, prevCode := t.prevCode, prevNone := t.prevNone, lastCode := t.lastCode,
    outCount := t.outCount, padPos := t.padPos, codeCount := t.codeCount, cause := t.cause, done := t.done,
    memory := t.memory, busLog := t.busLog }

theorem State.EngineChange.refl (s : State) : s.EngineChange s := ⟨fun _ _ => rfl, rfl⟩

/-- The output buffer's place is configuration, so no engine operation moves it. -/
theorem State.EngineChange.inOutput_eq {s t : State} (h : s.EngineChange t) (a : Nat) : t.inOutput a = s.inOutput a := by
  rw [h.frame]; rfl

theorem State.EngineChange.trans {s t u : State} (h₁ : s.EngineChange t) (h₂ : t.EngineChange u) : s.EngineChange u := by
  refine ⟨fun a ha => ?_, ?_⟩
  · rw [h₂.bytes a (by rw [h₁.inOutput_eq, ha]), h₁.bytes a ha]
  · conv_lhs => rw [h₂.frame, h₁.frame]

/-- Both bytes of an output element lie in the output buffer (R60, R181). -/
theorem destAddr_inOutput {s : State} {j : Nat} (hj : j < s.pixelCount) :
    s.inOutput (s.destAddr j) = true ∧ s.inOutput (s.destAddr j + 1) = true := by
  have := dest_lt hj
  rw [s.inOutput_iff, s.inOutput_iff]
  unfold State.destAddr; omega

theorem terminate_engineChange (c : Cause) (s : State) : s.EngineChange (terminate c s) := by
  cases hc : c.pads with
  | true => rw [terminate_pads hc]; exact ⟨fun _ _ => rfl, rfl⟩
  | false => rw [terminate_completes hc]; exact ⟨fun _ _ => rfl, rfl⟩

/-- An access the bus refuses is recorded and ends the job (R267). -/
theorem busError_engineChange (s : State) (e : BusEvent) :
    s.EngineChange (terminate .busError { s with busLog := s.busLog ++ [e] }) := by
  rw [terminate_completes rfl]; exact ⟨fun _ _ => rfl, rfl⟩

/-- Wherever this part of an engine step goes on or ends, it made only changes an engine turn may make. -/
def Eng.Within {α : Type} (s : State) : Eng α → Prop
  | .go _ t | .ended t => s.EngineChange t
  | .fault _ => True

/-- A part that is within after such a change is within from before it. -/
theorem Eng.Within.after {α : Type} {s t : State} {x : Eng α} (h : s.EngineChange t) (hx : x.Within t) : x.Within s := by
  cases x with
  | go a u => exact h.trans hx
  | ended u => exact h.trans hx
  | fault f => trivial

theorem Eng.Within.andThen {α β : Type} {s : State} {x : Eng α} {k : α → State → Eng β} (hx : x.Within s)
    (hk : ∀ a t, (k a t).Within t) : (x.andThen k).Within s := by
  cases x with
  | go a t => exact .after hx (hk a t)
  | ended t => exact hx
  | fault f => trivial

/-- A whole step that answers a next state made only such changes. -/
theorem Eng.Within.outcome {s t : State} {x : Eng Unit} (hx : x.Within s) (e : x.outcome = .next t) : s.EngineChange t := by
  rcases Eng.outcome_eq_next e with rfl | rfl <;> exact hx

/-! ### The unpacker writes no memory (R124 to R127) -/

theorem memRead_within (a : Nat) (s : State) : (memRead a s).Within s := by
  rcases memRead_cases a s with ⟨-, -, e⟩ | ⟨-, -, e⟩ | ⟨-, e⟩ <;> rw [e]
  · exact ⟨fun _ _ => rfl, rfl⟩
  · exact busError_engineChange s _
  · trivial

theorem fillLoop_within : ∀ (fuel : Nat) (s : State), (fillLoop fuel s).Within s
  | 0, s => State.EngineChange.refl s
  | fuel + 1, s => by
    unfold fillLoop
    split
    · split
      · exact State.EngineChange.refl s
      · exact (memRead_within _ s).andThen fun b t =>
          .after (t := pushByte b t) ⟨fun _ _ => rfl, rfl⟩ (fillLoop_within fuel _)
    · exact State.EngineChange.refl s

theorem readCode_within (s : State) : (readCode s).Within s := by
  refine (fillLoop_within 2 s).andThen fun enough t => ?_
  cases enough with
  | true => exact ⟨fun _ _ => rfl, rfl⟩
  | false => exact State.EngineChange.refl t

/-! ### The output writer writes its own elements (R180, R185, R190) -/

/-- A write at the place of an arrival position stays in the output buffer. -/
theorem memWrite_within {s : State} {j : Nat} (hj : j < s.pixelCount) (v : Half) :
    (memWrite (s.destAddr j) v s).Within s := by
  obtain ⟨hlow, hhigh⟩ := destAddr_inOutput hj
  rcases memWrite_cases (s.destAddr j) v s with ⟨-, -, e⟩ | ⟨-, -, e⟩ | ⟨-, e⟩ <;> rw [e]
  · refine ⟨fun a ha => Memory.read_writeHalf_other _ _ ?_ ?_, rfl⟩
    · rintro rfl; rw [hlow] at ha; cases ha
    · rintro rfl; rw [hhigh] at ha; cases ha
  · exact busError_engineChange s _
  · trivial

theorem emit_within (v : Code) (s : State) : (emit v s).Within s := by
  unfold emit
  split
  · next hN => exact (memWrite_within hN _).andThen fun _ _ => ⟨fun _ _ => rfl, rfl⟩
  · exact State.EngineChange.refl s

theorem emitAll_within : ∀ (vs : List Code) (s : State), (emitAll vs s).Within s
  | [], s => State.EngineChange.refl s
  | v :: vs, s => (emit_within v s).andThen fun _ t => emitAll_within vs t

theorem padStep_within (s : State) : (padStep s).Within s := by
  unfold padStep
  split
  · exact ⟨fun _ _ => rfl, rfl⟩
  · next hN => exact (memWrite_within (Nat.lt_of_not_le hN) _).andThen fun _ _ => ⟨fun _ _ => rfl, rfl⟩

/-! ### The codes (R145 to R157) -/

/-- Step 6 is within the dictionary and the width (R155 to R157). -/
theorem allocGrow_engineChange (s : State) (x : Code) : s.EngineChange (allocGrow { s with lastCode := x }) := by
  obtain ⟨d, nk, w, e, -⟩ := allocGrow_steppedSix (s := s) x
  rw [e]; exact ⟨fun _ _ => rfl, rfl⟩

theorem tail_within (code : Code) (seq : List Code) (s : State) : (tail code seq s).Within s :=
  Eng.Within.andThen (.after (allocGrow_engineChange s _) (emitAll_within seq _)) fun _ _ => ⟨fun _ _ => rfl, rfl⟩

theorem tailOf_within (code : Code) (seq : Option (List Code)) (s : State) : (tailOf code seq s).Within s := by
  cases seq with
  | some seq => exact tail_within code seq s
  | none => exact terminate_engineChange _ s

theorem execFirst_engineChange {code : Code} {s t : State} (e : execFirst code s = .next t) : s.EngineChange t := by
  refine Eng.Within.outcome ((emit_within code s).andThen fun _ _ => ?_) e
  exact ⟨fun _ _ => rfl, rfl⟩

/-- Every code, by its class (R95, R142). -/
theorem runClass_engineChange {c : CodeClass} {code : Code} {s t : State} (e : runClass c code s = .next t) :
    s.EngineChange t := by
  cases c with
  | invalid => cases e; exact terminate_engineChange _ s
  | endCode => cases e; exact terminate_engineChange _ s
  | clear => cases e; exact ⟨fun _ _ => rfl, rfl⟩
  | first => exact execFirst_engineChange e
  | kwkwk => exact (tailOf_within code _ s).outcome e
  | literal => exact (tailOf_within code _ s).outcome e
  | dict => exact (tailOf_within code _ s).outcome e

/-! ### The engine's turn (R142, R185, R292) -/

/-- DECODE_STEP: the pixel-count check, READ, the class (R142 to R144). -/
theorem execDecodeStep_engineChange {s t : State} (e : execDecodeStep s = .next t) : s.EngineChange t := by
  have hread := readCode_within s
  unfold execDecodeStep at e
  split at e
  · cases e; exact terminate_engineChange _ s
  · cases hr : readCode s with
    | go c u =>
      rw [hr] at hread e
      cases c with
      | some code => exact State.EngineChange.trans hread (runClass_engineChange e)
      | none => cases e; exact State.EngineChange.trans hread (terminate_engineChange _ u)
    | ended u => rw [hr] at hread e; cases e; exact hread
    | fault f => rw [hr] at e; cases e

/-- An engine turn, by the phase. -/
theorem engineTurn_engineChange {s t : State} (e : engineTurn s = .next t) : s.EngineChange t := by
  cases hp : s.phase with
  | idle => rw [engineTurn_of_idle hp] at e; cases e; exact .refl s
  | decode => rw [engineTurn_of_decode hp] at e; exact execDecodeStep_engineChange e
  | pad => rw [engineTurn_of_pad hp] at e; exact (padStep_within s).outcome e

/-- Settles O45. -/
theorem engineWritesOnlyTheOutputBuffer : Obligations.EngineWritesOnlyTheOutputBuffer := by
  intro s t e
  obtain ⟨hbytes, hframe⟩ := engineTurn_engineChange e
  exact ⟨hbytes, hframe⟩

/-! ### Output writes the bus refuses (R65, R191, R253) -/

/-- PAD_STEP of an element the bus refuses (R65, R267): nothing is written. -/
theorem padStep_refused {s : State} (hfits : s.dstAddr.toNat + 2 * s.pixelCount ≤ Config.busSize)
    (hN : s.padPos.toNat < s.pixelCount) (hr : s.platform.admits (s.destAddr s.padPos.toNat) 2 .write = false) :
    padStep s = .ended { s with
      phase := .idle, cause := .busError, done := true,
      busLog := s.busLog ++ [.writeRefused (s.destAddr s.padPos.toNat) 0] } := by
  unfold padStep
  rw [if_neg (by omega), memWrite_refused (destAddr_lt hfits hN) hr, terminate_completes rfl]
  rfl

/-- FIRST of an element the bus refuses ends as `emit` does (R148, R253). -/
theorem execFirst_of_emit_ended {s t : State} {v : Code} (h : emit v s = .ended t) : execFirst v s = .next t := by
  unfold execFirst; rw [h]; rfl

/-- Settles O38: `emit`, TAIL and PAD_STEP of a refused element; LITERAL, DICT and KWKWK are TAIL of their sequences. -/
theorem refusedOutputWriteEndsTheJob : Obligations.RefusedOutputWriteEndsTheJob := by
  intro s hm
  refine ⟨fun v h => ?one, fun code first rest k hk h => ?sequence, fun hfits hN hr => ?pad⟩
  case one =>
    have e := emit_refused h v
    exact ⟨_, congrArg Eng.outcome e, execFirst_of_emit_ended e, rfl⟩
  case sequence =>
    obtain ⟨t, e, hcut⟩ := tail_refused hm code first rest k hk h
    have etail {o : Option (List Code)} (ho : o = some (first :: rest)) : (tailOf code o s).outcome = .next t := by
      rw [ho]; exact e
    exact ⟨⟨t, e, hcut⟩, fun ho => ⟨t, etail ho, etail ho, hcut⟩, fun ho => ⟨t, etail ho, hcut⟩⟩
  case pad => exact ⟨_, congrArg Eng.outcome (padStep_refused hfits hN hr), rfl⟩

/-! ### READ (R62, R124, R125) -/

/-- BR_READ leaves the code in the model's result latch (log 11). -/
theorem exec_brRead_of_code {s t : State} {c : Code} (h : readCode s = .go (some c) t) :
    exec .brRead s = .next { t with opResult := .code c } := by
  show execBrRead s = _
  unfold execBrRead; rw [h]

/-- With less than a byte left over, exactly the bytes up to the stream position have been pulled (R33, R127). -/
theorem FillInv.inPos_eq {s : State} (h : FillInv s) (hb : s.bitCount.toNat ≤ 7) :
    s.inPos.toNat = (s.bitPos + 7) / 8 := by
  have := h.pulledEnough
  unfold State.bitPos; omega

/-- Settles O19: of what READ can do, only a code is left when a whole one is. -/
theorem readReturnsTheNextStreamBits : Obligations.ReadReturnsTheNextStreamBits := by
  intro s hu hc hr hwhole
  have hbits := hu.bitsLow hc
  rcases readCode_readable hu.fillInv hbits hu.widthHigh hr with
    ⟨c, t, hread, hfill, _, hval, hpos, hlow, _, hframe, _⟩ | ⟨_, _, _, _, _, _, _, _, _, hshort⟩
  · refine ⟨_, c, exec_brRead_of_code hread, rfl, hval, hpos, hlow, ?pulled, ?invariant, ?frame⟩
    case pulled =>
      have hbefore := hu.fillInv.inPos_eq hbits
      have hafter := hfill.inPos_eq hlow
      rw [hpos] at hafter
      show t.inPos.toNat = _
      omega
    case invariant =>
      have hwidth : t.width = s.width := by rw [hframe]
      have hmin : t.m = s.m := by rw [hframe]; rfl
      have hcause : t.cause = s.cause := by rw [hframe]
      exact {
        widthLow := by show t.m + 1 ≤ t.width.toNat; rw [hwidth, hmin]; exact hu.widthLow
        widthHigh := by show t.width.toNat ≤ _; rw [hwidth]; exact hu.widthHigh
        cacheBound := hfill.cacheBound
        bitsLow := fun _ => hlow
        bitsAtEnd := fun e => absurd (hcause.symm.trans e) hc
        pulled := hfill.pulled
        pulledEnough := hfill.pulledEnough
        cacheIsStream := hfill.cacheIsStream }
    case frame => conv_lhs => rw [hframe]
  · omega

end Sys2Proof.Machine

/-! # Proofs: the encoding (30_encoding.md)

The table of R95 as one condition per class, what the decoder reads from each encoded form, and that decoder and encoder
undo each other; then the classes in a running job and the CTRL write by its two low bits. -/

namespace Sys2Proof

/-! ### The seven code classes (R95) -/

/-- The row of R95's table for each class, with the rows before it excluded: a condition on the code's value `n`. -/
def CodeClass.Holds (ctx : CodeCtx) (n : Nat) : CodeClass → Prop
  | .invalid => ctx.nextKey < n
  | .endCode => n = ctx.endCode ∧ n ≤ ctx.nextKey
  | .clear => n = ctx.clear ∧ n ≤ ctx.nextKey
  | .first => ctx.prevNone = true ∧ n ≤ ctx.nextKey ∧ n ≠ ctx.endCode ∧ n ≠ ctx.clear
  | .kwkwk => ctx.prevNone = false ∧ n = ctx.nextKey ∧ n ≠ ctx.endCode ∧ n ≠ ctx.clear
  | .literal => ctx.prevNone = false ∧ n < ctx.nextKey ∧ n < ctx.clear
  | .dict => ctx.prevNone = false ∧ n < ctx.nextKey ∧ ctx.clear + 2 ≤ n

/-- The value an instruction of a class stands for: fixed by the context for END and CLEAR, else the code it carries. -/
def CodeClass.value (ctx : CodeCtx) (c : Code) : CodeClass → Nat
  | .endCode => ctx.endCode
  | .clear => ctx.clear
  | .invalid | .first | .kwkwk | .literal | .dict => c.toNat

/-- The classifier's answer is a class whose row holds. -/
theorem classify_holds (ctx : CodeCtx) (c : Code) : (classify ctx c).Holds ctx c.toNat := by
  have hnext : ctx.endCode = ctx.clear + 1 := rfl
  unfold classify
  split_ifs with hinvalid hend hclear hnone hkey hlow
  · exact hinvalid
  · exact ⟨hend, by omega⟩
  · exact ⟨hclear, by omega⟩
  · exact ⟨hnone, by omega, hend, hclear⟩
  · exact ⟨eq_false_of_ne_true hnone, hkey, hend, hclear⟩
  · exact ⟨eq_false_of_ne_true hnone, by omega, hlow⟩
  · exact ⟨eq_false_of_ne_true hnone, by omega, by omega⟩

/-- The rows exclude each other: a class whose row holds is the classifier's answer. -/
theorem classify_of_holds {ctx : CodeCtx} {c : Code} {k : CodeClass} (h : k.Holds ctx c.toNat) : classify ctx c = k := by
  have hnext : ctx.endCode = ctx.clear + 1 := rfl
  unfold classify
  cases k with
  | invalid => exact if_pos h
  | endCode =>
    obtain ⟨hend, hkey⟩ := h
    rw [if_neg (by omega), if_pos hend]
  | clear =>
    obtain ⟨hclear, hkey⟩ := h
    rw [if_neg (by omega), if_neg (by omega), if_pos hclear]
  | first =>
    obtain ⟨hnone, hkey, hend, hclear⟩ := h
    rw [if_neg (by omega), if_neg hend, if_neg hclear, if_pos hnone]
  | kwkwk =>
    obtain ⟨hprev, hkey, hend, hclear⟩ := h
    rw [if_neg (by omega), if_neg hend, if_neg hclear, if_neg (by simp [hprev]), if_pos hkey]
  | literal =>
    obtain ⟨hprev, hkey, hlow⟩ := h
    rw [if_neg (by omega), if_neg (by omega), if_neg (by omega), if_neg (by simp [hprev]), if_neg (by omega), if_pos hlow]
  | dict =>
    obtain ⟨hprev, hkey, hhigh⟩ := h
    rw [if_neg (by omega), if_neg (by omega), if_neg (by omega), if_neg (by simp [hprev]), if_neg (by omega),
      if_neg (by omega)]

theorem classify_eq_iff {ctx : CodeCtx} {c : Code} {k : CodeClass} : classify ctx c = k ↔ k.Holds ctx c.toNat :=
  ⟨fun h => h ▸ classify_holds ctx c, classify_of_holds⟩

theorem CodeClass.instr_inj {c : Code} {j k : CodeClass} : j.instr c = k.instr c ↔ j = k := by
  cases j <;> cases k <;> simp [CodeClass.instr]

theorem decodeCode_eq_iff {ctx : CodeCtx} {c : Code} (k : CodeClass) :
    decodeCode ctx c = k.instr c ↔ k.Holds ctx c.toNat :=
  CodeClass.instr_inj.trans classify_eq_iff

/-- Settles O3: each clause is a row of the table, shortened by `CLEAR + 2 ≤ nextKey`. -/
theorem codesSelectOneClass : Obligations.CodesSelectOneClass := by
  intro ctx c hkey
  have hend : ctx.endCode = ctx.clear + 1 := rfl
  refine ⟨decodeCode_eq_iff .invalid, (decodeCode_eq_iff .endCode).trans ?endCode, (decodeCode_eq_iff .clear).trans ?clear,
    decodeCode_eq_iff .first, (decodeCode_eq_iff .kwkwk).trans ?kwkwk, (decodeCode_eq_iff .literal).trans ?literal,
    (decodeCode_eq_iff .dict).trans ?dict, ?member⟩
  case endCode => exact ⟨And.left, fun h => ⟨h, by omega⟩⟩
  case clear => exact ⟨And.left, fun h => ⟨h, by omega⟩⟩
  case kwkwk => exact ⟨fun ⟨hp, hc, _⟩ => ⟨hp, hc⟩, fun ⟨hp, hc⟩ => ⟨hp, hc, by omega, by omega⟩⟩
  case literal => exact ⟨fun ⟨hp, _, hc⟩ => ⟨hp, hc⟩, fun ⟨hp, hc⟩ => ⟨hp, by omega, hc⟩⟩
  case dict => exact and_congr_right fun _ => and_comm
  case member => unfold decodeCode; cases classify ctx c <;> simp [CodeClass.instr]

/-! ### Codes as words (R90, R92, R93) -/

theorem CodeCtx.fits_iff {ctx : CodeCtx} {n : Nat} :
    ctx.fits n = true ↔ ctx.width ≤ Config.maxWidth ∧ n < 2 ^ ctx.width := by
  simp [CodeCtx.fits]

/-- A value that fits the width survives the zero extension to 12 bits (R92). -/
theorem CodeCtx.toNat_ofNat_of_fits {ctx : CodeCtx} {n : Nat} (h : ctx.fits n = true) : (BitVec.ofNat 12 n).toNat = n := by
  obtain ⟨hw, hn⟩ := CodeCtx.fits_iff.1 h
  exact Nat.mod_eq_of_lt (hn.trans_le (Nat.pow_le_pow_right (by decide) hw))

/-- A code decodes exactly when it has the current width and fits it (R93). -/
theorem decode_code_eq_ok_iff {ctx : CodeCtx} {w n : Nat} {i : Instr} :
    decode ctx (.code w n) = .ok i ↔ w = ctx.width ∧ ctx.fits n = true ∧ decodeCode ctx (BitVec.ofNat 12 n) = i := by
  rw [CodeCtx.fits_iff]
  show (if w = ctx.width ∧ w ≤ Config.maxWidth ∧ n < 2 ^ w then _ else _) = _ ↔ _
  constructor
  · intro h
    split at h
    · next hword =>
      obtain ⟨rfl, hfits⟩ := hword
      exact ⟨rfl, hfits, Decoded.ok.inj h⟩
    · cases h
  · rintro ⟨rfl, hfits, rfl⟩
    exact if_pos ⟨rfl, hfits⟩

/-- The well-formedness of a code class is its row of the table and that its value fits. -/
theorem CodeClass.wf_instr_iff {ctx : CodeCtx} {c : Code} (k : CodeClass) :
    (k.instr c).wf ctx = true ↔ ctx.fits (k.value ctx c) = true ∧ k.Holds ctx (k.value ctx c) := by
  cases k <;> simp [CodeClass.instr, Instr.wf, CodeClass.value, CodeClass.Holds, and_assoc]

theorem CodeClass.encode_instr (ctx : CodeCtx) (c : Code) (k : CodeClass) :
    encode ctx (k.instr c) = some (.code ctx.width (k.value ctx c)) := by
  cases k <;> rfl

/-- END and CLEAR carry no code; the others carry their value. -/
theorem CodeClass.instr_ofNat_value (ctx : CodeCtx) (c : Code) (k : CodeClass) :
    k.instr (BitVec.ofNat 12 (k.value ctx c)) = k.instr c := by
  cases k <;> simp [CodeClass.instr, CodeClass.value]

theorem CodeClass.Holds.value_eq {ctx : CodeCtx} {c : Code} {k : CodeClass} (h : k.Holds ctx c.toNat) :
    k.value ctx c = c.toNat := by
  cases k with
  | endCode | clear => exact h.1.symm
  | invalid | first | kwkwk | literal | dict => rfl

theorem decode_value_of_wf {ctx : CodeCtx} {c : Code} (k : CodeClass) (h : (k.instr c).wf ctx = true) :
    decode ctx (.code ctx.width (k.value ctx c)) = .ok (k.instr c) := by
  obtain ⟨hfits, hrow⟩ := k.wf_instr_iff.1 h
  rw [← CodeCtx.toNat_ofNat_of_fits hfits] at hrow
  refine decode_code_eq_ok_iff.2 ⟨rfl, hfits, ?_⟩
  rw [(decodeCode_eq_iff k).2 hrow, k.instr_ofNat_value]

theorem wf_and_encode_of_decode_code {ctx : CodeCtx} {w n : Nat} {i : Instr} (h : decode ctx (.code w n) = .ok i) :
    i.wf ctx = true ∧ encode ctx i = some (.code w n) := by
  obtain ⟨rfl, hfits, rfl⟩ := decode_code_eq_ok_iff.1 h
  have hrow := classify_holds ctx (BitVec.ofNat 12 n)
  have hvalue := hrow.value_eq
  have hn := CodeCtx.toNat_ofNat_of_fits hfits
  rw [hn] at hvalue hrow
  unfold decodeCode
  rw [CodeClass.wf_instr_iff, CodeClass.encode_instr, hvalue]
  exact ⟨⟨hfits, hrow⟩, rfl⟩

/-! ### Register accesses as words (R99 to R101, R211) -/

/-- A write to an ignored register decodes as WR_IGNORED (R211): none of them has a row of its own. -/
theorem decodeWrite_of_writeIgnored {o : Offset} (h : Reg.writeIgnored o = true) (d : Word) :
    decodeWrite o d = .ok (.wrIgnored o d) := by
  simp only [Reg.writeIgnored, Bool.or_eq_true, beq_iff_eq] at h
  rcases h with ((((((rfl | rfl) | rfl) | rfl) | rfl) | rfl) | rfl) | rfl <;> rfl

/-- CTRL decodes by `data[1:0]` (R100; `00` by log 13). -/
theorem decodeWrite_ctrl (d : Word) : decodeWrite Reg.ctrl d = .ok
    (if d.getLsbD 0 then (if d.getLsbD 1 then .ctrlBoth d else .start d)
      else if d.getLsbD 1 then .abort d else .wrIgnored Reg.ctrl d) := by
  unfold decodeWrite
  rw [if_pos rfl]
  cases d.getLsbD 0 <;> cases d.getLsbD 1 <;> rfl

/-- STATUS decodes by `data[1]` (R101, log 13). -/
theorem decodeWrite_status (d : Word) :
    decodeWrite Reg.status d = .ok (if d.getLsbD 1 then .ack d else .wrIgnored Reg.status d) := by
  show (if d.getLsbD 1 then _ else _) = _
  split <;> rfl

/-- What WR_IGNORED may stand for (R211, log 13). -/
theorem wf_wrIgnored_iff {ctx : CodeCtx} {o : Offset} {d : Word} : (Instr.wrIgnored o d).wf ctx = true ↔
    Reg.writeIgnored o = true ∨ (o = Reg.ctrl ∧ d.getLsbD 0 = false ∧ d.getLsbD 1 = false) ∨
      (o = Reg.status ∧ d.getLsbD 1 = false) := by
  simp [Instr.wf, and_assoc, or_assoc]

theorem wf_and_encode_of_decodeWrite (ctx : CodeCtx) {o : Offset} {d : Word} {i : Instr} (h : decodeWrite o d = .ok i) :
    i.wf ctx = true ∧ encode ctx i = some (.write o d) := by
  by_cases hctrl : o = Reg.ctrl
  · subst hctrl
    rw [decodeWrite_ctrl] at h
    cases h
    split_ifs with h0 h1 h1
    · exact ⟨by simp only [Instr.wf, h0, h1]; rfl, rfl⟩
    · exact ⟨by simp only [Instr.wf, h0, h1]; rfl, rfl⟩
    · exact ⟨by simp only [Instr.wf, h0, h1]; rfl, rfl⟩
    · exact ⟨wf_wrIgnored_iff.2 (.inr (.inl ⟨rfl, eq_false_of_ne_true h0, eq_false_of_ne_true h1⟩)), rfl⟩
  by_cases hstatus : o = Reg.status
  · subst hstatus
    rw [decodeWrite_status] at h
    cases h
    split_ifs with h1
    · exact ⟨h1, rfl⟩
    · exact ⟨wf_wrIgnored_iff.2 (.inr (.inr ⟨rfl, eq_false_of_ne_true h1⟩)), rfl⟩
  unfold decodeWrite at h
  rw [if_neg hctrl, if_neg hstatus] at h
  split_ifs at h with hirqEn hconfig hsrcAddr hsrcLen hdstAddr hdim hignored <;> cases h
  · exact ⟨rfl, hirqEn ▸ rfl⟩
  · exact ⟨rfl, hconfig ▸ rfl⟩
  · exact ⟨rfl, hsrcAddr ▸ rfl⟩
  · exact ⟨rfl, hsrcLen ▸ rfl⟩
  · exact ⟨rfl, hdstAddr ▸ rfl⟩
  · exact ⟨rfl, hdim ▸ rfl⟩
  · exact ⟨wf_wrIgnored_iff.2 (.inl hignored), rfl⟩

theorem wf_and_encode_of_decodeRead (ctx : CodeCtx) {o : Offset} {i : Instr} (h : decodeRead o = .ok i) :
    i.wf ctx = true ∧ encode ctx i = some (.read o) := by
  unfold decodeRead at h
  split at h
  · next hvalid => cases h; exact ⟨hvalid, rfl⟩
  · cases h

theorem decodeWrite_of_wf_wrIgnored {ctx : CodeCtx} {o : Offset} {d : Word} (h : (Instr.wrIgnored o d).wf ctx = true) :
    decodeWrite o d = .ok (.wrIgnored o d) := by
  rcases wf_wrIgnored_iff.1 h with hignored | ⟨rfl, h0, h1⟩ | ⟨rfl, h1⟩
  · exact decodeWrite_of_writeIgnored hignored d
  · rw [decodeWrite_ctrl, h0, h1]; rfl
  · rw [decodeWrite_status, h1]; rfl

/-! ### Decoder and encoder (R90 to R101) -/

theorem encode_isSome (ctx : CodeCtx) (i : Instr) : (encode ctx i).isSome = !i.isInternal := by
  cases i <;> rfl

/-- The decoder reads an encoded form as the instruction it encodes, by the rows of the opcode table. -/
theorem decode_of_encode {ctx : CodeCtx} {i : Instr} {e : Encoding} (hw : i.wf ctx = true) (he : encode ctx i = some e) :
    decode ctx e = .ok i := by
  cases i with
  | invalid c => cases he; exact decode_value_of_wf .invalid hw
  | endCode => cases he; exact decode_value_of_wf (c := 0) .endCode hw
  | clear => cases he; exact decode_value_of_wf (c := 0) .clear hw
  | first c => cases he; exact decode_value_of_wf .first hw
  | kwkwk c => cases he; exact decode_value_of_wf .kwkwk hw
  | literal c => cases he; exact decode_value_of_wf .literal hw
  | dict c => cases he; exact decode_value_of_wf .dict hw
  | start d | abort d | ctrlBoth d =>
    cases he
    simp only [Instr.wf, Bool.and_eq_true, Bool.not_eq_true'] at hw
    obtain ⟨h0, h1⟩ := hw
    exact (decodeWrite_ctrl d).trans (by rw [h0, h1]; rfl)
  | ack d => cases he; exact (decodeWrite_status d).trans (congrArg _ (if_pos hw))
  | wrIrqEn d | wrConfig d | wrSrcAddr d | wrSrcLen d | wrDstAddr d | wrDim d => cases he; rfl
  | wrIgnored o d => cases he; exact decodeWrite_of_wf_wrIgnored hw
  | rd o => cases he; exact Machine.decodeRead_of_valid hw
  | brInit | brResetWidth | brWiden | brMaxval | brRead | dictInit | decodeStep | resolve _ | alloc | grow | tail _ _
  | emit _ | padStep => cases he

/-- Settles O1. -/
theorem decodeUndoesEncode : Obligations.DecodeUndoesEncode := by
  intro ctx i hw
  have hsome := encode_isSome ctx i
  refine ⟨fun hint => ?internal, fun hint => ?encoded⟩
  case internal => simpa [hint] using hsome
  case encoded =>
    rw [hint] at hsome
    obtain ⟨e, he⟩ := Option.isSome_iff_exists.1 hsome
    exact ⟨e, he, decode_of_encode hw he⟩

/-- Settles O2, by the encoded form. -/
theorem encodeUndoesDecode : Obligations.EncodeUndoesDecode := by
  intro ctx e i h
  cases e with
  | code w n => exact wf_and_encode_of_decode_code h
  | write o d => exact wf_and_encode_of_decodeWrite ctx h
  | read o => exact wf_and_encode_of_decodeRead ctx h

/-- Settles O5, by evaluating each word. -/
theorem specWordsDecode : Obligations.SpecWordsDecode := by
  unfold Obligations.SpecWordsDecode
  decide

end Sys2Proof

namespace Sys2Proof.Machine

/-! ### The classes in a running job (R96, R98, R158) -/

/-- Only width 12 has room for a full dictionary (R158): below it `nextKey` is below `2^width`, or the dictionary has at
most its first entries. -/
theorem State.DictInv.width_of_full {s : State} (h : s.DictInv) (hw : s.width.toNat ≤ 12) (hfull : s.nextKey.toNat = 4096) :
    s.width.toNat = 12 := by
  rcases h.widthKey with htwelve | hroom | ⟨hm, hkey⟩ | ⟨_, hkey, _⟩
  · exact htwelve
  · have : 2 ^ s.width.toNat ≤ 2 ^ 12 := Nat.pow_le_pow_right (by decide) hw
    omega
  · have : 2 ^ s.m ≤ 2 ^ 1 := Nat.pow_le_pow_right (by decide) hm
    unfold State.clear at hkey
    omega
  · omega

/-- Settles O4: before the first code after CLEAR `nextKey` is `CLEAR + 2`, and no code is above 4095. -/
theorem classesInARunningJob : Obligations.ClassesInARunningJob := by
  intro s c hinv hrun
  have hjob := hinv.job hrun
  have hbound := c.isLt
  refine ⟨fun hfirst => ?first, fun hfull =>
    ⟨hjob.dictionary.width_of_full hjob.unpacker.widthHigh hfull, fun hinvalid => ?invalid, fun hkwkwk => ?kwkwk⟩⟩
  case first =>
    obtain ⟨hnone, hkey, hend, hclear⟩ := (decodeCode_eq_iff .first).1 hfirst
    have hfresh := hjob.dictionary.fresh hnone
    change c.toNat ≤ s.nextKey.toNat at hkey
    change c.toNat ≠ s.clear + 1 at hend
    change c.toNat ≠ s.clear at hclear
    omega
  case invalid =>
    have : s.nextKey.toNat < c.toNat := (decodeCode_eq_iff .invalid).1 hinvalid
    omega
  case kwkwk =>
    have : c.toNat = s.nextKey.toNat := ((decodeCode_eq_iff .kwkwk).1 hkwkwk).2.1
    omega

/-! ### The CTRL write (R100, R209) -/

/-- CTRL_BOTH acts as START while idle (R209). -/
theorem execCtrlBoth_idle {s : State} (h : s.phase = .idle) (d : Word) : execCtrlBoth d s = execStart d s := by
  unfold execCtrlBoth; exact if_pos h

/-- CTRL_BOTH acts as ABORT while busy (R209). -/
theorem execCtrlBoth_busy {s : State} (h : s.phase ≠ .idle) (d : Word) : execCtrlBoth d s = execAbort d s := by
  unfold execCtrlBoth; exact if_neg h

/-- Settles O12, by the two bits and by the phase. -/
theorem ctrlWriteByItsTwoBits : Obligations.CtrlWriteByItsTwoBits := by
  intro s d
  have hdecode := decodeWrite_ctrl d
  refine ⟨fun h0 h1 => ?both, fun h0 h1 => ?start, fun h0 h1 => ?abort, fun h0 h1 => ⟨?none, rfl⟩,
    fun hidle => ⟨execCtrlBoth_idle hidle d, congrArg _ (abortJob_idle hidle)⟩,
    fun hbusy => ⟨execCtrlBoth_busy hbusy d, congrArg _ (abortJob_busy hbusy), startJob_busy hbusy⟩⟩
  all_goals
    rw [h0, h1] at hdecode
    exact hdecode

end Sys2Proof.Machine

/-! # Proofs: the bit-unpacker (40_bitreader.md)

Packed codes are read back at their widths (R130), READ of a refused byte (R127), and the operations on the width. -/

namespace Sys2Proof

/-! ### Packed codes (R91) -/

theorem packedBits_cons (v w : Nat) (rest : List (Nat × Nat)) :
    packedBits ((v, w) :: rest) = w + packedBits rest := rfl

/-- The first code is the low `w` bits of the stream's number. -/
theorem packCodes_cons_mod {v w : Nat} (hv : v < 2 ^ w) (rest : List (Nat × Nat)) :
    packCodes ((v, w) :: rest) % 2 ^ w = v := by
  show (v % 2 ^ w + 2 ^ w * packCodes rest) % 2 ^ w = v
  rw [Nat.add_mul_mod_self_left, Nat.mod_mod, Nat.mod_eq_of_lt hv]

/-- The codes after the first are the bits from `w` on. -/
theorem testBit_packCodes_cons (v w : Nat) (rest : List (Nat × Nat)) (i : Nat) :
    (packCodes ((v, w) :: rest)).testBit (w + i) = (packCodes rest).testBit i := by
  show (v % 2 ^ w + 2 ^ w * packCodes rest).testBit (w + i) = _
  rw [Nat.add_comm (v % 2 ^ w), Nat.testBit_two_pow_mul_add _ (Nat.mod_lt _ (by positivity)), if_neg (by omega),
    Nat.add_sub_cancel_left]

end Sys2Proof

namespace Sys2Proof.Machine

/-! ### Packed codes are read back (R130) -/

/-- The payload holds the packed codes from stream position `pos` on. -/
def State.Carries (s : State) (pos : Nat) (codes : List (Nat × Nat)) : Prop :=
  ∀ i, i < packedBits codes → s.streamBit (pos + i) = (packCodes codes).testBit i

/-- The stream's value at the first code's place is that code (R62). -/
theorem State.Carries.streamValue_eq {s : State} {pos v w : Nat} {rest : List (Nat × Nat)}
    (h : s.Carries pos ((v, w) :: rest)) (hv : v < 2 ^ w) : s.streamValue pos w = v := by
  have hbits : ∀ i, i < w → (packCodes ((v, w) :: rest)).testBit i = s.streamBit (pos + i) := fun i hi =>
    (h i (by rw [packedBits_cons]; omega)).symm
  rw [← mod_eq_streamValue s w _ pos hbits, packCodes_cons_mod hv]

/-- The other codes stand behind the first. -/
theorem State.Carries.tail {s : State} {pos v w : Nat} {rest : List (Nat × Nat)}
    (h : s.Carries pos ((v, w) :: rest)) : s.Carries (pos + w) rest := by
  intro i hi
  rw [Nat.add_assoc, h (w + i) (by rw [packedBits_cons]; omega), testBit_packCodes_cons]

theorem State.Carries.congr {s t : State} {pos : Nat} {codes : List (Nat × Nat)} (h : s.Carries pos codes)
    (hm : t.memory = s.memory) (ha : t.srcAddr = s.srcAddr) : t.Carries pos codes := fun i hi =>
  (streamBit_congr hm ha _).trans (h i hi)

/-- Whether the payload can be read is a matter of the configuration and the platform. -/
theorem State.Readable.congr {s t : State} (h : s.Readable) (ha : t.srcAddr = s.srcAddr) (hl : t.srcLen = s.srcLen)
    (hp : t.platform = s.platform) : t.Readable := by
  constructor
  · rw [ha, hl]; exact h.sourceFits
  · rw [ha, hl, hp]; exact h.admitted

/-- An empty cache at the payload's start has the invariant of the fill loop (R120). -/
theorem fillInv_of_start {s : State} (hc : s.cache = 0) (hb : s.bitCount = 0) (hi : s.inPos = 0) : FillInv s where
  cacheBound := by rw [hc, hb]; decide
  pulled := by rw [hi]; exact Nat.zero_le _
  pulledEnough := by rw [hb]; exact Nat.zero_le _
  cacheIsStream := fun t ht => by rw [hb] at ht; exact absurd ht (Nat.not_lt_zero t)

/-- The width is no part of the fill loop's invariant (R128). -/
theorem FillInv.withWidth {s : State} (h : FillInv s) (w : BitVec 4) : FillInv { s with width := w } :=
  ⟨h.cacheBound, h.pulled, h.pulledEnough, h.cacheIsStream⟩

theorem readSeq_cons_of_code {s t : State} {w : Nat} {c : Code} (ws : List Nat)
    (h : readCode { s with width := BitVec.ofNat 4 w } = .go (some c) t) :
    readSeq (w :: ws) s = (readSeq ws t).map (c :: ·) := by
  rw [readSeq, h]

/-- READ at the first code's width returns that code and leaves a state to read the others from. -/
theorem readCode_first_packed {s : State} {v w : Nat} {rest : List (Nat × Nat)} (hwidth : s.width.toNat = w)
    (hw : w ≤ 12) (hv : v < 2 ^ w) (hfill : FillInv s) (hb : s.bitCount.toNat ≤ 7) (hr : s.Readable)
    (hroom : s.bitPos + packedBits ((v, w) :: rest) ≤ 8 * s.srcLen.toNat)
    (hcodes : s.Carries s.bitPos ((v, w) :: rest)) :
    ∃ t, readCode s = .go (some (BitVec.ofNat 12 v)) t ∧ FillInv t ∧ t.bitCount.toNat ≤ 7 ∧ t.Readable ∧
      t.bitPos + packedBits rest ≤ 8 * t.srcLen.toNat ∧ t.Carries t.bitPos rest := by
  rw [packedBits_cons] at hroom
  rcases readCode_readable hfill hb (hwidth.trans_le hw) hr with
    ⟨c, t, hread, hfill', _, hval, hpos, hb', _, hframe, _⟩ | ⟨_, _, _, _, _, _, _, _, _, hshort⟩
  · rw [hwidth] at hval hpos
    have hmem : t.memory = s.memory := by rw [hframe]
    have hsrc : t.srcAddr = s.srcAddr := by rw [hframe]
    have hlen : t.srcLen = s.srcLen := by rw [hframe]
    have hplat : t.platform = s.platform := by rw [hframe]
    have hcode : c = BitVec.ofNat 12 v := by
      rw [← hval.trans (hcodes.streamValue_eq hv), BitVec.ofNat_toNat, BitVec.setWidth_eq]
    refine ⟨t, hcode ▸ hread, hfill', hb', hr.congr hsrc hlen hplat, ?room, ?codes⟩
    case room => rw [hpos, hlen]; omega
    case codes => rw [hpos]; exact hcodes.tail.congr hmem hsrc
  · omega

/-- From any stream position on, READ at the widths of the packed codes returns the codes. -/
theorem readSeq_packed : ∀ (codes : List (Nat × Nat)) {s : State},
    (∀ c ∈ codes, 1 ≤ c.2 ∧ c.2 ≤ 12 ∧ c.1 < 2 ^ c.2) → FillInv s → s.bitCount.toNat ≤ 7 → s.Readable →
    s.bitPos + packedBits codes ≤ 8 * s.srcLen.toNat → s.Carries s.bitPos codes →
    readSeq (codes.map Prod.snd) s = some (codes.map fun c => BitVec.ofNat 12 c.1)
  | [], _, _, _, _, _, _, _ => rfl
  | (v, w) :: rest, s, hwf, hfill, hb, hr, hroom, hcodes => by
    obtain ⟨⟨_, hw, hv⟩, hrest⟩ := List.forall_mem_cons.1 hwf
    have hwidth : (BitVec.ofNat 4 w).toNat = w := by rw [BitVec.toNat_ofNat]; omega
    obtain ⟨t, hread, hfill', hb', hr', hroom', hcodes'⟩ := readCode_first_packed hwidth hw hv
      (hfill.withWidth (BitVec.ofNat 4 w)) hb (hr.congr rfl rfl rfl) hroom (hcodes.congr rfl rfl)
    rw [List.map_cons, readSeq_cons_of_code _ hread, readSeq_packed rest hrest hfill' hb' hr' hroom' hcodes']
    rfl

/-- Settles O22, by induction on the list of codes, from any stream position. -/
theorem packedCodesReadBack : Obligations.PackedCodesReadBack := by
  intro s codes hwf hc hb hi hr hlen hbits
  have hpos : s.bitPos = 0 := by unfold State.bitPos; rw [hb, hi]; rfl
  refine readSeq_packed codes hwf (fillInv_of_start hc hb hi) (by rw [hb]; decide) hr (by omega) fun i h => ?_
  rw [hpos, Nat.zero_add]
  exact hbits i h

/-! ### READ of a byte the bus refuses (R127, R253, R267) -/

/-- READ ends where its fill loop does. -/
theorem readCode_of_fill_ended {s t : State} (h : fillLoop 2 s = .ended t) : readCode s = .ended t := by
  unfold readCode fill; rw [h]; rfl

theorem exec_brRead_of_ended {s t : State} (h : readCode s = .ended t) : exec .brRead s = .next t := by
  show execBrRead s = _
  unfold execBrRead; rw [h]

/-- A DECODE step below the pixel count ends where its READ does (R143, R253). -/
theorem exec_decodeStep_of_read_ended {s t : State} (hN : s.outCount.toNat < s.pixelCount)
    (h : readCode s = .ended t) : exec .decodeStep s = .next t := by
  show execDecodeStep s = _
  unfold execDecodeStep; rw [if_neg (by omega), h]

/-- Settles O21: the fill loop ends at the refused byte, and a 4-bit width needs at most two bytes. -/
theorem readOfARefusedByteEndsTheJob : Obligations.ReadOfARefusedByteEndsTheJob := by
  intro s k hneed hleft hfits hadmitted hrefused
  have htwo : k < 2 := by have := s.width.isLt; omega
  obtain ⟨t, hfill, hin, hbits, hsame, hvalue, hframe⟩ :=
    fillLoop_refused k 2 s htwo hneed hleft hfits hadmitted hrefused
  have hread := readCode_of_fill_ended hfill
  exact ⟨t, exec_brRead_of_ended hread, fun hN => exec_decodeStep_of_read_ended hN hread, hin, hbits, hsame, hvalue,
    hframe⟩

/-! ### The operations on the width (R120 to R123) -/

/-- WIDEN below width 12 does not wrap (R122). -/
theorem widen_width_toNat {s : State} (h : s.width.toNat < 12) : (widen s).width.toNat = s.width.toNat + 1 := by
  rw [widen_width, BitVec.toNat_add]
  show (s.width.toNat + 1) % 16 = _
  omega

/-- Settles O18: an accepted `m + 1` and a width below 12 plus one fit the width's field. -/
theorem unpackerWidthOperations : Obligations.UnpackerWidthOperations := by
  intro s hm
  exact ⟨⟨_, width_toNat hm, rfl, rfl⟩, fun hw => ⟨_, widen_width_toNat hw, rfl⟩, rfl⟩

end Sys2Proof.Machine

/-! # Proofs: the dictionary engine and the code operations (41_lzw_codes.md)

The dictionary's operations, chains that do not resolve, TAIL and the codes it completes, the DECODE step; then that
engine turns alone end every job (R159), and that a job's outcome depends on nothing an earlier job left (R162). -/

namespace Sys2Proof.Machine

/-! ### The dictionary's operations (R140, R155, R156) -/

/-- Settles O23: `CLEAR + 2` fits `nextKey` for an accepted `m`. -/
theorem dictionaryInit : Obligations.DictionaryInit := fun _ hm => ⟨_, clear_toNat hm, rfl⟩

/-- ALLOC below the capacity does not wrap `nextKey` (R155). -/
theorem nextKey_succ {s : State} (h : s.nextKey.toNat < 4096) : (s.nextKey + 1).toNat = s.nextKey.toNat + 1 := by
  rw [BitVec.toNat_add]
  show (s.nextKey.toNat + 1) % 8192 = _
  omega

/-- GROW is WIDEN at its threshold (R156). -/
theorem grow_of_exceeded {s : State} (hk : 2 ^ s.width.toNat - 1 < s.nextKey.toNat) (hw : s.width.toNat < 12) :
    grow s = widen s := by
  unfold grow; exact if_pos ⟨hk, hw⟩

/-- GROW below its threshold, or at the largest width, does nothing (R156). -/
theorem grow_of_fits {s : State} (h : s.nextKey.toNat ≤ 2 ^ s.width.toNat - 1 ∨ 12 ≤ s.width.toNat) : grow s = s := by
  rcases grow_cases s with ⟨hk, hw, -⟩ | ⟨-, e⟩
  · unfold State.maxVal at hk; omega
  · exact e

/-- Settles O26, by the room in the dictionary and by GROW's threshold. -/
theorem allocationAndGrowth : Obligations.AllocationAndGrowth := by
  intro s
  refine ⟨fun hroom => ?room, fun hfull => congrArg Host.Outcome.next (alloc_full hfull), fun hk hw => ?widens,
    fun h => congrArg Host.Outcome.next (grow_of_fits h)⟩
  case room =>
    refine ⟨_, congrArg Host.Outcome.next (alloc_room hroom), rfl, nextKey_succ hroom,
      Dict.read_write_same _ _ _ _, fun i hi => ?_⟩
    exact Dict.read_write_other _ _ _ hi
  case widens => exact ⟨_, widen_width_toNat hw, congrArg Host.Outcome.next (grow_of_exceeded hk hw)⟩

/-! ### Chains that do not resolve (R149, R151, R160) -/

/-- A failed resolution ends the decode (R151). -/
theorem exec_resolve_of_none {s : State} {c : Code} (h : resolve c s = none) :
    exec (.resolve c) s = .next (terminate .corruptChain s) := by
  show execResolve c s = _
  unfold execResolve; rw [h]

theorem State.allocated_iff (s : State) (c : Nat) :
    s.allocated c = true ↔ c < s.clear ∨ (s.clear + 2 ≤ c ∧ c < s.nextKey.toNat) := by
  simp only [State.allocated, Bool.or_eq_true, Bool.and_eq_true, decide_eq_true_eq]

/-- Settles O25: no walk gets past an unallocated index or a self-linked entry, so none that comes there ends. -/
theorem corruptChainsEndTheDecode : Obligations.CorruptChainsEndTheDecode := by
  intro s c d hreach hbad
  have hd : ∀ room stack, resolveWalk s room d stack = none := by
    rcases hbad with hfree | ⟨hpast, hself⟩
    · rw [← s.allocated_iff, Bool.not_eq_true] at hfree
      exact resolveWalk_unallocated hfree
    · exact resolveWalk_selfLink hpast hself
  rw [exec_resolve_of_none (resolveWalk_reaches_none hreach hd _ _), terminate_pads rfl]

/-! ### TAIL and the codes it completes (R148, R152 to R154, R157) -/

/-- TAIL of a sequence into a writable output (R157). -/
theorem tail_writable {s : State} (hm : s.memory.wf) (hN : s.outCount.toNat ≤ s.pixelCount) (hw : s.Writable)
    (code first : Code) (rest : List Code) :
    ∃ t, tail code (first :: rest) s = .go () t ∧ s.Tailed t code first rest := by
  obtain ⟨d, nk, w, hsix, ⟨k1, k2, k3, k4, k5⟩⟩ := allocGrow_steppedSix (s := s) first
  obtain ⟨u, hemit, ⟨c1, c2, c3⟩, hframe⟩ := emitAll_writable (first :: rest)
    { s with lastCode := first, dict := d, nextKey := nk, width := w } hm.1 hN ⟨hw.1, hw.2⟩
  obtain ⟨mem, log, count, hu⟩ : ∃ mem log count, u = { s with
      lastCode := first, dict := d, nextKey := nk, width := w, memory := mem, busLog := log, outCount := count } :=
    ⟨_, _, _, hframe⟩
  subst hu
  refine ⟨{ s with
    lastCode := first, dict := d, nextKey := nk, width := w, memory := mem, busLog := log, outCount := count,
    prevCode := code }, ?_, rfl, ⟨k1, k2, k3, k4, k5⟩, ⟨c1, c2, c3⟩⟩
  show (emitAll (first :: rest) (allocGrow { s with lastCode := first })).andThen _ = _
  rw [hsix, hemit]
  rfl

/-- A code whose sequence is known completes with TAIL (R142, R157). -/
theorem tailOf_writable {s : State} (hm : s.memory.wf) (hN : s.outCount.toNat ≤ s.pixelCount) (hw : s.Writable)
    (code first : Code) (rest : List Code) {o : Option (List Code)} (ho : o = some (first :: rest)) :
    ∃ t, (tailOf code o s).outcome = .next t ∧ s.Tailed t code first rest := by
  obtain ⟨t, e, h⟩ := tail_writable hm hN hw code first rest
  exact ⟨t, by rw [ho]; exact congrArg Eng.outcome e, h⟩

/-- Settles O27. -/
theorem tailAllocatesThenEmits : Obligations.TailAllocatesThenEmits :=
  fun _ code first rest hm hN hw => tailOf_writable hm hN hw code first rest rfl

/-- Settles O28: each of the three is TAIL of its sequence. -/
theorem resolvedCodesEmitTheirSequence : Obligations.ResolvedCodesEmitTheirSequence := by
  intro s code first rest hm hN hw
  refine ⟨fun hlit hsuf => ?literal, fun h => tailOf_writable hm hN hw code first rest h, fun h => ?kwkwk⟩
  case literal =>
    have hseq : resolve code s = some [code] := by rw [resolve_literal hlit, hsuf]
    exact tailOf_writable hm hN hw code code [] hseq
  case kwkwk =>
    have hseq : (resolve s.prevCode s).map (· ++ [s.lastCode]) = some (first :: (rest ++ [s.lastCode])) := by
      rw [h]; rfl
    exact tailOf_writable hm hN hw code first (rest ++ [s.lastCode]) hseq

/-- A code whose resolution fails ends the decode (R151, R253). -/
theorem tailOf_none_outcome (code : Code) (s : State) : (tailOf code none s).outcome =
    .next { s with cause := .corruptChain, phase := .pad, padPos := s.outCount } :=
  congrArg Host.Outcome.next (terminate_pads rfl s)

/-- Settles O29. -/
theorem failedResolutionEndsTheDecode : Obligations.FailedResolutionEndsTheDecode := by
  intro s code chain
  have hfails {o : Option (List Code)} (h : o = none) : (tailOf code o s).outcome = chain := by
    rw [h]; exact tailOf_none_outcome code s
  exact ⟨fun h => ⟨hfails h, hfails h⟩, fun h => hfails (Option.map_eq_none_iff.2 h)⟩

/-- Nothing is left to emit. -/
theorem State.Emitted.nil {s t : State} (hN : s.outCount.toNat ≤ s.pixelCount) (hc : t.outCount = s.outCount)
    (hm : t.memory = s.memory) : s.Emitted t [] := by
  refine ⟨?_, nofun, fun a _ => by rw [hm]⟩
  rw [hc]
  exact (Nat.min_eq_right hN).symm

/-- FIRST into a writable output with room (R148). -/
theorem execFirst_writable {s : State} (hw : s.Writable) (hN : s.outCount.toNat < s.pixelCount) (code : Code) :
    execFirst code s = .next { s with
      memory := s.memory.writeHalf (s.destAddr s.outCount.toNat) (code.setWidth 16)
      busLog := s.busLog ++ [.write (s.destAddr s.outCount.toNat) (code.setWidth 16)]
      outCount := s.outCount + 1
      prevCode := code
      lastCode := code
      prevNone := false } := by
  unfold execFirst
  rw [emit_writable hw hN]
  rfl

/-- Settles O30: with room for it, `emit` writes the code. -/
theorem firstEmitsItsCode : Obligations.FirstEmitsItsCode := by
  intro s code hm hN hw
  have hcount : (s.outCount + 1).toNat ≤ s.pixelCount := by rw [outCount_succ hN]; exact hN
  exact ⟨_, execFirst_writable hw hN code, .cons (log := s.busLog) hm.1 hN (.nil hcount rfl rfl), rfl⟩

/-! ### CLEAR, INVALID and END (R145 to R147) -/

/-- Settles O31: `m + 1` and `CLEAR + 2` fit their fields for an accepted `m`. -/
theorem clearResetsTheEpoch : Obligations.ClearResetsTheEpoch :=
  fun _ hm => ⟨_, _, width_toNat hm, clear_toNat hm, rfl⟩

/-- Settles O32: both causes pad (R255). -/
theorem invalidAndEndStartPadding : Obligations.InvalidAndEndStartPadding :=
  fun s _ => ⟨congrArg Host.Outcome.next (terminate_pads rfl s), congrArg Host.Outcome.next (terminate_pads rfl s)⟩

/-! ### The DECODE step (R142 to R144) -/

/-- The pixel-count check comes before the read (R143). -/
theorem exec_decodeStep_of_full {s : State} (h : s.pixelCount ≤ s.outCount.toNat) :
    exec .decodeStep s = .next (terminate .pixelsDone s) := by
  show execDecodeStep s = _
  unfold execDecodeStep; exact if_pos h

/-- Settles O33. -/
theorem decodeStepStopsAtThePixelCount : Obligations.DecodeStepStopsAtThePixelCount :=
  fun s h => (exec_decodeStep_of_full h).trans (congrArg Host.Outcome.next (terminate_pads rfl s))

/-- Running a code's class is running the instruction it decodes to (R95, R142). -/
theorem runClass_eq_exec (ctx : CodeCtx) (c : Code) (s : State) :
    runClass (classify ctx c) c s = exec (decodeCode ctx c) s := by
  unfold decodeCode
  cases classify ctx c <;> rfl

/-- With pixels missing, the code read is run at the state READ leaves (R142). -/
theorem exec_decodeStep_of_code {s r : State} {c : Code} (hN : s.outCount.toNat < s.pixelCount)
    (h : readCode s = .go (some c) r) : exec .decodeStep s = exec (decodeCode r.codeCtx c) r := by
  show execDecodeStep s = _
  unfold execDecodeStep
  rw [if_neg (Nat.not_le.2 hN), h]
  exact runClass_eq_exec _ c r

/-- With pixels missing, the end of the payload ends the decode (R144). -/
theorem exec_decodeStep_of_endOfData {s r : State} (hN : s.outCount.toNat < s.pixelCount)
    (h : readCode s = .go none r) : exec .decodeStep s = .next (terminate .endOfData r) := by
  show execDecodeStep s = _
  unfold execDecodeStep
  rw [if_neg (Nat.not_le.2 hN), h]

/-- In a running decode less than a byte is left over between steps (R52 item 1). -/
theorem DecInv.bits {s : State} (h : DecInv s) : s.bitCount.toNat ≤ 7 :=
  h.unpacker.bitsLow (by rw [h.cause]; decide)

/-- Settles O34: of what READ can do, only a code is left when a whole one is. -/
theorem decodeStepRunsTheNextCode : Obligations.DecodeStepRunsTheNextCode := by
  intro s hinv hphase hN hr hwhole
  have hdec := hinv.dec hphase
  obtain ⟨t, hnext, -⟩ := decodeStep_inv hdec
  rcases readCode_readable (fillInv_of hdec) hdec.bits hdec.unpacker.widthHigh hr with
    ⟨c, r, hread, hfill, hreads, hval, hpos, hbits, hwrites, hframe, -⟩ | ⟨_, _, _, _, _, _, _, _, _, hshort⟩
  · have hctx : r.codeCtx = s.codeCtx := by rw [hframe]; rfl
    have hafter : DecInv r := read_dec hdec hfill (hreads hdec.output.reads) hbits hwrites hframe
    refine ⟨r, c, t, hval, exec_brRead_of_code hread, hpos, hafter.unpacker, ?frame, ?runs, hnext⟩
    case frame => conv_lhs => rw [hframe]
    case runs => rw [← hctx]; exact exec_decodeStep_of_code hN hread
  · omega

/-- Settles O35: of what READ can do, only EndOfData is left when no whole code is. -/
theorem decodeStepEndsWithoutData : Obligations.DecodeStepEndsWithoutData := by
  intro s hinv hphase hN hr hshort
  have hdec := hinv.dec hphase
  rcases readCode_readable (fillInv_of hdec) hdec.bits hdec.unpacker.widthHigh hr with
    ⟨_, _, _, _, _, _, _, _, _, _, hwhole⟩ | ⟨r, hread, _, _, _, hbits, _, hin, hframe, _⟩
  · omega
  · have hlen : r.srcLen = s.srcLen := by rw [hframe]
    refine ⟨_, exec_decodeStep_of_endOfData hN hread, ?_⟩
    rw [terminate_pads rfl]
    refine ⟨hin.trans hlen, hbits, ?frame⟩
    case frame =>
      conv_lhs => rw [hframe]

/-! ### Every job ends (R159, R293) -/

/-- The decode has ended: the padding runs, or the job is over (R255). -/
def State.DecodeOver (t : State) : Prop := t.phase = .pad ∨ t.jobOver

/-- From `s` to `t` neither the phase nor the stream position has changed. -/
def State.SamePlace (s t : State) : Prop := t.phase = s.phase ∧ t.bitPos = s.bitPos

/-- Where this part of an engine step goes on, it does so in the phase and at the stream position of `s`; where it ends,
the decode has ended. -/
def Eng.StaysOrEnds {α : Type} (s : State) : Eng α → Prop
  | .go _ t => s.SamePlace t
  | .ended t => t.DecodeOver
  | .fault _ => True

theorem Eng.StaysOrEnds.andThen {α β : Type} {s : State} {x : Eng α} {k : α → State → Eng β} (hx : x.StaysOrEnds s)
    (hk : ∀ a t, (k a t).StaysOrEnds t) : (x.andThen k).StaysOrEnds s := by
  cases x with
  | go a t =>
    obtain ⟨hphase, hpos⟩ : s.SamePlace t := hx
    have hrest := hk a t
    show (k a t).StaysOrEnds s
    cases hka : k a t with
    | go b u =>
      rw [hka] at hrest
      exact ⟨hrest.1.trans hphase, hrest.2.trans hpos⟩
    | ended u => rw [hka] at hrest; exact hrest
    | fault f => trivial
  | ended t => exact hx
  | fault f => trivial

/-- A whole step that answers a next state stayed or ended the decode. -/
theorem Eng.StaysOrEnds.outcome {s t : State} {x : Eng Unit} (hx : x.StaysOrEnds s) (e : x.outcome = .next t) :
    s.SamePlace t ∨ t.DecodeOver := by
  rcases Eng.outcome_eq_next e with rfl | rfl
  · exact .inl hx
  · exact .inr hx

/-- Ending a job with any cause ends the decode (R255, R256). -/
theorem terminate_decodeOver (c : Cause) (s : State) : (terminate c s).DecodeOver := by
  cases hc : c.pads with
  | true => rw [terminate_pads hc]; exact .inl rfl
  | false => rw [terminate_completes hc]; exact .inr ⟨rfl, rfl⟩

theorem emit_staysOrEnds (v : Code) (s : State) : (emit v s).StaysOrEnds s := by
  rcases emit_cases v s with ⟨-, -, -, e⟩ | ⟨-, -, -, e⟩ | ⟨-, -, e⟩ | ⟨-, e⟩ <;> rw [e]
  · exact ⟨rfl, rfl⟩
  · exact terminate_decodeOver _ _
  · trivial
  · exact ⟨rfl, rfl⟩

theorem emitAll_staysOrEnds : ∀ (vs : List Code) (s : State), (emitAll vs s).StaysOrEnds s
  | [], _ => ⟨rfl, rfl⟩
  | v :: vs, s => (emit_staysOrEnds v s).andThen fun _ t => emitAll_staysOrEnds vs t

/-- Step 6 and the sequence: TAIL reads nothing (R157). -/
theorem tail_staysOrEnds (code : Code) (seq : List Code) (s : State) : (tail code seq s).StaysOrEnds s := by
  obtain ⟨d, nk, w, e, -⟩ := allocGrow_steppedSix (s := s) (seq.headD s.lastCode)
  unfold tail
  rw [e]
  exact Eng.StaysOrEnds.andThen (s := s)
    (emitAll_staysOrEnds seq { s with lastCode := seq.headD s.lastCode, dict := d, nextKey := nk, width := w })
    fun _ _ => ⟨rfl, rfl⟩

theorem tailOf_staysOrEnds (code : Code) (seq : Option (List Code)) (s : State) :
    (tailOf code seq s).StaysOrEnds s := by
  cases seq with
  | some seq => exact tail_staysOrEnds code seq s
  | none => exact terminate_decodeOver _ s

theorem execFirst_stays_or_ends {code : Code} {s t : State} (e : execFirst code s = .next t) :
    s.SamePlace t ∨ t.DecodeOver := by
  refine Eng.StaysOrEnds.outcome ((emit_staysOrEnds code s).andThen fun _ _ => ?_) e
  exact ⟨rfl, rfl⟩

/-- Running a code moves the stream position no further than READ did, or ends the decode (R142). -/
theorem runClass_stays_or_ends {c : CodeClass} {code : Code} {s t : State} (e : runClass c code s = .next t) :
    s.SamePlace t ∨ t.DecodeOver := by
  cases c with
  | invalid => cases e; exact .inr (terminate_decodeOver _ s)
  | endCode => cases e; exact .inr (terminate_decodeOver _ s)
  | clear => cases e; exact .inl ⟨rfl, rfl⟩
  | first => exact execFirst_stays_or_ends e
  | kwkwk => exact (tailOf_staysOrEnds code _ s).outcome e
  | literal => exact (tailOf_staysOrEnds code _ s).outcome e
  | dict => exact (tailOf_staysOrEnds code _ s).outcome e

/-- A DECODE step takes at least one bit from the stream, or ends the decode: a code has `width ≥ m + 1` bits. -/
theorem decodeStep_advances_or_ends {s t : State} (h : DecInv s) (e : execDecodeStep s = .next t) :
    (t.phase = .decode ∧ s.bitPos < t.bitPos) ∨ t.DecodeOver := by
  unfold execDecodeStep at e
  split at e
  · cases e; exact .inr (terminate_decodeOver _ s)
  · rcases readCode_inv (fillInv_of h) h.bits h.unpacker.widthHigh h.config.sourceFits with
      ⟨c, r, hread, -, -, -, hpos, -, -, hframe⟩ | ⟨r, hread, -⟩ | ⟨r, hread, hidle, -, -, -, hdone, -⟩ <;>
      rw [hread] at e
    · refine (runClass_stays_or_ends e).imp_left fun ⟨hphase, hsame⟩ => ⟨?_, ?_⟩
      · rw [hphase, hframe]; exact h.phase
      · have := h.unpacker.widthLow
        omega
    · cases e; exact .inr (terminate_decodeOver _ r)
    · cases e; exact .inr (.inr ⟨hidle, hdone⟩)

/-- The stream position stays within the payload (R33, R52). -/
theorem State.UnpackerInv.bitPos_le {s : State} (h : s.UnpackerInv) : s.bitPos ≤ 8 * s.srcLen.toNat := by
  have := h.pulled
  unfold State.bitPos; omega

/-- The engine alone ends the job: `d` DECODE steps, then `p` PAD steps (R159). -/
inductive State.EndsAfter : Nat → Nat → State → Prop where
  | ended {s : State} : s.jobOver → s.EndsAfter 0 0
  | pad {p : Nat} {s t : State} : s.phase = .pad → engineTurn s = .next t → t.EndsAfter 0 p → s.EndsAfter 0 (p + 1)
  | decode {d p : Nat} {s t : State} : s.phase = .decode → engineTurn s = .next t → t.EndsAfter d p →
      s.EndsAfter (d + 1) p

theorem engineRun_succ {s t : State} (h : engineTurn s = .next t) (n : Nat) : engineRun (n + 1) s = engineRun n t := by
  rw [engineRun, h]

theorem State.EndsAfter.run {d p : Nat} {s : State} (h : s.EndsAfter d p) :
    ∃ t, engineRun (d + p) s = .next t ∧ t.jobOver := by
  induction h with
  | ended h => exact ⟨_, rfl, h⟩
  | pad _ e _ ih => rw [← Nat.add_assoc, engineRun_succ e]; exact ih
  | decode _ e _ ih => rw [Nat.add_right_comm, engineRun_succ e]; exact ih

/-- The phase before each of the steps. -/
theorem State.EndsAfter.phase {d p : Nat} {s : State} (h : s.EndsAfter d p) :
    ∀ k u, k < d + p → engineRun k s = .next u → u.phase = if k < d then .decode else .pad := by
  induction h with
  | ended => intro k u hk; omega
  | @pad p s t hp e _ ih =>
    intro k u hk hu
    cases k with
    | zero => cases hu; exact hp
    | succ k =>
      rw [engineRun_succ e] at hu
      exact ih k u (by omega) hu
  | @decode d p s t hp e _ ih =>
    intro k u hk hu
    cases k with
    | zero => cases hu; rw [if_pos (by omega)]; exact hp
    | succ k =>
      rw [engineRun_succ e] at hu
      rw [ih k u (by omega) hu]
      simp

/-- A PAD step writes the next element, or the job is over (R185, R256). -/
theorem padTurn_advances_or_ends {s : State} (h : s.Inv) (hp : s.phase = .pad) :
    ∃ t, engineTurn s = .next t ∧ t.Inv ∧ t.pixelCount = s.pixelCount ∧
      (t.jobOver ∨ (t.phase = .pad ∧ t.padPos.toNat = s.padPos.toNat + 1)) := by
  have hjob := h.job (by rw [hp]; decide)
  obtain ⟨t, e, hinv⟩ := engine_inv h
  have hframe := (engineTurn_engineChange e).frame
  refine ⟨t, e, hinv, by rw [hframe]; rfl, ?_⟩
  rw [engineTurn_of_pad hp] at e
  change (padStep s).outcome = _ at e
  rcases padStep_inv hp hjob.config hjob.unpacker hjob.output h.memory with
    ⟨u, hu, rfl, -⟩ | ⟨u, hu, -, -, -, hnext, -, huframe⟩ | ⟨u, hu, hidle, -, -, -, hdone⟩ <;> rw [hu] at e <;> cases e
  · exact .inl ⟨rfl, rfl⟩
  · exact .inr ⟨by rw [huframe]; exact hp, hnext⟩
  · exact .inl ⟨hidle, hdone⟩

/-- With fewer than `n` elements to pad, the job ends within `n` PAD steps. -/
theorem padding_ends : ∀ (n : Nat) {s : State}, s.Inv → s.phase = .pad → s.pixelCount < s.padPos.toNat + n →
    ∃ p, p ≤ n ∧ s.EndsAfter 0 p
  | 0, s, h, hp, hn => by
    have := (h.job (by rw [hp]; decide)).output.padHigh hp
    omega
  | n + 1, s, h, hp, hn => by
    obtain ⟨t, e, hinv, hN, hover | ⟨hpad, hnext⟩⟩ := padTurn_advances_or_ends h hp
    · exact ⟨1, Nat.le_add_left _ _, .pad hp e (.ended hover)⟩
    · obtain ⟨p, hle, hends⟩ := padding_ends n hinv hpad (by omega)
      exact ⟨p + 1, Nat.succ_le_succ hle, .pad hp e hends⟩

/-- When the decode has ended, at most `N + 1` PAD steps end the job. -/
theorem State.DecodeOver.ends {s : State} (hover : s.DecodeOver) (h : s.Inv) :
    ∃ p, p ≤ s.pixelCount + 1 ∧ s.EndsAfter 0 p := by
  rcases hover with hpad | hover
  · exact padding_ends (s.pixelCount + 1) h hpad (by omega)
  · exact ⟨0, Nat.zero_le _, .ended hover⟩

/-- With fewer than `n` stream bits left, the decode ends within `n` DECODE steps. -/
theorem decoding_ends : ∀ (n : Nat) {s : State}, s.Inv → s.phase = .decode → 8 * s.srcLen.toNat < s.bitPos + n →
    ∃ d p, d ≤ n ∧ p ≤ s.pixelCount + 1 ∧ s.EndsAfter d p
  | 0, s, h, hp, hn => by
    have := (h.dec hp).unpacker.bitPos_le
    omega
  | n + 1, s, h, hp, hn => by
    obtain ⟨t, e, hinv⟩ := engine_inv h
    have hframe := (engineTurn_engineChange e).frame
    have hlen : t.srcLen = s.srcLen := by rw [hframe]
    have hN : t.pixelCount = s.pixelCount := by rw [hframe]; rfl
    rw [← hN]
    rcases decodeStep_advances_or_ends (h.dec hp) ((engineTurn_of_decode hp).symm.trans e) with ⟨hdec, hpos⟩ | hover
    · obtain ⟨d, p, hd, hpad, hends⟩ := decoding_ends n hinv hdec (by rw [hlen]; omega)
      exact ⟨d + 1, p, Nat.succ_le_succ hd, hpad, .decode hp e hends⟩
    · obtain ⟨p, hpad, hends⟩ := hover.ends hinv
      exact ⟨1, p, Nat.le_add_left _ _, hpad, .decode hp e hends⟩

/-- Settles O49: every DECODE step takes a stream bit or ends the decode, every PAD step fills an element or ends the
job. -/
theorem everyJobEnds : Obligations.EveryJobEnds := by
  intro s h hp
  obtain ⟨d, p, hd, hpad, hends⟩ := decoding_ends (8 * s.srcLen.toNat + 1) h hp (by omega)
  obtain ⟨t, hrun, hover⟩ := hends.run
  refine ⟨d, p, t, hd, hpad, hrun, hover, fun k u hk hu => ?_, fun k u hdk hk hu => ?_⟩
  · rw [hends.phase k u (by omega) hu, if_pos hk]
  · rw [hends.phase k u hk hu, if_neg (by omega)]

/-! ### Frames are independent (R162)

Two runs of the engine from states that differ only in what no engine turn reads. -/

/-- The fields that a job's outcome does not depend on: no engine turn reads them, the allocated dictionary entries
apart. -/
structure Hidden where
  dict : Dict
  dictEra : Nat
  resolveStack : List Code
  doneIe : Bool
  schedule : List Turn
  readData : Word
  opResult : OpResult
  draws : Nat

def State.hidden (s : State) : Hidden :=
  ⟨s.dict, s.dictEra, s.resolveStack, s.doneIe, s.schedule, s.readData, s.opResult, s.draws⟩

def State.withHidden (s : State) (x : Hidden) : State :=
  { s with
    dict := x.dict, dictEra := x.dictEra, resolveStack := x.resolveStack, doneIe := x.doneIe, schedule := x.schedule,
    readData := x.readData, opResult := x.opResult, draws := x.draws }

/-- The two states differ in hidden fields only, and every allocated dictionary entry is the same (R149, R162). -/
inductive State.Twin (s : State) : State → Prop where
  | mk (x : Hidden) (entries : ∀ i, s.allocated i = true → Dict.read x.dictEra x.dict i = s.entry i) :
      s.Twin (s.withHidden x)

/-- Two parts of engine steps that go on with the same value, end or fault alike, at twin states. -/
inductive Eng.Twin {α : Type} : Eng α → Eng α → Prop where
  | go (a : α) {s t : State} : s.Twin t → Eng.Twin (.go a s) (.go a t)
  | ended {s t : State} : s.Twin t → Eng.Twin (.ended s) (.ended t)
  | fault (f : Fault) : Eng.Twin (.fault f) (.fault f)

/-- Two steps that answer twin states, or fault alike. -/
inductive TwinOutcomes : Host.Outcome State Fault Refusal → Host.Outcome State Fault Refusal → Prop where
  | next {s t : State} : s.Twin t → TwinOutcomes (.next s) (.next t)
  | fault (f : Fault) : TwinOutcomes (.fault f) (.fault f)

theorem Eng.Twin.andThen {α β : Type} {x y : Eng α} {k l : α → State → Eng β} (h : x.Twin y)
    (hk : ∀ a {s t : State}, s.Twin t → (k a s).Twin (l a t)) : (x.andThen k).Twin (y.andThen l) := by
  cases h with
  | go a h => exact hk a h
  | ended h => exact .ended h
  | fault f => exact .fault f

theorem Eng.Twin.outcome {x y : Eng Unit} (h : x.Twin y) : TwinOutcomes x.outcome y.outcome := by
  cases h with
  | go a h => exact .next h
  | ended h => exact .next h
  | fault f => exact .fault f

theorem State.Twin.jobView_eq {s t : State} (h : s.Twin t) : s.jobView = t.jobView := by
  cases h; rfl

/-! #### The memory port, the unpacker and the output writer -/

theorem terminate_twin (c : Cause) {s t : State} (h : s.Twin t) : (terminate c s).Twin (terminate c t) := by
  obtain ⟨x, hx⟩ := h
  cases hc : c.pads with
  | true => rw [terminate_pads hc, terminate_pads hc]; exact .mk x hx
  | false => rw [terminate_completes hc, terminate_completes hc]; exact .mk x hx

theorem memRead_twin (a : Nat) {s t : State} (h : s.Twin t) : (memRead a s).Twin (memRead a t) := by
  obtain ⟨x, hx⟩ := h
  rcases memRead_cases a s with ⟨ha, had, e⟩ | ⟨ha, had, e⟩ | ⟨ha, e⟩
  · rw [e, memRead_admitted (s := s.withHidden x) ha had]; exact .go _ (.mk x hx)
  · rw [e, memRead_refused (s := s.withHidden x) ha had]; exact .ended (terminate_twin _ (.mk x hx))
  · rw [e, memRead_outside ha]; exact .fault _

theorem memWrite_twin (a : Nat) (v : Half) {s t : State} (h : s.Twin t) : (memWrite a v s).Twin (memWrite a v t) := by
  obtain ⟨x, hx⟩ := h
  rcases memWrite_cases a v s with ⟨ha, had, e⟩ | ⟨ha, had, e⟩ | ⟨ha, e⟩
  · rw [e, memWrite_admitted (s := s.withHidden x) ha had]; exact .go () (.mk x hx)
  · rw [e, memWrite_refused (s := s.withHidden x) ha had]; exact .ended (terminate_twin _ (.mk x hx))
  · rw [e, memWrite_outside ha]; exact .fault _

theorem pushByte_twin (b : Byte) {s t : State} (h : s.Twin t) : (pushByte b s).Twin (pushByte b t) := by
  obtain ⟨x, hx⟩ := h
  exact .mk x hx

theorem dropCode_twin {s t : State} (h : s.Twin t) : (dropCode s).Twin (dropCode t) := by
  obtain ⟨x, hx⟩ := h
  exact .mk x hx

theorem fillLoop_twin : ∀ (fuel : Nat) {s t : State}, s.Twin t → (fillLoop fuel s).Twin (fillLoop fuel t)
  | 0, _, _, h => .go true h
  | fuel + 1, s, _, .mk x hx => by
    unfold fillLoop
    show Eng.Twin _ (if s.bitCount.toNat < s.width.toNat then
      if s.srcLen.toNat ≤ s.inPos.toNat then _ else Eng.andThen (memRead (s.srcAddr.toNat + s.inPos.toNat) _) _ else _)
    split
    · split
      · exact .go false (.mk x hx)
      · exact (memRead_twin _ (.mk x hx)).andThen fun b _ _ h => fillLoop_twin fuel (pushByte_twin b h)
    · exact .go true (.mk x hx)

theorem lowCode_twin {s t : State} (h : s.Twin t) : lowCode t = lowCode s := by
  cases h; rfl

theorem readCode_twin {s t : State} (h : s.Twin t) : (readCode s).Twin (readCode t) := by
  refine (fillLoop_twin 2 h).andThen fun enough u v huv => ?_
  cases enough with
  | true =>
    simp only [if_pos]
    rw [lowCode_twin huv]
    exact .go _ (dropCode_twin huv)
  | false => exact .go none huv

theorem emit_twin (c : Code) {s t : State} (h : s.Twin t) : (emit c s).Twin (emit c t) := by
  obtain ⟨hcount, hN, hdest⟩ : t.outCount = s.outCount ∧ t.pixelCount = s.pixelCount ∧ t.destAddr = s.destAddr := by
    cases h; exact ⟨rfl, rfl, rfl⟩
  unfold emit
  rw [hcount, hN, hdest]
  split
  · refine (memWrite_twin _ _ h).andThen fun _ u v huv => .go () ?_
    obtain ⟨x, hx⟩ := huv
    exact .mk x hx
  · exact .go () h

theorem emitAll_twin : ∀ (vs : List Code) {s t : State}, s.Twin t → (emitAll vs s).Twin (emitAll vs t)
  | [], _, _, h => .go () h
  | v :: vs, _, _, h => (emit_twin v h).andThen fun _ _ _ h => emitAll_twin vs h

theorem padStep_twin {s t : State} (h : s.Twin t) : (padStep s).Twin (padStep t) := by
  obtain ⟨hpos, hN, hdest⟩ : t.padPos = s.padPos ∧ t.pixelCount = s.pixelCount ∧ t.destAddr = s.destAddr := by
    cases h; exact ⟨rfl, rfl, rfl⟩
  unfold padStep
  rw [hpos, hN, hdest]
  split
  · obtain ⟨x, hx⟩ := h
    exact .go () (.mk x hx)
  · refine (memWrite_twin _ _ h).andThen fun _ u v huv => .go () ?_
    obtain ⟨x, hx⟩ := huv
    exact .mk x hx

/-! #### The dictionary engine: a walk reads allocated entries only (R149) -/

theorem resolveWalk_twin {s t : State} (h : s.Twin t) : ∀ (room : Nat) (c : Code) (stack : List Code),
    resolveWalk t room c stack = resolveWalk s room c stack
  | 0, _, _ => rfl
  | room + 1, c, stack => by
    cases ha : s.allocated c.toNat with
    | false =>
      have hat : t.allocated c.toNat = false := by cases h; exact ha
      rw [resolveWalk_unallocated hat, resolveWalk_unallocated ha]
    | true =>
      obtain ⟨hat, hclear, hentry⟩ :
          t.allocated c.toNat = true ∧ t.clear = s.clear ∧ t.entry c.toNat = s.entry c.toNat := by
        cases h with
        | mk x hx => exact ⟨ha, rfl, hx _ ha⟩
      unfold resolveWalk
      rw [ha, hat, hclear, hentry, resolveWalk_twin h room]

theorem resolve_twin {s t : State} (h : s.Twin t) (c : Code) : resolve c t = resolve c s :=
  resolveWalk_twin h _ _ _

/-- A new entry is the same in both dictionaries (R155). -/
theorem alloc_twin {s t : State} (h : s.Twin t) : (alloc s).Twin (alloc t) := by
  obtain ⟨x, hx⟩ := h
  by_cases hroom : s.nextKey.toNat < Config.maxEntries
  · rw [alloc_room hroom, alloc_room (s := s.withHidden x) hroom]
    refine .mk { x with dict := Dict.write x.dict s.nextKey.toNat ⟨s.prevCode, s.lastCode⟩ } fun i hi => ?_
    show Dict.read x.dictEra (Dict.write x.dict _ _) i = Dict.read s.dictEra (Dict.write s.dict _ _) i
    by_cases hnew : i = s.nextKey.toNat
    · rw [hnew, Dict.read_write_same, Dict.read_write_same]
    · rw [Dict.read_write_other _ _ _ hnew, Dict.read_write_other _ _ _ hnew]
      refine hx i ((s.allocated_iff i).2 ?_)
      have hi' : i < s.clear ∨ (s.clear + 2 ≤ i ∧ i < (s.nextKey + 1).toNat) := (State.allocated_iff _ i).1 hi
      rw [nextKey_succ hroom] at hi'
      omega
  · have hfull : Config.maxEntries ≤ s.nextKey.toNat := Nat.le_of_not_lt hroom
    rw [alloc_full hfull, alloc_full (s := s.withHidden x) hfull]
    exact .mk x hx

theorem grow_twin {s t : State} (h : s.Twin t) : (grow s).Twin (grow t) := by
  obtain ⟨hmax, hkey, hwidth⟩ : t.maxVal = s.maxVal ∧ t.nextKey = s.nextKey ∧ t.width = s.width := by
    cases h; exact ⟨rfl, rfl, rfl⟩
  unfold grow
  rw [hmax, hkey, hwidth]
  split
  · obtain ⟨x, hx⟩ := h
    exact .mk x hx
  · exact h

theorem allocGrow_twin {s t : State} (h : s.Twin t) : (allocGrow s).Twin (allocGrow t) := by
  have hkey : t.nextKey = s.nextKey := by cases h; rfl
  unfold allocGrow
  rw [hkey]
  split
  · exact grow_twin (alloc_twin h)
  · exact h

/-! #### The codes -/

theorem tail_twin (code : Code) (seq : List Code) {s t : State} (h : s.Twin t) :
    (tail code seq s).Twin (tail code seq t) := by
  have hfirst : ({ s with lastCode := seq.headD s.lastCode } : State).Twin
      { t with lastCode := seq.headD t.lastCode } := by
    obtain ⟨x, hx⟩ := h
    exact .mk x hx
  refine (emitAll_twin seq (allocGrow_twin hfirst)).andThen fun _ u v huv => .go () ?_
  obtain ⟨x, hx⟩ := huv
  exact .mk x hx

theorem tailOf_twin (code : Code) (seq : Option (List Code)) {s t : State} (h : s.Twin t) :
    (tailOf code seq s).Twin (tailOf code seq t) := by
  cases seq with
  | some seq => exact tail_twin code seq h
  | none => exact .ended (terminate_twin _ h)

theorem execFirst_twin (code : Code) {s t : State} (h : s.Twin t) :
    TwinOutcomes (execFirst code s) (execFirst code t) := by
  refine ((emit_twin code h).andThen fun _ u v huv => .go () ?_).outcome
  obtain ⟨x, hx⟩ := huv
  exact .mk x hx

/-- With `nextKey` at its first value only the literals are allocated (R140, R147). -/
theorem State.allocated_fresh {s : State} (hk : s.nextKey = BitVec.ofNat 13 (s.clear + 2)) {i : Nat}
    (h : s.allocated i = true) : i < s.clear := by
  have hle : s.nextKey.toNat ≤ s.clear + 2 := by rw [hk, BitVec.toNat_ofNat]; exact Nat.mod_le _ _
  have := (s.allocated_iff i).1 h
  omega

theorem execClear_twin {s t : State} (h : s.Twin t) : TwinOutcomes (execClear s) (execClear t) := by
  obtain ⟨x, hx⟩ := h
  refine .next (.mk x fun i hi => hx i ((s.allocated_iff i).2 (.inl ?_)))
  let u : State := { resetWidth s with nextKey := BitVec.ofNat 13 (s.clear + 2), prevNone := true }
  exact State.allocated_fresh (s := u) rfl hi

theorem runClass_twin (c : CodeClass) (code : Code) {s t : State} (h : s.Twin t) :
    TwinOutcomes (runClass c code s) (runClass c code t) := by
  obtain ⟨hprev, hlast⟩ : t.prevCode = s.prevCode ∧ t.lastCode = s.lastCode := by cases h; exact ⟨rfl, rfl⟩
  cases c with
  | invalid => exact .next (terminate_twin _ h)
  | endCode => exact .next (terminate_twin _ h)
  | clear => exact execClear_twin h
  | first => exact execFirst_twin code h
  | kwkwk =>
    show TwinOutcomes (execKwkwk code s) (execKwkwk code t)
    unfold execKwkwk
    rw [hprev, hlast, resolve_twin h]
    exact (tailOf_twin code _ h).outcome
  | literal =>
    show TwinOutcomes (execLiteral code s) (execLiteral code t)
    unfold execLiteral
    rw [resolve_twin h]
    exact (tailOf_twin code _ h).outcome
  | dict =>
    show TwinOutcomes (execDict code s) (execDict code t)
    unfold execDict
    rw [resolve_twin h]
    exact (tailOf_twin code _ h).outcome

/-! #### The engine's turns -/

theorem execDecodeStep_twin {s t : State} (h : s.Twin t) : TwinOutcomes (execDecodeStep s) (execDecodeStep t) := by
  obtain ⟨hcount, hN⟩ : t.outCount = s.outCount ∧ t.pixelCount = s.pixelCount := by cases h; exact ⟨rfl, rfl⟩
  have hread := readCode_twin h
  unfold execDecodeStep
  rw [hcount, hN]
  split
  · exact .next (terminate_twin _ h)
  · generalize readCode s = r, readCode t = r' at hread
    cases hread with
    | @go c u v huv =>
      have hctx : v.codeCtx = u.codeCtx := by cases huv; rfl
      cases c with
      | some code => simp only [hctx]; exact runClass_twin _ code huv
      | none => exact .next (terminate_twin _ huv)
    | ended huv => exact .next huv
    | fault f => exact .fault f

theorem engineTurn_twin {s t : State} (h : s.Twin t) : TwinOutcomes (engineTurn s) (engineTurn t) := by
  have hphase : t.phase = s.phase := by cases h; rfl
  cases hp : s.phase with
  | idle => rw [engineTurn_of_idle hp, engineTurn_of_idle (hphase.trans hp)]; exact .next h
  | decode => rw [engineTurn_of_decode hp, engineTurn_of_decode (hphase.trans hp)]; exact execDecodeStep_twin h
  | pad => rw [engineTurn_of_pad hp, engineTurn_of_pad (hphase.trans hp)]; exact (padStep_twin h).outcome

/-- Twin states stay twins through any number of engine turns. -/
theorem engineRun_twin : ∀ (n : Nat) {s t u : State}, s.Twin t → engineRun n s = .next u →
    ∃ v, engineRun n t = .next v ∧ u.Twin v
  | 0, s, t, u, h, e => by cases e; exact ⟨t, rfl, h⟩
  | n + 1, s, t, u, h, e => by
    have hturn := engineTurn_twin h
    unfold engineRun at e ⊢
    generalize engineTurn s = r, engineTurn t = r' at hturn e
    cases hturn with
    | next h' => exact engineRun_twin n h' e
    | fault f => cases e

/-- The engine makes no step while idle (R265). -/
theorem engineRun_of_idle {s : State} (h : s.phase = .idle) : ∀ n, engineRun n s = .next s
  | 0 => rfl
  | n + 1 => by rw [engineRun_succ (engineTurn_of_idle h)]; exact engineRun_of_idle h n

/-! #### START of two blocks -/

/-- The same configuration, memory and platform (R38 to R43, R60, R8). -/
structure State.SameSetup (s t : State) : Prop where
  mincode : s.mincode = t.mincode
  interlace : s.interlace = t.interlace
  srcAddr : s.srcAddr = t.srcAddr
  srcLen : s.srcLen = t.srcLen
  dstAddr : s.dstAddr = t.dstAddr
  dimWidth : s.dimWidth = t.dimWidth
  dimHeight : s.dimHeight = t.dimHeight
  memory : s.memory = t.memory
  platform : s.platform = t.platform

theorem State.SameSetup.configCheck_eq {s t : State} (h : s.SameSetup t) : configCheck s = configCheck t := by
  unfold configCheck State.pixelCount
  rw [h.mincode, h.dstAddr, h.srcAddr, h.srcLen, h.dimWidth, h.dimHeight]

theorem State.SameSetup.clear_eq {s t : State} (h : s.SameSetup t) : s.clear = t.clear := by
  unfold State.clear State.m; rw [h.mincode]

/-- What a START that fails a check with cause `c` leaves (R203, R252). -/
def State.turnedDown (s : State) (c : Cause) : State :=
  { s with done := true, cause := c, outCount := 0, inPos := 0, codeCount := 0 }

/-- The state an accepted START leaves (R203, R205). -/
def State.begun (s : State) : State :=
  { jobInit { s with done := false, cause := .none, outCount := 0, inPos := 0, codeCount := 0 } with phase := .decode }

/-- What an accepted START leaves depends on the setup only, hidden fields apart (R205). -/
theorem State.SameSetup.begun_eq {s t : State} (h : s.SameSetup t) : t.begun = s.begun.withHidden t.begun.hidden := by
  obtain ⟨h1, h2, h3, h4, h5, h6, h7, h8, h9⟩ := h
  cases s; cases t
  simp only at h1 h2 h3 h4 h5 h6 h7 h8 h9
  subst h1 h2 h3 h4 h5 h6 h7 h8 h9
  rfl

/-- Only the seeded entries are allocated after START (R141, R149). -/
theorem State.SameSetup.begun_twin {s t : State} (h : s.SameSetup t) : s.begun.Twin t.begun := by
  rw [h.begun_eq]
  refine .mk _ fun i hi => ?_
  have hlow : i < s.clear := State.allocated_fresh (s := s.begun) rfl hi
  show Dict.read t.dictEra (Dict.seed t.dict t.clear) i = Dict.read s.dictEra (Dict.seed s.dict s.clear) i
  rw [Dict.read_seed_low _ _ hlow, Dict.read_seed_low _ _ (h.clear_eq ▸ hlow)]

/-- START of an idle block that answers a next state failed a check or began a job (R203, R204). -/
theorem startJob_cases {s t : State} (hp : s.phase = .idle) (e : startJob s = .next t) :
    (∃ c, configCheck s = some c ∧ t = s.turnedDown c) ∨
      (configCheck s = none ∧ t = s.begun) := by
  cases hc : configCheck s with
  | some c => rw [startJob_rejected hp hc] at e; cases e; exact .inl ⟨c, rfl, rfl⟩
  | none =>
    cases ho : s.buffersOverlap with
    | true => rw [startJob_overlapping hp hc ho] at e; cases e
    | false => rw [startJob_accepted hp hc ho] at e; cases e; exact .inr ⟨rfl, rfl⟩

/-- The view of a START that fails a check is the cause and the memory, the counts being 0 (R252). -/
theorem State.SameSetup.turnedDown_jobView_eq {s t : State} (h : s.SameSetup t) (hs : s.phase = .idle)
    (ht : t.phase = .idle) (c : Cause) : (s.turnedDown c).jobView = (t.turnedDown c).jobView := by
  simp only [State.turnedDown, State.jobView, hs, ht, h.memory]

/-- Settles O51: a START that fails a check leaves two idle blocks with one view, an accepted one leaves twins. -/
theorem framesAreIndependent : Obligations.FramesAreIndependent := by
  intro s₁ s₂ t₁ t₂ d n u₁ hp₁ hp₂ h1 h2 h3 h4 h5 h6 h7 h8 h9 e₁ e₂ hrun
  have hsame : s₁.SameSetup s₂ := ⟨h1, h2, h3, h4, h5, h6, h7, h8, h9⟩
  have hcheck := hsame.configCheck_eq
  rcases startJob_cases hp₁ e₁ with ⟨c, hc, rfl⟩ | ⟨hc, rfl⟩
  · obtain rfl : t₂ = s₂.turnedDown c := by
      rw [hcheck] at hc
      rcases startJob_cases hp₂ e₂ with ⟨c', hc', rfl⟩ | ⟨hc', -⟩ <;> cases hc.symm.trans hc'
      rfl
    have hidle₁ : (s₁.turnedDown c).phase = .idle := hp₁
    have hidle₂ : (s₂.turnedDown c).phase = .idle := hp₂
    rw [engineRun_of_idle hidle₁] at hrun
    cases hrun
    exact ⟨_, engineRun_of_idle hidle₂ n, hsame.turnedDown_jobView_eq hp₁ hp₂ c⟩
  · obtain rfl : t₂ = s₂.begun := by
      rw [hcheck] at hc
      rcases startJob_cases hp₂ e₂ with ⟨c', hc', -⟩ | ⟨-, rfl⟩
      · cases hc.symm.trans hc'
      · rfl
    obtain ⟨u₂, hu₂, htwin⟩ := engineRun_twin n hsame.begun_twin hrun
    exact ⟨u₂, hu₂, htwin.jobView_eq⟩

end Sys2Proof.Machine

/-! # Proofs: the output writer (42_output.md)

The output map is a bijection of the arrival positions; EMIT and PAD_STEP write one element; and an engine turn, however it
ends, writes the next arrival positions in order and nothing else. -/

namespace Sys2Proof.Machine

/-! ### The output map (R181 to R184) -/

/-- A map of the numbers below `n` into themselves that is injective there takes each of them exactly once. -/
theorem exists_unique_preimage_below {f : Nat → Nat} {n : Nat} (hlt : ∀ j, j < n → f j < n)
    (hinj : ∀ j k, j < n → k < n → f j = f k → j = k) {i : Nat} (hi : i < n) :
    ∃ j, j < n ∧ f j = i ∧ ∀ k, k < n → f k = i → k = j := by
  have honto : Set.SurjOn f (Finset.range n) (Finset.range n) := by
    refine Finset.surjOn_of_injOn_of_card_le f (fun j hj => ?_) (fun j hj k hk => ?_) le_rfl
    · simpa using hlt j (by simpa using hj)
    · exact hinj j k (by simpa using hj) (by simpa using hk)
  obtain ⟨j, hj, rfl⟩ := honto (show i ∈ (Finset.range n : Set Nat) by simpa using hi)
  have hj : j < n := by simpa using hj
  exact ⟨j, hj, rfl, fun k hk e => hinj k j hk hj e⟩

theorem dest_of_plain {s : State} (h : s.interlace = false) (j : Nat) : s.dest j = j := by
  unfold State.dest; rw [if_neg (by rw [h]; decide)]

theorem dest_of_interlaced {s : State} (h : s.interlace = true) (j : Nat) :
    s.dest j = deint s.dimWidth.toNat s.dimHeight.toNat j := by
  unfold State.dest; exact if_pos h

/-- The row map by the four passes, whose lengths add up to the height (R183). -/
theorem deintRow_passes (h k : Nat) :
    let n1 := (h + 7) / 8
    let n2 := (h + 3) / 8
    let n3 := (h + 1) / 4
    (k < n1 → deintRow h k = 8 * k) ∧
    (n1 ≤ k → k < n1 + n2 → deintRow h k = 8 * (k - n1) + 4) ∧
    (n1 + n2 ≤ k → k < n1 + n2 + n3 → deintRow h k = 4 * (k - n1 - n2) + 2) ∧
    (n1 + n2 + n3 ≤ k → deintRow h k = 2 * (k - n1 - n2 - n3) + 1) ∧
    n1 + n2 + n3 + h / 2 = h := by
  intro n1 n2 n3
  refine ⟨fun h1 => ?first, fun h1 h2 => ?second, fun h1 h2 => ?third, fun h1 => ?fourth, by omega⟩ <;>
    unfold deintRow
  case first => rw [if_pos h1]
  case second => rw [if_neg (by omega), if_pos h2]
  case third => rw [if_neg (by omega), if_neg (by omega), if_pos h2]
  case fourth => rw [if_neg (by omega), if_neg (by omega), if_neg (by omega)]

/-- Settles O39: both maps are injective into a finite range, so onto it. -/
theorem outputMapIsABijection : Obligations.OutputMapIsABijection := by
  refine ⟨fun s => ⟨dest_of_plain, fun h j _ => dest_of_interlaced h j, fun _ => rfl, fun _ => dest_lt, fun i hi => ?places⟩,
    deintRow_passes, fun h r hr => ?rows, by decide⟩
  case places => exact exists_unique_preimage_below (fun _ => dest_lt) (fun _ _ hj hk => dest_inj hj hk) hi
  case rows => exact exists_unique_preimage_below (fun _ => deintRow_lt) (fun _ _ hj hk => deintRow_inj hj hk) hr

/-! ### EMIT and PAD_STEP (R180, R185) -/

/-- The low byte of an index is its low byte as an element (R187). -/
theorem lowByte_setWidth (v : Code) : lowByte (v.setWidth 16) = v.extractLsb' 0 8 := by
  unfold lowByte; ext i hi; simp; omega

/-- The high byte of an element is the index's four high bits (R187). -/
theorem highByte_setWidth (v : Code) : highByte (v.setWidth 16) = (v.extractLsb' 8 4).setWidth 8 := by
  unfold highByte
  ext i hi
  by_cases h4 : i < 4
  · simp [h4, show 8 + i < 16 by omega]
  · simp [h4, BitVec.getLsbD_of_ge v (8 + i) (by omega)]

/-- Settles O36: with room `emit` is one halfword write, with the output full it is nothing. -/
theorem emitWritesOneElement : Obligations.EmitWritesOneElement := by
  intro s v hm
  refine ⟨fun hN hw => ?room, fun hN => congrArg Eng.outcome (emit_full hN v)⟩
  case room =>
    refine ⟨_, congrArg Eng.outcome (emit_writable hw hN v), ?_, ?_, fun a hlow hhigh => ?_, rfl⟩
    · exact (Memory.read_writeHalf_low hm.1 _ _).trans (lowByte_setWidth v)
    · exact (Memory.read_writeHalf_high hm.1 _ _).trans (highByte_setWidth v)
    · exact Memory.read_writeHalf_other _ _ hlow hhigh

theorem padStep_full {s : State} (hN : s.pixelCount ≤ s.padPos.toNat) : padStep s = .go () (complete s) := by
  unfold padStep; exact if_pos hN

/-- `padStep` into a writable output with room (R185). -/
theorem padStep_writable {s : State} (h : s.Writable) (hN : s.padPos.toNat < s.pixelCount) :
    padStep s = .go () { s with
      memory := s.memory.writeHalf (s.destAddr s.padPos.toNat) 0
      busLog := s.busLog ++ [.write (s.destAddr s.padPos.toNat) 0]
      padPos := s.padPos + 1 } := by
  unfold padStep
  rw [if_neg (Nat.not_le.2 hN), memWrite_admitted (destAddr_lt h.outputFits hN) (h.admitted _ hN)]
  rfl

/-- Settles O37: with room `padStep` is one halfword write, with the frame padded it is `complete`. -/
theorem padStepWritesZeroOrCompletes : Obligations.PadStepWritesZeroOrCompletes := by
  intro s hm
  refine ⟨fun hN hw => ?room, fun hN => congrArg Eng.outcome (padStep_full hN)⟩
  case room =>
    refine ⟨_, congrArg Eng.outcome (padStep_writable hw hN), ?_, fun a hlow hhigh => ?_, rfl⟩
    · exact Memory.readHalf_writeHalf_same hm.1 (s.destAddr s.padPos.toNat) 0
    · exact Memory.read_writeHalf_other s.memory 0 hlow hhigh

/-! ### The frame when padding completes (R188, R190, R191) -/

/-- In DECODE the positions that have arrived are the decoded ones (R180). -/
theorem arrived_of_decode {s : State} (hp : s.phase = .decode) : s.arrived = s.outCount.toNat := by
  unfold State.arrived; exact if_neg (by rw [hp]; decide)

/-- In PAD the padded ones count too (R185). -/
theorem arrived_of_pad {s : State} (hp : s.phase = .pad) : s.arrived = s.padPos.toNat := by
  unfold State.arrived; exact if_pos hp

/-- A job the PAD step ends without a bus error has been padded to its last element (R185, R256). -/
theorem padTurn_completes {s t : State} (hp : s.phase = .pad) (e : engineTurn s = .next t) (hidle : t.phase = .idle)
    (hcause : t.cause ≠ .busError) : s.pixelCount ≤ s.padPos.toNat ∧ t = complete s := by
  rw [engineTurn_of_pad hp] at e
  change (padStep s).outcome = _ at e
  rcases padStep_cases s with ⟨hN, h⟩ | ⟨-, -, -, h⟩ | ⟨-, -, -, h⟩ | ⟨-, -, h⟩ <;> rw [h] at e <;> cases e
  · exact ⟨hN, rfl⟩
  · exact absurd (hp.symm.trans hidle) (by decide)
  · exact absurd (terminate_cause _ _) hcause

/-- Settles O50: at `padPos = N` every position has arrived, and the invariant says what each holds. -/
theorem finalContentsOfAPaddedFrame : Obligations.FinalContentsOfAPaddedFrame := by
  intro s t h hp e hidle hcause
  obtain ⟨hN, rfl⟩ := padTurn_completes hp e hidle hcause
  have hout := (h.job (by rw [hp]; decide)).output
  have hall : s.arrived = s.pixelCount := by
    rw [arrived_of_pad hp]; exact Nat.le_antisymm (hout.padHigh hp) hN
  refine ⟨rfl, rfl, rfl, hout.countBound, ?_, fun j hj => ⟨fun _ => ?_, fun hP => ?_⟩⟩
  · exact hall ▸ hout.writes
  · exact hout.landed j (hall ▸ hj)
  · exact hout.zeros j hP (hall ▸ hj)

/-! ### The record of the elements written (R190) -/

/-- The place and the contents of the output element of arrival position `j` (R181). -/
def State.element (s : State) (j : Nat) : Nat × Half := (s.destAddr j, s.memory.readHalf (s.destAddr j))

/-- The writes made are those of the first `n` arrival positions, in order, each still standing at its place. -/
structure State.Recorded (s : State) (n : Nat) : Prop where
  form : Sparse.Rising s.memory
  bound : n ≤ s.pixelCount
  writes : s.writesMade = (List.range n).map s.element

theorem State.Recorded.addresses {s : State} {n : Nat} (h : s.Recorded n) :
    s.writesMade.map Prod.fst = (List.range n).map s.destAddr := by
  rw [h.writes, List.map_map]; rfl

theorem State.Recorded.landed {s : State} {n j : Nat} (h : s.Recorded n) (hj : j < n) :
    (s.writesMade[j]?).map Prod.snd = some (s.memory.readHalf (s.destAddr j)) := by
  rw [h.writes, List.getElem?_map, List.getElem?_range hj]; rfl

/-- The invariant keeps such a record of the positions that have arrived (R52). -/
theorem State.OutputInv.recorded {s : State} (h : s.OutputInv) (hm : s.memory.wf) : s.Recorded s.arrived := by
  refine ⟨hm.1, ?bound, List.ext_getElem ?length fun j hj hj' => ?element⟩
  case bound =>
    unfold State.arrived
    split
    case isTrue hp => exact h.padHigh hp
    case isFalse => exact h.countBound
  case length => simpa using congrArg List.length h.writes
  case element =>
    have hlt : j < s.arrived := by simpa using hj'
    have haddr : s.writesMade[j].1 = s.destAddr j := by simpa [hj, hlt] using congrArg (·[j]?) h.writes
    have hval : s.writesMade[j].2 = s.memory.readHalf (s.destAddr j) := by simpa [hj] using h.landed j hlt
    rw [List.getElem_map, List.getElem_range]
    exact Prod.ext haddr hval

/-- The record does not see what an engine operation that makes no write changes. -/
theorem State.Recorded.congr {s t : State} {n : Nat} (h : s.Recorded n) (hm : t.memory = s.memory)
    (hw : t.writesMade = s.writesMade) (hd : t.destAddr = s.destAddr) (hN : t.pixelCount = s.pixelCount) :
    t.Recorded n := by
  have helement : t.element = s.element := by funext j; unfold State.element; rw [hd, hm]
  exact ⟨hm ▸ h.form, hN ▸ h.bound, by rw [hw, helement, h.writes]⟩

/-- A write at the place of the next arrival position extends the record: no two elements share a byte. -/
theorem State.Recorded.write {s : State} {n : Nat} (h : s.Recorded n) (hn : n < s.pixelCount) (v : Half) (P pad : Word) :
    ({ s with
      memory := s.memory.writeHalf (s.destAddr n) v, busLog := s.busLog ++ [.write (s.destAddr n) v],
      outCount := P, padPos := pad } : State).Recorded (n + 1) := by
  refine ⟨Memory.writeHalf_rising h.form _ _, hn, ?_⟩
  set t : State := { s with
    memory := s.memory.writeHalf (s.destAddr n) v, busLog := s.busLog ++ [.write (s.destAddr n) v],
    outCount := P, padPos := pad } with ht
  have hlog : t.writesMade = s.writesMade ++ [(s.destAddr n, v)] := by simp [State.writesMade, ht]
  have hnew : t.element n = (s.destAddr n, v) :=
    Prod.ext rfl (Memory.readHalf_writeHalf_same h.form (s.destAddr n) v)
  have hold : ∀ j ∈ List.range n, t.element j = s.element j := fun j hj => by
    have hj : j < n := List.mem_range.1 hj
    exact Prod.ext rfl (Memory.readHalf_writeHalf_other _ _ (destAddr_apart (hj.trans hn) hn hj.ne))
  rw [hlog, h.writes, List.range_succ, List.map_append, List.map_congr_left hold, List.map_singleton, hnew]

/-! ### What a part of a DECODE step writes -/

/-- From `s` to `t` only the elements from `P` of `s` to `P` of `t` changed, and a record of the positions below `P` is kept up
to date (R180, R190). -/
structure State.WritesOn (s t : State) : Prop where
  advances : s.Advances t
  recorded : s.Recorded s.outCount.toNat → t.Recorded t.outCount.toNat

/-- No write made. -/
theorem State.WritesOn.quiet {s t : State} (hm : t.memory = s.memory) (hc : t.outCount = s.outCount)
    (hw : t.writesMade = s.writesMade)
    (hp : t.dstAddr = s.dstAddr ∧ t.interlace = s.interlace ∧ t.dimWidth = s.dimWidth ∧ t.dimHeight = s.dimHeight) :
    s.WritesOn t := by
  have hadv : s.Advances t := .quiet hm hc hp
  obtain ⟨hd, hN⟩ := hadv.destAddr
  exact ⟨hadv, fun h => hc ▸ h.congr hm hw hd hN⟩

theorem State.WritesOn.trans {s t u : State} (h₁ : s.WritesOn t) (h₂ : t.WritesOn u) : s.WritesOn u :=
  ⟨h₁.advances.trans h₂.advances, h₂.recorded ∘ h₁.recorded⟩

/-- Wherever this part of an engine step goes on or ends, it does so in a state that satisfies `p`. -/
def Eng.Leaves {α : Type} (p : State → Prop) : Eng α → Prop
  | .go _ t | .ended t => p t
  | .fault _ => True

theorem Eng.Leaves.mono {α : Type} {p q : State → Prop} {x : Eng α} (hx : x.Leaves p) (h : ∀ t, p t → q t) :
    x.Leaves q := by
  cases x with
  | go a t => exact h t hx
  | ended t => exact h t hx
  | fault f => trivial

theorem Eng.Leaves.andThen {α β : Type} {s : State} {x : Eng α} {k : α → State → Eng β} (hx : x.Leaves s.WritesOn)
    (hk : ∀ a t, (k a t).Leaves t.WritesOn) : (x.andThen k).Leaves s.WritesOn := by
  cases x with
  | go a t => exact (hk a t).mono fun _ => State.WritesOn.trans hx
  | ended t => exact hx
  | fault f => trivial

theorem Eng.Leaves.outcome {p : State → Prop} {t : State} {x : Eng Unit} (hx : x.Leaves p) (e : x.outcome = .next t) :
    p t := by
  rcases Eng.outcome_eq_next e with rfl | rfl <;> exact hx

theorem terminate_writesOn (c : Cause) (s : State) : s.WritesOn (terminate c s) :=
  .quiet (terminate_memory c s) (terminate_outCount c s) (by unfold State.writesMade; rw [terminate_busLog])
    ⟨terminate_dstAddr c s, terminate_interlace c s, terminate_dimWidth c s, terminate_dimHeight c s⟩

/-- A refused write is recorded as refused and ends the job (R267). -/
theorem writeRefused_writesOn (s : State) (a : Nat) (v : Half) :
    s.WritesOn (terminate .busError { s with busLog := s.busLog ++ [.writeRefused a v] }) :=
  State.WritesOn.trans (t := { s with busLog := s.busLog ++ [.writeRefused a v] })
    (.quiet rfl rfl (by simp [State.writesMade]) ⟨rfl, rfl, rfl, rfl⟩) (terminate_writesOn _ _)

theorem emit_writesOn (v : Code) (s : State) : (emit v s).Leaves s.WritesOn := by
  rcases emit_cases v s with ⟨hN, -, -, e⟩ | ⟨-, -, -, e⟩ | ⟨-, -, e⟩ | ⟨-, e⟩
  · have hadv := emit_advances (.inl e)
    rw [e]
    refine ⟨hadv, fun h => ?_⟩
    have hwritten := h.write hN (v.setWidth 16) (s.outCount + 1) s.padPos
    rwa [← outCount_succ hN] at hwritten
  · rw [e]; exact writeRefused_writesOn s _ _
  · rw [e]; trivial
  · rw [e]; exact .quiet rfl rfl rfl ⟨rfl, rfl, rfl, rfl⟩

theorem emitAll_writesOn : ∀ (vs : List Code) (s : State), (emitAll vs s).Leaves s.WritesOn
  | [], _ => .quiet rfl rfl rfl ⟨rfl, rfl, rfl, rfl⟩
  | v :: vs, s => (emit_writesOn v s).andThen fun _ t => emitAll_writesOn vs t

/-- Step 6 makes no write, then the sequence is emitted (R157). -/
theorem tail_writesOn (code : Code) (seq : List Code) (s : State) : (tail code seq s).Leaves s.WritesOn := by
  obtain ⟨d, nk, w, e, -⟩ := allocGrow_steppedSix (s := s) (seq.headD s.lastCode)
  have hsix : s.WritesOn (allocGrow { s with lastCode := seq.headD s.lastCode }) := by
    rw [e]; exact .quiet rfl rfl rfl ⟨rfl, rfl, rfl, rfl⟩
  exact ((emitAll_writesOn seq _).mono fun _ => hsix.trans).andThen fun _ _ =>
    State.WritesOn.quiet rfl rfl rfl ⟨rfl, rfl, rfl, rfl⟩

theorem tailOf_writesOn (code : Code) (seq : Option (List Code)) (s : State) :
    (tailOf code seq s).Leaves s.WritesOn := by
  cases seq with
  | some seq => exact tail_writesOn code seq s
  | none => exact terminate_writesOn _ s

theorem execFirst_writesOn {code : Code} {s t : State} (e : execFirst code s = .next t) : s.WritesOn t := by
  refine Eng.Leaves.outcome ((emit_writesOn code s).andThen fun _ _ => ?_) e
  exact State.WritesOn.quiet rfl rfl rfl ⟨rfl, rfl, rfl, rfl⟩

/-- Every code, by its class (R95, R142). -/
theorem runClass_writesOn {c : CodeClass} {code : Code} {s t : State} (e : runClass c code s = .next t) :
    s.WritesOn t := by
  cases c with
  | invalid => cases e; exact terminate_writesOn _ s
  | endCode => cases e; exact terminate_writesOn _ s
  | clear => cases e; exact .quiet rfl rfl rfl ⟨rfl, rfl, rfl, rfl⟩
  | first => exact execFirst_writesOn e
  | kwkwk => exact (tailOf_writesOn code _ s).outcome e
  | literal => exact (tailOf_writesOn code _ s).outcome e
  | dict => exact (tailOf_writesOn code _ s).outcome e

/-! ### What an engine turn writes (R190, R191, R253) -/

/-- DECODE_STEP: READ makes no write, the code's class the next ones (R142 to R144). -/
theorem decodeStep_writesOn {s t : State} (h : DecInv s) (e : execDecodeStep s = .next t) : s.WritesOn t := by
  unfold execDecodeStep at e
  split at e
  · cases e; exact terminate_writesOn _ s
  · rcases readCode_inv (fillInv_of h) h.bits h.unpacker.widthHigh h.config.sourceFits with
      ⟨c, r, hread, -, -, -, -, -, hw, hframe⟩ | ⟨r, hread, -, -, -, -, hw, -, hframe⟩ |
      ⟨r, hread, -, -, -, -, -, -, hw, hframe⟩ <;> rw [hread] at e
    all_goals
      have hquiet : s.WritesOn r := .quiet (by rw [hframe]) (by rw [hframe]) hw
        ⟨by rw [hframe], by rw [hframe], by rw [hframe], by rw [hframe]⟩
    · exact hquiet.trans (runClass_writesOn e)
    · cases e; exact hquiet.trans (terminate_writesOn _ r)
    · cases e; exact hquiet

theorem padPos_succ {s : State} (h : s.padPos.toNat < s.pixelCount) : (s.padPos + 1).toNat = s.padPos.toNat + 1 :=
  outCount_succ (s := { s with outCount := s.padPos }) h

/-- PAD_STEP writes the element of `padPos` and counts it, or makes no write (R185). -/
theorem padStep_writes {s t : State} (h : s.Recorded s.padPos.toNat) (e : execPadStep s = .next t) :
    s.padPos.toNat ≤ t.padPos.toNat ∧ t.Recorded t.padPos.toNat ∧
      ∀ a, s.outside s.padPos.toNat t.padPos.toNat a → t.memory.read a = s.memory.read a := by
  unfold execPadStep at e
  rcases padStep_cases s with ⟨-, hstep⟩ | ⟨hN, -, -, hstep⟩ | ⟨-, -, -, hstep⟩ | ⟨-, -, hstep⟩ <;>
    rw [hstep] at e <;> cases e
  · exact ⟨Nat.le_refl _, h.congr rfl rfl rfl rfl, fun _ _ => rfl⟩
  · have hnext := padPos_succ hN
    have hwritten := h.write hN 0 s.outCount (s.padPos + 1)
    rw [← hnext] at hwritten
    refine ⟨by show _ ≤ (s.padPos + 1).toNat; omega, hwritten, fun a ha => ?_⟩
    obtain ⟨hlow, hhigh⟩ := ha s.padPos.toNat (Nat.le_refl _) (by show _ < (s.padPos + 1).toNat; omega) hN
    exact Memory.read_writeHalf_other s.memory 0 hlow hhigh
  · rw [terminate_completes rfl]
    exact ⟨Nat.le_refl _, h.congr rfl (by simp [State.writesMade]) rfl rfl, fun _ _ => rfl⟩

/-- Settles O52: the invariant gives the record before the turn, the turn's writes extend it, by the phase. -/
theorem engineTurnWritesTheNextElements : Obligations.EngineTurnWritesTheNextElements := by
  intro s t h hbusy e stop
  have hframe := (engineTurn_engineChange e).frame
  have hd : t.destAddr = s.destAddr := by rw [hframe]; rfl
  have hN : t.pixelCount = s.pixelCount := by rw [hframe]; rfl
  have hbefore := (h.job hbusy).output.recorded h.memory
  have hturn : s.arrived ≤ stop ∧ t.Recorded stop ∧
      ∀ a, s.outside s.arrived stop a → t.memory.read a = s.memory.read a := by
    cases hp : s.phase with
    | idle => exact absurd hp hbusy
    | decode =>
      have hstop : stop = t.outCount.toNat := if_neg (by rw [hp]; decide)
      rw [arrived_of_decode hp] at hbefore ⊢
      rw [hstop]
      obtain ⟨hadv, hrec⟩ := decodeStep_writesOn (h.dec hp) ((engineTurn_of_decode hp).symm.trans e)
      exact ⟨hadv.count, hrec hbefore, hadv.bytes⟩
    | pad =>
      have hstop : stop = t.padPos.toNat := if_pos hp
      rw [arrived_of_pad hp] at hbefore ⊢
      rw [hstop]
      exact padStep_writes hbefore ((engineTurn_of_pad hp).symm.trans e)
  obtain ⟨hle, hrec, hbytes⟩ := hturn
  exact ⟨hle, hN ▸ hrec.bound, hd ▸ hrec.addresses, fun j hj => hd ▸ hrec.landed hj, hbytes⟩

end Sys2Proof.Machine

/-! # Proofs: the host commands (43_host_commands.md)

What an accepted START leaves, what a read of each register returns, and what the configuration writes, the ignored
writes, ACK and ABORT change. -/

namespace Sys2Proof.Machine

/-! ### An accepted START (R203, R205) -/

/-- Settles O14: START answers `State.begun`, whose width and `nextKey` fit their fields for an accepted `m` and whose
dictionary is the seeded one. -/
theorem acceptedStartInitialisesTheJob : Obligations.AcceptedStartInitialisesTheJob := by
  intro s d hidle hm haligned hsrc hdst hdisjoint
  have hstart : execStart d s = .next s.begun :=
    startJob_accepted hidle (configCheck_eq_none hm haligned hsrc hdst) hdisjoint
  exact ⟨s.begun, hstart, (execCtrlBoth_idle hidle d).trans hstart, rfl, width_toNat hm, clear_toNat hm,
    fun _ hi => Dict.read_seed_low _ _ hi, fun _ hi => Dict.read_seed_high _ _ hi⟩

/-! ### Register reads (R200, R34 to R49) -/

/-- A word laid out as fields is the sum of its fields, the low one first. -/
theorem toNat_append_eq_add {k n : Nat} (hi : BitVec k) (lo : BitVec n) :
    (hi ++ lo).toNat = lo.toNat + 2 ^ n * hi.toNat := by
  rw [BitVec.toNat_append, Nat.shiftLeft_eq, Nat.mul_comm, ← Nat.two_pow_add_eq_or_of_lt lo.isLt, Nat.add_comm]

/-- BUSY as a number (R21, R36). -/
theorem State.busy_toNat (s : State) : s.busy.toNat = if s.phase = .idle then 0 else 1 := by
  cases h : s.phase <;> simp [State.busy, h]

/-- STATUS (R36). -/
theorem State.toNat_regValue_status (s : State) :
    (s.regValue Reg.status).toNat = s.busy.toNat + 2 * s.done.toNat + 4 * s.err.toNat := by
  change (0#29 ++ BitVec.ofBool s.err ++ BitVec.ofBool s.done ++ BitVec.ofBool s.busy).toNat = _
  simp only [toNat_append_eq_add, BitVec.toNat_ofBool, BitVec.toNat_ofNat]
  omega

/-- CAUSE (R37). -/
theorem State.toNat_regValue_cause (s : State) : (s.regValue Reg.cause).toNat = s.cause.code.toNat := by
  change (0#28 ++ s.cause.code).toNat = _
  simp only [toNat_append_eq_add, BitVec.toNat_ofNat]
  omega

/-- CONFIG (R38). -/
theorem State.toNat_regValue_config (s : State) :
    (s.regValue Reg.config).toNat = s.mincode.toNat + 256 * s.interlace.toNat := by
  change (0#23 ++ BitVec.ofBool s.interlace ++ s.mincode).toNat = _
  simp only [toNat_append_eq_add, BitVec.toNat_ofBool, BitVec.toNat_ofNat]
  omega

/-- IRQ_EN (R39). -/
theorem State.toNat_regValue_irqEn (s : State) : (s.regValue Reg.irqEn).toNat = s.doneIe.toNat := by
  change (0#31 ++ BitVec.ofBool s.doneIe).toNat = _
  simp only [toNat_append_eq_add, BitVec.toNat_ofBool, BitVec.toNat_ofNat]
  omega

/-- DIM (R43). -/
theorem State.toNat_regValue_dim (s : State) :
    (s.regValue Reg.dim).toNat = s.dimWidth.toNat + 65536 * s.dimHeight.toNat :=
  toNat_append_eq_add s.dimHeight s.dimWidth

/-- DBG_DICT (R47). -/
theorem State.toNat_regValue_dbgDict (s : State) :
    (s.regValue Reg.dbgDict).toNat = s.nextKey.toNat + 65536 * s.width.toNat := by
  change (0#12 ++ s.width ++ 0#3 ++ s.nextKey).toNat = _
  simp only [toNat_append_eq_add, BitVec.toNat_ofNat]
  omega

/-- DBG_PREV (R48). -/
theorem State.toNat_regValue_dbgPrev (s : State) : (s.regValue Reg.dbgPrev).toNat =
    s.prevCode.toNat + 65536 * s.lastCode.toNat + 2 ^ 31 * s.prevNone.toNat := by
  change (BitVec.ofBool s.prevNone ++ 0#3 ++ s.lastCode ++ 0#4 ++ s.prevCode).toNat = _
  simp only [toNat_append_eq_add, BitVec.toNat_ofBool, BitVec.toNat_ofNat]
  omega

/-- DBG_BITS (R49). -/
theorem State.toNat_regValue_dbgBits (s : State) :
    (s.regValue Reg.dbgBits).toNat = s.cache.toNat + 2 ^ 24 * s.bitCount.toNat := by
  change (0#3 ++ s.bitCount ++ 0#5 ++ s.cache).toNat = _
  simp only [toNat_append_eq_add, BitVec.toNat_ofNat]
  omega

/-- Settles O16: RD latches `regValue`, and each word is the sum of its fields at their places. -/
theorem registerReadsReturnTheirFields : Obligations.RegisterReadsReturnTheirFields := by
  intro s
  have hstatus := s.toNat_regValue_status
  rw [s.busy_toNat] at hstatus
  exact ⟨s.regValue, fun _ => rfl, rfl, hstatus, s.toNat_regValue_cause, s.toNat_regValue_config,
    s.toNat_regValue_irqEn, rfl, rfl, rfl, s.toNat_regValue_dim, rfl, rfl, rfl, s.toNat_regValue_dbgDict,
    s.toNat_regValue_dbgPrev, s.toNat_regValue_dbgBits, rfl⟩

/-! ### Configuration writes (R202, R212 to R216) -/

theorem whenIdle_idle {s : State} (h : s.phase = .idle) (store : State → State) : whenIdle store s = store s := by
  unfold whenIdle; exact if_pos h

theorem whenIdle_busy {s : State} (h : s.phase ≠ .idle) (store : State → State) : whenIdle store s = s := by
  unfold whenIdle; exact if_neg h

/-- Settles O7: the five writes are stores guarded by `whenIdle`. -/
theorem configurationWritesStoreOnlyWhenIdle : Obligations.ConfigurationWritesStoreOnlyWhenIdle := by
  refine fun s d => ⟨fun hidle => ?idle, fun hbusy => ?busy⟩
  case idle =>
    have hstore := whenIdle_idle hidle
    exact ⟨congrArg _ (hstore _), congrArg _ (hstore _), congrArg _ (hstore _), congrArg _ (hstore _),
      congrArg _ (hstore _)⟩
  case busy =>
    have hkeep := whenIdle_busy hbusy
    exact ⟨congrArg _ (hkeep _), congrArg _ (hkeep _), congrArg _ (hkeep _), congrArg _ (hkeep _), congrArg _ (hkeep _)⟩

/-! ### Ignored writes (R211) -/

/-- The offsets of R211 by number. -/
theorem writeIgnored_of_mem {o : Offset} (h : o ∈ [(0x08 : Offset), 0x24, 0x28, 0x2C, 0x30, 0x34, 0x38, 0x3C]) :
    Reg.writeIgnored o = true := by
  revert o; decide

/-- Settles O8. -/
theorem readOnlyRegisterWritesAreIgnored : Obligations.ReadOnlyRegisterWritesAreIgnored :=
  fun _ _ d ho => ⟨decodeWrite_of_writeIgnored (writeIgnored_of_mem ho) d, rfl⟩

/-! ### ACK and ABORT (R206, R207) -/

/-- ACK with `data[1]` set clears DONE (R207). -/
theorem execAck_set {d : Word} (h : d.getLsbD 1 = true) (s : State) : execAck d s = .next { s with done := false } :=
  congrArg _ (if_pos h)

/-- ACK with `data[1]` clear does nothing (R207). -/
theorem execAck_clear {d : Word} (h : d.getLsbD 1 = false) (s : State) : execAck d s = .next s :=
  congrArg _ (if_neg (ne_true_of_eq_false h))

/-- ACK does nothing where DONE is 0 already (R207). -/
theorem execAck_of_not_done {s : State} (h : s.done = false) (d : Word) : execAck d s = .next s := by
  cases hbit : d.getLsbD 1 with
  | true => rw [execAck_set hbit, ← h]
  | false => exact execAck_clear hbit s

/-- Settles O10: in a running job the invariant says that DONE is 0. -/
theorem ackClearsDone : Obligations.AckClearsDone := by
  intro s d
  have hdecode := decodeWrite_status d
  refine ⟨fun hset => ⟨?acks, execAck_set hset s⟩, fun hinv hbusy => execAck_of_not_done (hinv.job hbusy).notDone d,
    fun hclear => ⟨execAck_clear hclear s, ?ignored, rfl⟩⟩
  case acks => rw [if_pos hset] at hdecode; exact hdecode
  case ignored => rw [if_neg (ne_true_of_eq_false hclear)] at hdecode; exact hdecode

/-- Settles O11, by the phase. -/
theorem abortEndsARunningJob : Obligations.AbortEndsARunningJob :=
  fun _ _ => ⟨fun hbusy => congrArg _ (abortJob_busy hbusy), fun hidle => congrArg _ (abortJob_idle hidle)⟩

end Sys2Proof.Machine

/-! # Proofs: the exceptions (60_exceptions.md)

The cause of a START that fails a check, and the accesses that take the block out of IDLE. -/

namespace Sys2Proof.Machine

/-! ### The failing checks of a START (R204, R252) -/

/-- `config_check()` tests the low bit of DST_ADDR (R204). -/
theorem State.dstAddr_getLsbD_zero_iff (s : State) : s.dstAddr.getLsbD 0 = true ↔ s.dstAddr.toNat % 2 = 1 := by
  rw [BitVec.getLsbD, Nat.testBit_zero, decide_eq_true_iff]

theorem configCheck_eq_cfgMincode {s : State} (hm : Config.maxMincode < s.mincode.toNat) :
    configCheck s = some .cfgMincode := by
  unfold configCheck; exact if_pos hm

theorem configCheck_eq_cfgAlign {s : State} (hm : ¬ Config.maxMincode < s.mincode.toNat)
    (ha : s.dstAddr.toNat % 2 = 1) : configCheck s = some .cfgAlign := by
  unfold configCheck
  rw [if_neg hm, if_pos (s.dstAddr_getLsbD_zero_iff.2 ha)]

theorem configCheck_eq_cfgRange {s : State} (hm : ¬ Config.maxMincode < s.mincode.toNat)
    (ha : ¬ s.dstAddr.toNat % 2 = 1)
    (hr : Config.busSize < s.srcAddr.toNat + s.srcLen.toNat ∨ Config.busSize < s.dstAddr.toNat + 2 * s.pixelCount) :
    configCheck s = some .cfgRange := by
  unfold configCheck
  rw [if_neg hm, if_neg (mt s.dstAddr_getLsbD_zero_iff.1 ha), if_pos hr]

/-- Settles O13: the cause is that of the first check that fails. -/
theorem startRefusedByTheFirstFailingCheck : Obligations.StartRefusedByTheFirstFailingCheck :=
  fun _ _ hidle =>
    ⟨fun hm => startJob_rejected hidle (configCheck_eq_cfgMincode hm),
      fun hm ha => startJob_rejected hidle (configCheck_eq_cfgAlign hm ha),
      fun hm ha hr => startJob_rejected hidle (configCheck_eq_cfgRange hm ha hr)⟩

/-! ### Leaving IDLE (R250, R265, R292) -/

/-- A START that takes the block out of IDLE begins a job: one that fails a check leaves it there (R203, R252). -/
theorem startJob_leaves_idle {s t : State} (hp : s.phase = .idle) (e : startJob s = .next t) (ht : t.phase ≠ .idle) :
    t.phase = .decode := by
  rcases startJob_cases hp e with ⟨c, -, rfl⟩ | ⟨-, rfl⟩
  · exact absurd hp ht
  · rfl

theorem execAck_phase {s t : State} {d : Word} (e : execAck d s = .next t) : t.phase = s.phase := by
  cases hbit : d.getLsbD 1 with
  | true => rw [execAck_set hbit] at e; cases e; rfl
  | false => rw [execAck_clear hbit] at e; cases e; rfl

/-- A configuration write keeps the phase (R202). -/
theorem whenIdle_phase {s : State} {store : State → State} (h : (store s).phase = s.phase) :
    (whenIdle store s).phase = s.phase := by
  unfold whenIdle; split
  · exact h
  · rfl

/-- Of the host commands only START and CTRL_BOTH take the block out of IDLE, and they begin a job (R203, R209). -/
theorem hostTurn_leaves_idle {s t : State} {a : HostAccess} (hp : s.phase = .idle) (e : hostTurn a s = .next t)
    (ht : t.phase ≠ .idle) :
    t.phase = .decode ∧ ∃ d, decodeAccess s.platform.blockBase a = .ok (.start d) ∨
      decodeAccess s.platform.blockBase a = .ok (.ctrlBoth d) := by
  have hmoved : t.phase ≠ s.phase := hp ▸ ht
  cases h : decodeAccess s.platform.blockBase a with
  | rejected r => rw [hostTurn_of_rejected h] at e; cases e
  | ok i =>
    rw [hostTurn_of_decoded h] at e
    rcases decodeAccess_host h with ⟨d, rfl⟩ | ⟨d, rfl⟩ | ⟨d, rfl⟩ | ⟨d, rfl⟩ | ⟨d, rfl⟩ | ⟨d, rfl⟩ | ⟨d, rfl⟩ | ⟨d, rfl⟩ |
      ⟨d, rfl⟩ | ⟨d, rfl⟩ | ⟨o, d, rfl⟩ | ⟨o, rfl⟩
    · exact ⟨startJob_leaves_idle hp e ht, d, .inl rfl⟩
    · cases e; exact absurd (congrArg State.phase (abortJob_idle hp)) hmoved
    · exact ⟨startJob_leaves_idle hp ((execCtrlBoth_idle hp d).symm.trans e) ht, d, .inr rfl⟩
    · exact absurd (execAck_phase e) hmoved
    · cases e; exact absurd rfl hmoved
    iterate 5 · cases e; exact absurd (whenIdle_phase rfl) hmoved
    iterate 2 · cases e; exact absurd rfl hmoved

theorem memStoreTurn_phase {s t : State} {a : Word} {b : Byte} (e : memStoreTurn a b s = .next t) :
    t.phase = s.phase := by
  unfold memStoreTurn at e
  split at e <;> cases e
  rfl

theorem memLoadTurn_phase {s t : State} {a : Word} (e : memLoadTurn a s = .next t) : t.phase = s.phase := by
  unfold memLoadTurn at e
  split at e <;> cases e <;> rfl

/-- The engine makes no step in IDLE (R265). -/
theorem engineTurn_keeps_idle {s t : State} (hp : s.phase = .idle) (e : engineTurn s = .next t) : t.phase = .idle := by
  rw [engineTurn_of_idle hp] at e
  cases e
  exact hp

/-- A turn that takes the block out of IDLE is a host register access. -/
theorem takeTurn_leaves_idle {s t : State} {turn : Turn} (hp : s.phase = .idle) (e : takeTurn turn s = .next t)
    (ht : t.phase ≠ .idle) : ∃ a, turn = .host a ∧ hostTurn a s = .next t := by
  cases turn with
  | engine => exact absurd (engineTurn_keeps_idle hp e) ht
  | host a => exact ⟨a, rfl, e⟩
  | memStore a b => exact absurd ((memStoreTurn_phase e).trans hp) ht
  | memLoad a => exact absurd ((memLoadTurn_phase e).trans hp) ht
  | reset => cases e; exact absurd rfl ht

/-- Settles O44: the turn is a host access, and of those only START and CTRL_BOTH begin a job. -/
theorem onlyStartBeginsAJob : Obligations.OnlyStartBeginsAJob := by
  intro s t e hp ht
  cases hs : s.schedule with
  | nil => rw [step_of_schedule_nil hs] at e; exact absurd (engineTurn_keeps_idle hp e) ht
  | cons turn rest =>
    rw [step_of_schedule_cons hs] at e
    obtain ⟨a, rfl, e⟩ := takeTurn_leaves_idle (s := { s with schedule := rest }) hp e ht
    obtain ⟨hphase, d, hd⟩ := hostTurn_leaves_idle (s := { s with schedule := rest }) hp e ht
    exact ⟨hphase, a, rest, d, rfl, hd⟩

end Sys2Proof.Machine
